-- ==== Sys2Proof/Word.lean ====
section
/-! DEFINITION. The word types of the block and the widening of a byte to a register value. -/

namespace Sys2Proof

/-- Every register is 32 bits wide (10_state, opening text). -/
abbrev Word := BitVec 32

/-- A byte of BUF or MAT, and an element of GF(256) (R40). -/
abbrev Byte := BitVec 8

/-- A byte offset in the block's 64 KiB window (R60). -/
abbrev Offset := BitVec 16

/-- `zext_32` of a byte (R11). -/
def zext32 (b : Byte) : Word := b.setWidth 32

end Sys2Proof
end

