-- ==== Sys2Proof/Config.lean ====
section
/-! DEFINITION. The fixed parameters of the block (R6), the parameters the spec leaves open (R7, R226), and
the free values: opaque constants, of which no proof can see a value. -/

namespace Sys2Proof.Config

/-- BUF_SIZE, bytes in BUF (R6). -/
def bufSize : Nat := 16384

/-- MAT_BYTES, bytes in MAT (R6). -/
def matBytes : Nat := 4096

/-- MAX_ECC, the largest remainder length (R6). -/
def maxEcc : Nat := 30

/-- NMIN, the smallest matrix side PSCORE accepts (R6). -/
def nMin : Nat := 21

/-- NMAX, the largest matrix side PSCORE accepts (R6). -/
def nMax : Nat := 177

/-- The size of the window in bytes (R6). -/
def windowSize : Nat := 65536

/-- ID_VALUE, what register ID reads as (R6, R21). -/
def idValue : Word := 0x51524746#32

/-- Which multiple of 65536 the platform chose for QRGF_BASE (R7; log 7). -/
opaque qrgfBaseIndex : Nat

/-- QRGF_BASE, the system address of window offset 0: a multiple of 65536 (R7). -/
def qrgfBase : Nat := windowSize * qrgfBaseIndex

/-- QRGF_IRQ, the platform interrupt input that `irq` drives (R226; log 7). -/
opaque qrgfIrq : Nat

/-- Free value: what byte `addr` of BUF holds after hardware reset number `era` until it is written
(R47, R250, U1; log 3). -/
opaque bufAfterReset (era addr : Nat) : Byte

/-- Free value: what byte `addr` of MAT holds after hardware reset number `era` until it is written
(R47, R250, U1; log 3). -/
opaque matAfterReset (era addr : Nat) : Byte

/-- Free value: what output byte `addr` of abandoned command number `k` holds (R251, U2; log 6). -/
opaque bufAfterAbort (k addr : Nat) : Byte

/-- Free value: `gfdiv(a, 0)`, which the spec calls undefined and no command computes (R114; log 8). -/
opaque gfdivByZero (a : Byte) : Byte

end Sys2Proof.Config
end

