-- ==== Sys2Proof/Syntax.lean ====
section
/-! DEFINITION. The commands of the QRGF command set, revision 1, one constructor per row of the opcode
map (R93), and the assembler's pseudo-commands (R98). -/

namespace Sys2Proof

/-- A command with its fields. Field elements are bytes; every other field is an unsigned natural (R92),
whose width the assembler's check in WellFormed bounds. -/
inductive Instr where
  | nop
  | gfmul (a b : Byte)
  | gfdiv (a b : Byte)
  | gfexp (x : Byte)
  | gflog (x : Byte)
  | pdiv (n : Nat)
  | rsenc (n : Nat)
  | eccblk (k e : Nat)
  | bsreset
  | bsappend (w6 : Nat)
  | bspad
  | bsget (w6 : Nat)
  | pscore (m : Nat)
  | swrst
  deriving DecidableEq, Repr

/-- The fourteen mnemonics of the opcode map (R93). -/
inductive Mnemonic where
  | nop | gfmul | gfdiv | gfexp | gflog | pdiv | rsenc | eccblk
  | bsreset | bsappend | bspad | bsget | pscore | swrst
  deriving DecidableEq, Repr

/-- The row of the opcode map a command belongs to. -/
def Instr.mnemonic : Instr → Mnemonic
  | .nop => .nop
  | .gfmul _ _ => .gfmul
  | .gfdiv _ _ => .gfdiv
  | .gfexp _ => .gfexp
  | .gflog _ => .gflog
  | .pdiv _ => .pdiv
  | .rsenc _ => .rsenc
  | .eccblk _ _ => .eccblk
  | .bsreset => .bsreset
  | .bsappend _ => .bsappend
  | .bspad => .bspad
  | .bsget _ => .bsget
  | .pscore _ => .pscore
  | .swrst => .swrst

/-- The names a command line may begin with: the mnemonics and the pseudo-commands' own names (R97, R98).
`PSCORE` without a field is the mnemonic with an empty field list. -/
inductive AsmName where
  | cmd (m : Mnemonic)
  | gfinv
  | gfsqr
  | bsbyte
  deriving DecidableEq, Repr

/-- The pseudo-commands of the assembler (R98). -/
inductive Pseudo where
  /-- `GFINV b`: the multiplicative inverse of b. -/
  | gfinv (b : Byte)
  /-- `GFSQR a`: a squared. -/
  | gfsqr (a : Byte)
  /-- `PSCORE` without a field: all four penalty rules. -/
  | pscoreAll
  /-- `BSBYTE`: append the low 8 bits of A. -/
  | bsbyte
  deriving DecidableEq, Repr

end Sys2Proof
end

