-- ==== Sys2Proof/Machine/State.lean ====
section
/-! DEFINITION. What the block holds between two steps, as plain data: the registers (R20 to R29), the two
RAMs (R31, R32), and the model's own fields, the host port and the counters of the free values. -/

namespace Sys2Proof.Machine

/-- The values STATUS.ERRCODE takes, by the names of R220 (log 9). -/
inductive ErrCode where
  | ok | illcmd | badarg | width | range | div0 | log0 | ovf | underrun
  deriving DecidableEq, Repr

/-- The width of a host access (R9). -/
inductive Width where
  | w8 | w16 | w32
  deriving DecidableEq, Repr

/-- What the outside world does to the block, one event a step (R9, R72, R250, R251). -/
inductive HostEvent where
  /-- A host read of `width` at a window offset. -/
  | read (width : Width) (off : Offset)
  /-- A host write; an 8- or 16-bit write moves the low bits of `value` (log 2). -/
  | write (width : Width) (off : Offset) (value : Word)
  /-- A hardware reset, asserted and released between transactions (R250; log 5). -/
  | reset
  /-- A 32-bit CMD write of `word` that a hardware reset abandons (R251; log 6). -/
  | abortedCmd (word : Word)
  deriving DecidableEq, Repr

/-- The bus response to the last event served (R66, R71; log 2). -/
inductive BusResp where
  /-- None: nothing served since reset, or the last event was a reset. -/
  | idle
  /-- A write was accepted; for CMD, the command has ended. -/
  | ack
  /-- A read was accepted and returned a value, zero-extended to 32 bits. -/
  | data (value : Word)
  /-- BUSERR. -/
  | buserr
  deriving DecidableEq, Repr

/-- The written bytes of a RAM: addresses rise, and an unlisted address has not been written since the
hardware reset (log 4). -/
abbrev Memory := List Host.Cell

/-- The state of the block. ID and CMD have no storage (R21, R24), and `irq` is a function of the state
(R30). -/
structure State where
  /-- STATUS.ERRCODE (R22). -/
  errcode : ErrCode
  /-- STATUS.STICKY (R22). -/
  sticky : Bool
  /-- CTRL.IE (R23). -/
  ie : Bool
  a : Word
  b : Word
  c : Word
  d : Word
  result : Word
  cmdcnt : Word
  bsbase : Word
  bscap : Word
  bslen : Word
  bsrd : Word
  msize : Word
  pen1 : Word
  pen2 : Word
  pen3 : Word
  pen4 : Word
  /-- BUF (R31), by BUF byte address. -/
  buf : Memory
  /-- MAT (R32), by MAT byte address. -/
  mat : Memory
  /-- The model's own: events not yet served, oldest first (log 1). -/
  port : List HostEvent
  /-- The model's own: the response to the last event served (log 2). -/
  resp : BusResp
  /-- The model's own: which hardware reset the unwritten RAM bytes date from (log 3). -/
  era : Nat
  /-- The model's own: how many commands hardware resets have abandoned (log 6). -/
  aborts : Nat
  deriving DecidableEq, Repr

/-- No step of the block stops with a fault: a failing command and a bus error each have the effect the spec
gives them (R221, R225, R66), so the type of fault reasons is empty. -/
inductive Fault where
  deriving DecidableEq, Repr

/-- Why a command has no meaning. -/
inductive Refusal where
  /-- Raised by an arm of exec whose command has no meaning yet. Safe: the model stops. -/
  | notModelled (mnemonic : String)
  deriving DecidableEq, Repr

/-- The block right after the first hardware reset (R20, R47, R250): every register 0, both RAMs unwritten. -/
def State.reset : State where
  errcode := .ok
  sticky := false
  ie := false
  a := 0
  b := 0
  c := 0
  d := 0
  result := 0
  cmdcnt := 0
  bsbase := 0
  bscap := 0
  bslen := 0
  bsrd := 0
  msize := 0
  pen1 := 0
  pen2 := 0
  pen3 := 0
  pen4 := 0
  buf := []
  mat := []
  port := []
  resp := .idle
  era := 0
  aborts := 0

end Sys2Proof.Machine
end

