-- ==== Sys2Proof/Machine/Ops.lean ====
section
/-! DEFINITION. The shared operations: the RAMs byte by byte, the bits of the stream and of the matrix, the
order of a command's checks, the failing and the successful end of a command, and the register reset. -/

namespace Sys2Proof.Machine

/-- `ceil8(k)` (R11). -/
def ceil8 (k : Nat) : Nat := (k + 7) / 8

/-! ### Written bytes -/

/-- What has been written at an address, if anything. -/
def Memory.cell : Memory → Nat → Option Byte
  | [], _ => none
  | (k, v) :: m, a => if k = a then some v else Memory.cell m a

/-- Writes one byte and keeps the addresses rising. -/
def Memory.store : Memory → Nat → Byte → Memory
  | [], a, v => [(a, v)]
  | (k, u) :: m, a, v =>
    if a < k then (a, v) :: (k, u) :: m
    else if a = k then (a, v) :: m
    else (k, u) :: Memory.store m a v

/-- Writes a byte sequence from an address on (`MemWrite`, R13). -/
def Memory.storeBytes : Memory → Nat → List Byte → Memory
  | m, _, [] => m
  | m, a, v :: vs => Memory.storeBytes (Memory.store m a v) (a + 1) vs

/-- The canonical form of a RAM of `size` bytes: addresses strictly rise and lie in the RAM. -/
abbrev Memory.wf (size : Nat) (m : Memory) : Prop :=
  (m.map Prod.fst).Pairwise (· < ·) ∧ ∀ a ∈ m.map Prod.fst, a < size

/-! ### BUF and MAT -/

/-- `BUF[i]`: the byte last written there, else its unknown value since the hardware reset (R31, R255). -/
def bufByte (s : State) (i : Nat) : Byte := (Memory.cell s.buf i).getD (Config.bufAfterReset s.era i)

/-- `MAT[j]` (R32). -/
def matByte (s : State) (j : Nat) : Byte := (Memory.cell s.mat j).getD (Config.matAfterReset s.era j)

/-- `MemRead(addr, n)` (R13). -/
def memRead (s : State) (addr n : Nat) : List Byte := (List.range n).map (fun j => bufByte s (addr + j))

/-- `MemWrite(addr, n, bytes)` with n the length of the sequence (R13). -/
def memWrite (addr : Nat) (bytes : List Byte) (s : State) : State :=
  { s with buf := Memory.storeBytes s.buf addr bytes }

/-- A host write into the MAT window (R62). -/
def matWrite (addr : Nat) (bytes : List Byte) (s : State) : State :=
  { s with mat := Memory.storeBytes s.mat addr bytes }

/-- `addr + len ≤ BUF_SIZE`, in unbounded arithmetic (R78, R11). -/
def inBuf (addr len : Nat) : Bool := decide (addr + len ≤ Config.bufSize)

/-! ### Bits within bytes -/

/-- Bit p of a byte set to v, the others unchanged. -/
def setBit (x : Byte) (p : Nat) (v : Bool) : Byte :=
  if v then x ||| (1#8 <<< p) else x &&& ~~~(1#8 <<< p)

/-- Stream bit k of the stream at BUF address `base`: bit `7 − (k mod 8)` of byte `k div 8` (R151). -/
def streamBit (s : State) (base k : Nat) : Bool := (bufByte s (base + k / 8)).getLsbD (7 - k % 8)

/-- `MatBit(k)` (R13, R32). -/
def matBit (s : State) (k : Nat) : Bool := (matByte s (k / 8)).getLsbD (7 - k % 8)

/-! ### Checks, errors and the common end -/

/-- A command's checks in the order they are made: the error of the first that fails (R16, R223). -/
def firstFailed : List (Bool × ErrCode) → Option ErrCode
  | [] => none
  | (holds, e) :: rest => if holds then firstFailed rest else some e

/-- The failing end of a command, the block's one exception: ERRCODE, STICKY and CMDCNT, nothing else (R221).
There is no other entry: nothing is saved and no control flow is diverted (R225, R227). -/
def raiseError (e : ErrCode) (s : State) : State :=
  { s with errcode := e, sticky := true, cmdcnt := s.cmdcnt + 1 }

/-- The handler's return: a host write of STATUS with bit 4 set clears STICKY and so drops irq (R22, R228). -/
def clearSticky (s : State) : State := { s with sticky := false }

/-- The common end of a successful command (R222). -/
def finish (s : State) : State := { s with errcode := .ok, cmdcnt := s.cmdcnt + 1 }

/-- A command: its checks come before its effect, and it ends in one of the two ways (R14, R221, R222). -/
def runChecked (checks : List (Bool × ErrCode)) (effect : State → State) (s : State) :
    Host.Outcome State Fault Refusal :=
  .next (match firstFailed checks with
    | some e => raiseError e s
    | none => finish (effect s))

/-- Every register but ID at its reset value; RAMs and the model's own fields unchanged (R211, R250). -/
def resetRegisters (s : State) : State :=
  { s with
    errcode := .ok, sticky := false, ie := false, a := 0, b := 0, c := 0, d := 0, result := 0,
    cmdcnt := 0, bsbase := 0, bscap := 0, bslen := 0, bsrd := 0, msize := 0,
    pen1 := 0, pen2 := 0, pen3 := 0, pen4 := 0 }

end Sys2Proof.Machine
end

