-- ==== Sys2Proof/Machine/Operands.lean ====
section
/-! DEFINITION. The register operands of each command, taken whole as unsigned naturals (R92, R95). -/

namespace Sys2Proof.Machine

/-! PDIV and RSENC (R95, R132, R135) -/

/-- A: the dividend or data address. -/
def polyAddr (s : State) : Nat := s.a.toNat
/-- B: the dividend or data length in bytes. -/
def polyLen (s : State) : Nat := s.b.toNat
/-- C: the divisor address (PDIV only). -/
def divisorAddr (s : State) : Nat := s.c.toNat
/-- D: the remainder address. -/
def remainderAddr (s : State) : Nat := s.d.toNat

/-! ECCBLK (R95, R173) -/

/-- A: the data source address. -/
def eccSource (s : State) : Nat := s.a.toNat
/-- B: the total number of codewords T. -/
def eccTotal (s : State) : Nat := s.b.toNat
/-- C: the work area address. -/
def eccWork (s : State) : Nat := s.c.toNat
/-- D: the output address. -/
def eccOut (s : State) : Nat := s.d.toNat

/-! The bitstream commands (R28, R95) -/

/-- BSBASE: the BUF address of stream bit 0. -/
def streamBase (s : State) : Nat := s.bsbase.toNat
/-- BSCAP: the capacity in bits. -/
def streamCap (s : State) : Nat := s.bscap.toNat
/-- BSLEN: the live bit count. -/
def streamLen (s : State) : Nat := s.bslen.toNat
/-- BSRD: the read cursor in bits. -/
def streamCursor (s : State) : Nat := s.bsrd.toNat

/-! PSCORE (R29, R95) -/

/-- MSIZE: the side n of the matrix. -/
def matrixSide (s : State) : Nat := s.msize.toNat

end Sys2Proof.Machine
end

