-- ==== Sys2Proof/Machine/Bitstream.lean ====
section
/-! DEFINITION. The bitstream packer: BSRESET, BSAPPEND, BSPAD, BSGET. -/

namespace Sys2Proof.Machine

/-- `PutBit(bit)` (R152): a new byte starts with its other bits 0; a started byte keeps them. -/
def putBit (bit : Bool) (s : State) : State :=
  let k := streamLen s
  let addr := streamBase s + k / 8
  let byte :=
    if k % 8 = 0 then (if bit then 0x80#8 else 0#8) else setBit (bufByte s addr) (7 - k % 8) bit
  { s with buf := Memory.store s.buf addr byte, bslen := BitVec.ofNat 32 (k + 1) }

/-- PutBit of each bit in turn. -/
def putBits : List Bool → State → State
  | [], s => s
  | bit :: bits, s => putBits bits (putBit bit s)

/-- The w low bits of a value, most significant first: the order of `PutBits(v, w)` (R152). -/
def msbFirst (v : Nat) : Nat → List Bool
  | 0 => []
  | w + 1 => v.testBit w :: msbFirst v w

/-- BSRESET (R154). -/
def execBsreset (s : State) : Host.Outcome State Fault Refusal :=
  runChecked [] (fun s => { s with bslen := 0, bsrd := 0 }) s

/-- BSAPPEND's checks after decoding, in order (R155). -/
def bsappendChecks (w : Nat) (s : State) : List (Bool × ErrCode) :=
  [ (decide (w ≤ 32), .badarg),
    (decide (w = 32) || decide (s.a.toNat < 2 ^ w), .width),
    (inBuf (streamBase s) (ceil8 (streamCap s)), .range),
    (decide (streamLen s + w ≤ streamCap s), .ovf) ]

/-- BSAPPEND (R155). -/
def execBsappend (w : Nat) (s : State) : Host.Outcome State Fault Refusal :=
  runChecked (bsappendChecks w s) (putBits (msbFirst s.a.toNat w)) s

/-- The terminator's length: 4 bits, or what is left of the capacity (R157). -/
def terminatorLen (len cap : Nat) : Nat := min 4 (cap - len)

/-- Zero bits to the next byte boundary (R157). -/
def alignLen (len : Nat) : Nat := (8 - len % 8) % 8

/-- `count` pad codewords from number i on: 0xEC for an even number, 0x11 for an odd one (R157). -/
def padCodewords : Nat → Nat → List Bool
  | 0, _ => []
  | count + 1, i => msbFirst (if i % 2 = 0 then 0xEC else 0x11) 8 ++ padCodewords count (i + 1)

/-- All the bits BSPAD appends to a stream of `len` bits: terminator, alignment, pad codewords up to `cap`
(R157; log 12). -/
def padBits (len cap : Nat) : List Bool :=
  let t := terminatorLen len cap
  let z := alignLen (len + t)
  List.replicate (t + z) false ++ padCodewords ((cap - (len + t + z)) / 8) 0

/-- BSPAD's checks after decoding, in order (R157). -/
def bspadChecks (s : State) : List (Bool × ErrCode) :=
  [ (decide (streamCap s % 8 = 0), .badarg),
    (inBuf (streamBase s) (streamCap s / 8), .range),
    (decide (streamLen s ≤ streamCap s), .ovf) ]

/-- BSPAD (R157). -/
def execBspad (s : State) : Host.Outcome State Fault Refusal :=
  runChecked (bspadChecks s) (putBits (padBits (streamLen s) (streamCap s))) s

/-- `w` stream bits from bit k on, as a number, earliest bit most significant, after the bits read so far
(R159). -/
def takeBits (s : State) : Nat → Nat → Nat → Nat
  | 0, _, r => r
  | w + 1, k, r => takeBits s w (k + 1) (2 * r + (streamBit s (streamBase s) k).toNat)

/-- BSGET's checks after decoding, in order (R159). -/
def bsgetChecks (w : Nat) (s : State) : List (Bool × ErrCode) :=
  [ (decide (w ≤ 32), .badarg),
    (inBuf (streamBase s) (ceil8 (streamLen s)), .range),
    (decide (streamCursor s + w ≤ streamLen s), .underrun) ]

/-- BSGET's effect: RESULT and the cursor (R159). -/
def bsgetEffect (w : Nat) (s : State) : State :=
  { s with
    result := BitVec.ofNat 32 (takeBits s w (streamCursor s) 0)
    bsrd := BitVec.ofNat 32 (streamCursor s + w) }

/-- BSGET (R159). -/
def execBsget (w : Nat) (s : State) : Host.Outcome State Fault Refusal :=
  runChecked (bsgetChecks w s) (bsgetEffect w) s

end Sys2Proof.Machine
end

