-- ==== Sys2Proof/Machine/Control.lean ====
section
/-! DEFINITION. The control commands NOP and SWRST. -/

namespace Sys2Proof.Machine

/-- NOP (R210): only the common end. -/
def execNop (s : State) : Host.Outcome State Fault Refusal := runChecked [] id s

/-- SWRST (R211): no common end; ERRCODE, STICKY and CMDCNT are left at their reset values. -/
def execSwrst (s : State) : Host.Outcome State Fault Refusal := .next (resetRegisters s)

end Sys2Proof.Machine
end

