-- ==== Sys2Proof/Machine/Rom.lean ====
section
/-! DEFINITION. The three ROMs, transcribed from the tables of R42, R43 and R45: sixteen rows of sixteen
entries for EXP and LOG (row = high hex digit, column = low hex digit), and the 31 generator polynomials,
highest-degree coefficient first. -/

namespace Sys2Proof.Machine

/-- EXP, rows 0_ to 7_. -/
def expRowsLow : List (List Byte) :=
  [ [0x01, 0x02, 0x04, 0x08, 0x10, 0x20, 0x40, 0x80, 0x1D, 0x3A, 0x74, 0xE8, 0xCD, 0x87, 0x13, 0x26],
    [0x4C, 0x98, 0x2D, 0x5A, 0xB4, 0x75, 0xEA, 0xC9, 0x8F, 0x03, 0x06, 0x0C, 0x18, 0x30, 0x60, 0xC0],
    [0x9D, 0x27, 0x4E, 0x9C, 0x25, 0x4A, 0x94, 0x35, 0x6A, 0xD4, 0xB5, 0x77, 0xEE, 0xC1, 0x9F, 0x23],
    [0x46, 0x8C, 0x05, 0x0A, 0x14, 0x28, 0x50, 0xA0, 0x5D, 0xBA, 0x69, 0xD2, 0xB9, 0x6F, 0xDE, 0xA1],
    [0x5F, 0xBE, 0x61, 0xC2, 0x99, 0x2F, 0x5E, 0xBC, 0x65, 0xCA, 0x89, 0x0F, 0x1E, 0x3C, 0x78, 0xF0],
    [0xFD, 0xE7, 0xD3, 0xBB, 0x6B, 0xD6, 0xB1, 0x7F, 0xFE, 0xE1, 0xDF, 0xA3, 0x5B, 0xB6, 0x71, 0xE2],
    [0xD9, 0xAF, 0x43, 0x86, 0x11, 0x22, 0x44, 0x88, 0x0D, 0x1A, 0x34, 0x68, 0xD0, 0xBD, 0x67, 0xCE],
    [0x81, 0x1F, 0x3E, 0x7C, 0xF8, 0xED, 0xC7, 0x93, 0x3B, 0x76, 0xEC, 0xC5, 0x97, 0x33, 0x66, 0xCC] ]

/-- EXP, rows 8_ to F_. -/
def expRowsHigh : List (List Byte) :=
  [ [0x85, 0x17, 0x2E, 0x5C, 0xB8, 0x6D, 0xDA, 0xA9, 0x4F, 0x9E, 0x21, 0x42, 0x84, 0x15, 0x2A, 0x54],
    [0xA8, 0x4D, 0x9A, 0x29, 0x52, 0xA4, 0x55, 0xAA, 0x49, 0x92, 0x39, 0x72, 0xE4, 0xD5, 0xB7, 0x73],
    [0xE6, 0xD1, 0xBF, 0x63, 0xC6, 0x91, 0x3F, 0x7E, 0xFC, 0xE5, 0xD7, 0xB3, 0x7B, 0xF6, 0xF1, 0xFF],
    [0xE3, 0xDB, 0xAB, 0x4B, 0x96, 0x31, 0x62, 0xC4, 0x95, 0x37, 0x6E, 0xDC, 0xA5, 0x57, 0xAE, 0x41],
    [0x82, 0x19, 0x32, 0x64, 0xC8, 0x8D, 0x07, 0x0E, 0x1C, 0x38, 0x70, 0xE0, 0xDD, 0xA7, 0x53, 0xA6],
    [0x51, 0xA2, 0x59, 0xB2, 0x79, 0xF2, 0xF9, 0xEF, 0xC3, 0x9B, 0x2B, 0x56, 0xAC, 0x45, 0x8A, 0x09],
    [0x12, 0x24, 0x48, 0x90, 0x3D, 0x7A, 0xF4, 0xF5, 0xF7, 0xF3, 0xFB, 0xEB, 0xCB, 0x8B, 0x0B, 0x16],
    [0x2C, 0x58, 0xB0, 0x7D, 0xFA, 0xE9, 0xCF, 0x83, 0x1B, 0x36, 0x6C, 0xD8, 0xAD, 0x47, 0x8E, 0x01] ]

/-- The EXP ROM (R42). -/
def expRom (i : Nat) : Byte := ((expRowsLow ++ expRowsHigh).getD (i / 16) []).getD (i % 16) 0

/-- LOG, rows 0_ to 7_. -/
def logRowsLow : List (List Byte) :=
  [ [0x00, 0x00, 0x01, 0x19, 0x02, 0x32, 0x1A, 0xC6, 0x03, 0xDF, 0x33, 0xEE, 0x1B, 0x68, 0xC7, 0x4B],
    [0x04, 0x64, 0xE0, 0x0E, 0x34, 0x8D, 0xEF, 0x81, 0x1C, 0xC1, 0x69, 0xF8, 0xC8, 0x08, 0x4C, 0x71],
    [0x05, 0x8A, 0x65, 0x2F, 0xE1, 0x24, 0x0F, 0x21, 0x35, 0x93, 0x8E, 0xDA, 0xF0, 0x12, 0x82, 0x45],
    [0x1D, 0xB5, 0xC2, 0x7D, 0x6A, 0x27, 0xF9, 0xB9, 0xC9, 0x9A, 0x09, 0x78, 0x4D, 0xE4, 0x72, 0xA6],
    [0x06, 0xBF, 0x8B, 0x62, 0x66, 0xDD, 0x30, 0xFD, 0xE2, 0x98, 0x25, 0xB3, 0x10, 0x91, 0x22, 0x88],
    [0x36, 0xD0, 0x94, 0xCE, 0x8F, 0x96, 0xDB, 0xBD, 0xF1, 0xD2, 0x13, 0x5C, 0x83, 0x38, 0x46, 0x40],
    [0x1E, 0x42, 0xB6, 0xA3, 0xC3, 0x48, 0x7E, 0x6E, 0x6B, 0x3A, 0x28, 0x54, 0xFA, 0x85, 0xBA, 0x3D],
    [0xCA, 0x5E, 0x9B, 0x9F, 0x0A, 0x15, 0x79, 0x2B, 0x4E, 0xD4, 0xE5, 0xAC, 0x73, 0xF3, 0xA7, 0x57] ]

/-- LOG, rows 8_ to F_. -/
def logRowsHigh : List (List Byte) :=
  [ [0x07, 0x70, 0xC0, 0xF7, 0x8C, 0x80, 0x63, 0x0D, 0x67, 0x4A, 0xDE, 0xED, 0x31, 0xC5, 0xFE, 0x18],
    [0xE3, 0xA5, 0x99, 0x77, 0x26, 0xB8, 0xB4, 0x7C, 0x11, 0x44, 0x92, 0xD9, 0x23, 0x20, 0x89, 0x2E],
    [0x37, 0x3F, 0xD1, 0x5B, 0x95, 0xBC, 0xCF, 0xCD, 0x90, 0x87, 0x97, 0xB2, 0xDC, 0xFC, 0xBE, 0x61],
    [0xF2, 0x56, 0xD3, 0xAB, 0x14, 0x2A, 0x5D, 0x9E, 0x84, 0x3C, 0x39, 0x53, 0x47, 0x6D, 0x41, 0xA2],
    [0x1F, 0x2D, 0x43, 0xD8, 0xB7, 0x7B, 0xA4, 0x76, 0xC4, 0x17, 0x49, 0xEC, 0x7F, 0x0C, 0x6F, 0xF6],
    [0x6C, 0xA1, 0x3B, 0x52, 0x29, 0x9D, 0x55, 0xAA, 0xFB, 0x60, 0x86, 0xB1, 0xBB, 0xCC, 0x3E, 0x5A],
    [0xCB, 0x59, 0x5F, 0xB0, 0x9C, 0xA9, 0xA0, 0x51, 0x0B, 0xF5, 0x16, 0xEB, 0x7A, 0x75, 0x2C, 0xD7],
    [0x4F, 0xAE, 0xD5, 0xE9, 0xE6, 0xE7, 0xAD, 0xE8, 0x74, 0xD6, 0xF4, 0xEA, 0xA8, 0x50, 0x58, 0xAF] ]

/-- The LOG ROM (R43). Entry 0 is stored as 0x00 and read by no command. -/
def logRom (a : Byte) : Byte := ((logRowsLow ++ logRowsHigh).getD (a.toNat / 16) []).getD (a.toNat % 16) 0

/-- GEN[0] to GEN[7]. -/
def genRows0 : List (List Byte) :=
  [ [0x01],
    [0x01, 0x01],
    [0x01, 0x03, 0x02],
    [0x01, 0x07, 0x0E, 0x08],
    [0x01, 0x0F, 0x36, 0x78, 0x40],
    [0x01, 0x1F, 0xC6, 0x3F, 0x93, 0x74],
    [0x01, 0x3F, 0x01, 0xDA, 0x20, 0xE3, 0x26],
    [0x01, 0x7F, 0x7A, 0x9A, 0xA4, 0x0B, 0x44, 0x75] ]

/-- GEN[8] to GEN[15]. -/
def genRows8 : List (List Byte) :=
  [ [0x01, 0xFF, 0x0B, 0x51, 0x36, 0xEF, 0xAD, 0xC8, 0x18],
    [0x01, 0xE2, 0xCF, 0x9E, 0xF5, 0xEB, 0xA4, 0xE8, 0xC5, 0x25],
    [0x01, 0xD8, 0xC2, 0x9F, 0x6F, 0xC7, 0x5E, 0x5F, 0x71, 0x9D, 0xC1],
    [0x01, 0xAC, 0x82, 0xA3, 0x32, 0x7B, 0xDB, 0xA2, 0xF8, 0x90, 0x74, 0xA0],
    [0x01, 0x44, 0x77, 0x43, 0x76, 0xDC, 0x1F, 0x07, 0x54, 0x5C, 0x7F, 0xD5, 0x61],
    [0x01, 0x89, 0x49, 0xE3, 0x11, 0xB1, 0x11, 0x34, 0x0D, 0x2E, 0x2B, 0x53, 0x84, 0x78],
    [0x01, 0x0E, 0x36, 0x72, 0x46, 0xAE, 0x97, 0x2B, 0x9E, 0xC3, 0x7F, 0xA6, 0xD2, 0xEA, 0xA3],
    [0x01, 0x1D, 0xC4, 0x6F, 0xA3, 0x70, 0x4A, 0x0A, 0x69, 0x69, 0x8B, 0x84, 0x97, 0x20, 0x86, 0x1A] ]

/-- GEN[16] to GEN[23]. -/
def genRows16 : List (List Byte) :=
  [ [0x01, 0x3B, 0x0D, 0x68, 0xBD, 0x44, 0xD1, 0x1E, 0x08, 0xA3, 0x41, 0x29, 0xE5, 0x62, 0x32, 0x24,
      0x3B],
    [0x01, 0x77, 0x42, 0x53, 0x78, 0x77, 0x16, 0xC5, 0x53, 0xF9, 0x29, 0x8F, 0x86, 0x55, 0x35, 0x7D,
      0x63, 0x4F],
    [0x01, 0xEF, 0xFB, 0xB7, 0x71, 0x95, 0xAF, 0xC7, 0xD7, 0xF0, 0xDC, 0x49, 0x52, 0xAD, 0x4B, 0x20,
      0x43, 0xD9, 0x92],
    [0x01, 0xC2, 0x08, 0x1A, 0x92, 0x14, 0xDF, 0xBB, 0x98, 0x55, 0x73, 0xEE, 0x85, 0x92, 0x6D, 0xAD,
      0x8A, 0x21, 0xAC, 0xB3],
    [0x01, 0x98, 0xB9, 0xF0, 0x05, 0x6F, 0x63, 0x06, 0xDC, 0x70, 0x96, 0x45, 0x24, 0xBB, 0x16, 0xE4,
      0xC6, 0x79, 0x79, 0xA5, 0xAE],
    [0x01, 0x2C, 0xF3, 0x0D, 0x83, 0x31, 0x84, 0xC2, 0x43, 0xD6, 0x1C, 0x59, 0x7C, 0x52, 0x9E, 0xF4,
      0x25, 0xEC, 0x8E, 0x52, 0xFF, 0x59],
    [0x01, 0x59, 0xB3, 0x83, 0xB0, 0xB6, 0xF4, 0x13, 0xBD, 0x45, 0x28, 0x1C, 0x89, 0x1D, 0x7B, 0x43,
      0xFD, 0x56, 0xDA, 0xE6, 0x1A, 0x91, 0xF5],
    [0x01, 0xB3, 0x44, 0x9A, 0xA3, 0x8C, 0x88, 0xBE, 0x98, 0x19, 0x55, 0x13, 0x03, 0xC4, 0x1B, 0x71,
      0xC6, 0x12, 0x82, 0x02, 0x78, 0x5D, 0x29, 0x47] ]

/-- GEN[24] to GEN[30]. -/
def genRows24 : List (List Byte) :=
  [ [0x01, 0x7A, 0x76, 0xA9, 0x46, 0xB2, 0xED, 0xD8, 0x66, 0x73, 0x96, 0xE5, 0x49, 0x82, 0x48, 0x3D,
      0x2B, 0xCE, 0x01, 0xED, 0xF7, 0x7F, 0xD9, 0x90, 0x75],
    [0x01, 0xF5, 0x31, 0xE4, 0x35, 0xD7, 0x06, 0xCD, 0xD2, 0x26, 0x52, 0x38, 0x50, 0x61, 0x8B, 0x51,
      0x86, 0x7E, 0xA8, 0x62, 0xE2, 0x7D, 0x17, 0xAB, 0xAD, 0xC1],
    [0x01, 0xF6, 0x33, 0xB7, 0x04, 0x88, 0x62, 0xC7, 0x98, 0x4D, 0x38, 0xCE, 0x18, 0x91, 0x28, 0xD1,
      0x75, 0xE9, 0x2A, 0x87, 0x44, 0x46, 0x90, 0x92, 0x4D, 0x2B, 0x5E],
    [0x01, 0xF0, 0x3D, 0x1D, 0x91, 0x90, 0x75, 0x96, 0x30, 0x3A, 0x8B, 0x5E, 0x86, 0xC1, 0x69, 0x21,
      0xA9, 0xCA, 0x66, 0x7B, 0x71, 0xC3, 0x19, 0xD5, 0x06, 0x98, 0xA4, 0xD9],
    [0x01, 0xFC, 0x09, 0x1C, 0x0D, 0x12, 0xFB, 0xD0, 0x96, 0x67, 0xAE, 0x64, 0x29, 0xA7, 0x0C, 0xF7,
      0x38, 0x75, 0x77, 0xE9, 0x7F, 0xB5, 0x64, 0x79, 0x93, 0xB0, 0x4A, 0x3A, 0xC5],
    [0x01, 0xE4, 0xC1, 0xC4, 0x30, 0xAA, 0x56, 0x50, 0xD9, 0x36, 0x8F, 0x4F, 0x20, 0x58, 0xFF, 0x57,
      0x18, 0x0F, 0xFB, 0x55, 0x52, 0xC9, 0x3A, 0x70, 0xBF, 0x99, 0x6C, 0x84, 0x8F, 0xAA],
    [0x01, 0xD4, 0xF6, 0x4D, 0x49, 0xC3, 0xC0, 0x4B, 0x62, 0x05, 0x46, 0x67, 0xB1, 0x16, 0xD9, 0x8A,
      0x33, 0xB5, 0xF6, 0x48, 0x19, 0x12, 0x2E, 0xE4, 0x4A, 0xD8, 0xC3, 0x0B, 0x6A, 0x82, 0x96] ]

/-- The GEN ROM (R45): GEN[n] has n + 1 coefficients, highest degree first. -/
def genRom (n : Nat) : List Byte := (genRows0 ++ genRows8 ++ genRows16 ++ genRows24).getD n []

end Sys2Proof.Machine
end

