-- ==== Sys2Proof/Machine/Gf256.lean ====
section
/-! DEFINITION. The GF(256) unit: the field functions (R111, R114) and GFMUL, GFDIV, GFEXP, GFLOG. -/

namespace Sys2Proof.Machine

/-- `gfmul(a, b)` through the ROMs (R111). -/
def gfmul (a b : Byte) : Byte :=
  if a = 0 ∨ b = 0 then 0 else expRom (((logRom a).toNat + (logRom b).toNat) % 255)

/-- `gfdiv(a, b)` (R114): 0/b is 0, and division by 0 is a free value no command computes (log 8). -/
def gfdiv (a b : Byte) : Byte :=
  if b = 0 then Config.gfdivByZero a
  else if a = 0 then 0
  else expRom (((logRom a).toNat + (logRom b).toNat * 254) % 255)

/-- RESULT takes a byte, zero-extended (R26). -/
def setByteResult (v : Byte) (s : State) : State := { s with result := zext32 v }

/-- GFMUL (R112): every a, b is legal. -/
def execGfmul (a b : Byte) (s : State) : Host.Outcome State Fault Refusal :=
  runChecked [] (setByteResult (gfmul a b)) s

/-- GFDIV (R115): DIV0 when b = 0, whatever a is. -/
def execGfdiv (a b : Byte) (s : State) : Host.Outcome State Fault Refusal :=
  runChecked [(decide (b ≠ 0), .div0)] (setByteResult (gfdiv a b)) s

/-- GFEXP (R117): every x is legal, 255 included. -/
def execGfexp (x : Byte) (s : State) : Host.Outcome State Fault Refusal :=
  runChecked [] (setByteResult (expRom x.toNat)) s

/-- GFLOG (R119): LOG0 when x = 0. -/
def execGflog (x : Byte) (s : State) : Host.Outcome State Fault Refusal :=
  runChecked [(decide (x ≠ 0), .log0)] (setByteResult (logRom x)) s

end Sys2Proof.Machine
end

