-- ==== Sys2Proof/Machine/Poly.lean ====
section
/-! DEFINITION. The polynomial unit: the remainder function (R131, R134), PDIV and RSENC. A polynomial is a
byte sequence, highest-degree coefficient first (R15). -/

namespace Sys2Proof.Machine

/-- `w[i+j] := w[i+j] XOR gfmul(f, d[j])` over the divisor's coefficients after the leading one (R131). -/
def xorScaled (f : Byte) : List Byte → List Byte → List Byte
  | [], ws => ws
  | _ :: _, [] => []
  | d :: ds, w :: ws => (w ^^^ gfmul f d) :: xorScaled f ds ws

/-- Synthetic division, one dividend position a step: the factor is the leading coefficient divided by the
divisor's, and the leading coefficient, now 0, is dropped (R131; log 12). -/
def divSteps (lead : Byte) (tail : List Byte) : Nat → List Byte → List Byte
  | 0, w => w
  | _ + 1, [] => []
  | k + 1, w :: ws => divSteps lead tail k (xorScaled (gfdiv w lead) tail ws)

/-- `polyrem(p, d)` (R131): as many bytes as d has coefficients after the leading one; p is extended with
leading zeros to that length if it is shorter. -/
def polyrem (p : List Byte) : List Byte → List Byte
  | [] => []
  | lead :: tail =>
    divSteps lead tail (p.length - tail.length) (List.replicate (tail.length - p.length) 0 ++ p)

/-- `rsenc(m, N)` (R134). -/
def rsenc (m : List Byte) (n : Nat) : List Byte := polyrem (m ++ List.replicate n 0) (genRom n)

/-- PDIV's checks after decoding, in order (R132). -/
def pdivChecks (n : Nat) (s : State) : List (Bool × ErrCode) :=
  [ (decide (n ≤ Config.maxEcc), .badarg),
    (inBuf (polyAddr s) (polyLen s) && inBuf (divisorAddr s) (n + 1) && inBuf (remainderAddr s) n, .range),
    (decide (bufByte s (divisorAddr s) ≠ 0), .div0) ]

/-- PDIV's effect: all reads, then the remainder (R132, R80). -/
def pdivEffect (n : Nat) (s : State) : State :=
  memWrite (remainderAddr s)
    (polyrem (memRead s (polyAddr s) (polyLen s)) (memRead s (divisorAddr s) (n + 1))) s

/-- PDIV (R132). -/
def execPdiv (n : Nat) (s : State) : Host.Outcome State Fault Refusal :=
  runChecked (pdivChecks n s) (pdivEffect n) s

/-- RSENC's checks after decoding, in order (R135). -/
def rsencChecks (n : Nat) (s : State) : List (Bool × ErrCode) :=
  [ (decide (n ≤ Config.maxEcc), .badarg),
    (inBuf (polyAddr s) (polyLen s) && inBuf (remainderAddr s) n, .range) ]

/-- RSENC's effect (R135). -/
def rsencEffect (n : Nat) (s : State) : State :=
  memWrite (remainderAddr s) (rsenc (memRead s (polyAddr s) (polyLen s)) n) s

/-- RSENC (R135). -/
def execRsenc (n : Nat) (s : State) : Host.Outcome State Fault Refusal :=
  runChecked (rsencChecks n s) (rsencEffect n) s

end Sys2Proof.Machine
end

