-- ==== Sys2Proof/Machine/EccBlock.lean ====
section
/-! DEFINITION. The ECC block coder: the block geometry (R171), the work slots (R172) and ECCBLK (R173). -/

namespace Sys2Proof.Machine

/-- S, the codewords of a short block (R171). -/
def shortLen (k t : Nat) : Nat := t / k

/-- SB, the number of short blocks (R171). -/
def shortCount (k t : Nat) : Nat := k - t % k

/-- Dn, the data codewords in all (R171). -/
def dataTotal (k e t : Nat) : Nat := t - k * e

/-- K(b), the data codewords of block b (R171). -/
def blockData (k e t b : Nat) : Nat :=
  if b < shortCount k t then shortLen k t - e else shortLen k t - e + 1

/-- start(b), the offset of block b's first data codeword in the input (R171). -/
def blockStart (k e t b : Nat) : Nat := b * (shortLen k t - e) + (b - shortCount k t)

/-- The data codewords of block b. -/
def blockBytes (k e t : Nat) (src : List Byte) (b : Nat) : List Byte :=
  (src.drop (blockStart k e t b)).take (blockData k e t b)

/-- A work slot: whether its block is short, and its S + 1 bytes (R172). -/
structure Slot where
  short : Bool
  bytes : List Byte
  deriving DecidableEq, Repr

/-- Block b's slot: its data, the padding byte of a short block, its ECC codewords (R172, R173). -/
def blockSlot (k e t : Nat) (src : List Byte) (b : Nat) : Slot :=
  let data := blockBytes k e t src b
  if b < shortCount k t then ⟨true, data ++ 0 :: rsenc data e⟩ else ⟨false, data ++ rsenc data e⟩

/-- The slots of all blocks, in block order. -/
def eccSlots (k e t : Nat) (src : List Byte) : List Slot := (List.range k).map (blockSlot k e t src)

/-- What position i of the slots emits, in block order: short blocks are skipped at the padding index
(R173). -/
def emitAt (padIndex i : Nat) : List Slot → List Byte
  | [] => []
  | sl :: sls =>
    if sl.short = true ∧ i = padIndex then emitAt padIndex i sls
    else sl.bytes.getD i 0 :: emitAt padIndex i sls

/-- The interleaved output: positions 0 to S inclusive (R173, R174). -/
def interleave (s e : Nat) (slots : List Slot) : List Byte :=
  (List.range (s + 1)).flatMap (fun i => emitAt (s - e) i slots)

/-- The work area: the slots one after the other (R172). -/
def workBytes (slots : List Slot) : List Byte := slots.flatMap Slot.bytes

/-- ECCBLK's checks after decoding, in order (R173). -/
def eccblkChecks (k e : Nat) (s : State) : List (Bool × ErrCode) :=
  [ (decide (1 ≤ k), .badarg),
    (decide (e ≤ Config.maxEcc), .badarg),
    (decide (e < shortLen k (eccTotal s)), .badarg),
    (inBuf (eccSource s) (dataTotal k e (eccTotal s)) &&
      inBuf (eccWork s) (k * (shortLen k (eccTotal s) + 1)) && inBuf (eccOut s) (eccTotal s), .range) ]

/-- ECCBLK's effect: all input read, then the work area, then the output, which wins where they overlap
(R173, R80). -/
def eccblkEffect (k e : Nat) (s : State) : State :=
  let t := eccTotal s
  let slots := eccSlots k e t (memRead s (eccSource s) (dataTotal k e t))
  memWrite (eccOut s) (interleave (shortLen k t) e slots) (memWrite (eccWork s) (workBytes slots) s)

/-- ECCBLK (R173). -/
def execEccblk (k e : Nat) (s : State) : Host.Outcome State Fault Refusal :=
  runChecked (eccblkChecks k e s) (eccblkEffect k e) s

end Sys2Proof.Machine
end

