-- ==== Sys2Proof/Machine/Penalty.lean ====
section
/-! DEFINITION. The masking penalty scorer: the scored matrix (R191), its lines (R192), the four evaluators
(R193 to R196) and PSCORE (R198). A module is true when dark. -/

namespace Sys2Proof.Machine

/-- The scored matrix as n rows of n modules: module (r, c) is module bit r·n + c (R191, R32). -/
def scoredMatrix (n : Nat) (s : State) : List (List Bool) :=
  (List.range n).map (fun r => (List.range n).map (fun c => matBit s (r * n + c)))

/-- `m(r, c)` of a matrix given by its rows. -/
def moduleAt (m : List (List Bool)) (r c : Nat) : Bool := (m.getD r []).getD c false

/-- The columns of a matrix of side n, each read top to bottom (R192). -/
def matrixColumns (n : Nat) (m : List (List Bool)) : List (List Bool) :=
  (List.range n).map (fun c => (List.range n).map (fun r => moduleAt m r c))

/-- The 2n lines: the rows, then the columns (R192). -/
def matrixLines (n : Nat) (m : List (List Bool)) : List (List Bool) := m ++ matrixColumns n m

/-- The points of one run (R193). -/
def runPoints (len : Nat) : Nat := if 5 ≤ len then len - 2 else 0

/-- The points of the maximal runs of a line of which `len` modules of colour `cur` have been read in the
current run. -/
def runsFrom (cur : Bool) (len : Nat) : List Bool → Nat
  | [] => runPoints len
  | x :: xs => if x = cur then runsFrom cur (len + 1) xs else runPoints len + runsFrom x 1 xs

/-- Rule 1 on a line (R193). -/
def lineRuns : List Bool → Nat
  | [] => 0
  | x :: xs => runsFrom x 1 xs

/-- dark:light:dark:dark:dark:light:dark (R195). -/
def finderPattern : List Bool := [true, false, true, true, true, false, true]

/-- Four light modules (R195). -/
def fourLight : List Bool := [false, false, false, false]

/-- Rule 3 at start position i of a line: each side of an occurrence scores on its own, and only modules
inside the matrix count (R195). -/
def finderAt (l : List Bool) (i : Nat) : Nat :=
  if (l.drop i).take 7 = finderPattern then
    (if 4 ≤ i ∧ (l.drop (i - 4)).take 4 = fourLight then 40 else 0) +
      (if i + 11 ≤ l.length ∧ (l.drop (i + 7)).take 4 = fourLight then 40 else 0)
  else 0

/-- Rule 3 on a line (R195). -/
def lineFinders (l : List Bool) : Nat := ((List.range (l.length - 6)).map (finderAt l)).sum

/-- Whether the 2×2 block whose upper left module is (r, c) is of one colour (R194). -/
def uniformBlock (m : List (List Bool)) (r c : Nat) : Bool :=
  moduleAt m r c == moduleAt m r (c + 1) && moduleAt m r c == moduleAt m (r + 1) c &&
    moduleAt m r c == moduleAt m (r + 1) (c + 1)

/-- P1 (R193). -/
def penalty1 (n : Nat) (m : List (List Bool)) : Nat := ((matrixLines n m).map lineRuns).sum

/-- P2 (R194). -/
def penalty2 (n : Nat) (m : List (List Bool)) : Nat :=
  3 * ((List.range (n - 1)).map (fun r => (List.range (n - 1)).countP (uniformBlock m r))).sum

/-- P3 (R195). -/
def penalty3 (n : Nat) (m : List (List Bool)) : Nat := ((matrixLines n m).map lineFinders).sum

/-- The dark count D (R196). -/
def darkCount (m : List (List Bool)) : Nat := (m.map (List.count true)).sum

/-- P4 from the dark count: `10·(|20·D − 10·T| div T)` with T = n² (R196). -/
def ratioPoints (n dark : Nat) : Nat := 10 * (((20 * dark : Int) - 10 * (n * n : Nat)).natAbs / (n * n))

/-- P4 (R196). -/
def penalty4 (n : Nat) (m : List (List Bool)) : Nat := ratioPoints n (darkCount m)

/-- PSCORE's checks after decoding (R198, R191). -/
def pscoreChecks (s : State) : List (Bool × ErrCode) :=
  [ (decide (Config.nMin ≤ matrixSide s) && decide (matrixSide s ≤ Config.nMax) &&
      decide (matrixSide s % 4 = 1), .badarg) ]

/-- PSCORE's effect: a disabled rule's register is written 0, and RESULT is the sum (R198). -/
def pscoreEffect (m : Nat) (s : State) : State :=
  let n := matrixSide s
  let mtx := scoredMatrix n s
  let p1 := if m.testBit 0 then penalty1 n mtx else 0
  let p2 := if m.testBit 1 then penalty2 n mtx else 0
  let p3 := if m.testBit 2 then penalty3 n mtx else 0
  let p4 := if m.testBit 3 then penalty4 n mtx else 0
  { s with
    pen1 := BitVec.ofNat 32 p1
    pen2 := BitVec.ofNat 32 p2
    pen3 := BitVec.ofNat 32 p3
    pen4 := BitVec.ofNat 32 p4
    result := BitVec.ofNat 32 (p1 + p2 + p3 + p4) }

/-- PSCORE (R198). -/
def execPscore (m : Nat) (s : State) : Host.Outcome State Fault Refusal :=
  runChecked (pscoreChecks s) (pscoreEffect m) s

end Sys2Proof.Machine
end

