-- ==== Sys2Proof/Machine/Dispatch.lean ====
section
/-! DEFINITION. Which meaning each command has. -/

namespace Sys2Proof.Machine

def exec (i : Instr) (s : State) : Host.Outcome State Fault Refusal :=
  match i with
  | .nop => Sys2Proof.Machine.execNop s
  | .gfmul a b => Sys2Proof.Machine.execGfmul a b s
  | .gfdiv a b => Sys2Proof.Machine.execGfdiv a b s
  | .gfexp x => Sys2Proof.Machine.execGfexp x s
  | .gflog x => Sys2Proof.Machine.execGflog x s
  | .pdiv n => Sys2Proof.Machine.execPdiv n s
  | .rsenc n => Sys2Proof.Machine.execRsenc n s
  | .eccblk k e => Sys2Proof.Machine.execEccblk k e s
  | .bsreset => Sys2Proof.Machine.execBsreset s
  | .bsappend w6 => Sys2Proof.Machine.execBsappend w6 s
  | .bspad => Sys2Proof.Machine.execBspad s
  | .bsget w6 => Sys2Proof.Machine.execBsget w6 s
  | .pscore m => Sys2Proof.Machine.execPscore m s
  | .swrst => Sys2Proof.Machine.execSwrst s

end Sys2Proof.Machine
end

