-- ==== Sys2Proof/WellFormed.lean ====
section
/-! DEFINITION. Which commands the assembler accepts: every field fits its bit width (R97, R91). A field
that fits but is out of the command's range is well formed; the block then raises BADARG (R96). -/

namespace Sys2Proof

/-- Every field fits the bits its format gives it (R91, R97). A byte field fits by its type. -/
def Instr.wf : Instr → Bool
  | .nop => true
  | .gfmul _ _ => true
  | .gfdiv _ _ => true
  | .gfexp _ => true
  | .gflog _ => true
  | .pdiv n => decide (n < 32)
  | .rsenc n => decide (n < 32)
  | .eccblk k e => decide (k < 256) && decide (e < 256)
  | .bsreset => true
  | .bsappend w6 => decide (w6 < 64)
  | .bspad => true
  | .bsget w6 => decide (w6 < 64)
  | .pscore m => decide (m < 16)
  | .swrst => true

end Sys2Proof
end

