-- ==== Sys2Proof/Decode.lean ====
section
/-! DEFINITION. The opcode map (R93), the decoder of command words (R94), the encoder (R97), and the
assembler's reading of one command line (R97, R98). -/

namespace Sys2Proof

/-- `v[hi:lo]`, the unsigned value of bits hi down to lo of a word (R11). -/
def slice (w : Word) (hi lo : Nat) : Nat := w.toNat / 2 ^ lo % 2 ^ (hi + 1 - lo)

/-- `v[8j+7:8j]`, byte j of a word. -/
def byteOf (w : Word) (j : Nat) : Byte := BitVec.ofNat 8 (slice w (8 * j + 7) (8 * j))

/-- One row of the opcode map: a word w selects it when `w AND mask = pattern` (R93). -/
structure OpcodeRow where
  mnemonic : Mnemonic
  pattern : Word
  mask : Word
  deriving DecidableEq, Repr

/-- The opcode map (R93). -/
def opcodeMap : List OpcodeRow :=
  [ ⟨.nop,      0x00000000#32, 0xFFFFFFFF#32⟩,
    ⟨.gfmul,    0x01000000#32, 0xFFFF0000#32⟩,
    ⟨.gfdiv,    0x02000000#32, 0xFFFF0000#32⟩,
    ⟨.gfexp,    0x03000000#32, 0xFFFFFF00#32⟩,
    ⟨.gflog,    0x04000000#32, 0xFFFFFF00#32⟩,
    ⟨.pdiv,     0x10000000#32, 0xFFFFFFE0#32⟩,
    ⟨.rsenc,    0x11000000#32, 0xFFFFFFE0#32⟩,
    ⟨.eccblk,   0x12000000#32, 0xFFFF0000#32⟩,
    ⟨.bsreset,  0x20000000#32, 0xFFFFFFFF#32⟩,
    ⟨.bsappend, 0x21000000#32, 0xFFFFFFC0#32⟩,
    ⟨.bspad,    0x22000000#32, 0xFFFFFFFF#32⟩,
    ⟨.bsget,    0x23000000#32, 0xFFFFFFC0#32⟩,
    ⟨.pscore,   0x30000000#32, 0xFFFFFFF0#32⟩,
    ⟨.swrst,    0xF0000000#32, 0xFFFFFFFF#32⟩ ]

/-- Whether a word selects a row (R93). -/
def rowMatches (w : Word) (r : OpcodeRow) : Bool := (w &&& r.mask) == r.pattern

/-- The row a word selects, if any (R94). -/
def findRow (w : Word) : Option OpcodeRow := opcodeMap.find? (rowMatches w)

/-- OPC, bits 31:24 of a word (R90). -/
def opc (w : Word) : Nat := slice w 31 24

/-- Whether a word's OPC is that of some row (R94). -/
def opcAssigned (w : Word) : Bool := opcodeMap.any (fun r => opc r.pattern == opc w)

/-- The command a word of the given row stands for, with its fields (R91, R92). -/
def withFields (m : Mnemonic) (w : Word) : Instr :=
  match m with
  | .nop => .nop
  | .gfmul => .gfmul (byteOf w 1) (byteOf w 0)
  | .gfdiv => .gfdiv (byteOf w 1) (byteOf w 0)
  | .gfexp => .gfexp (byteOf w 0)
  | .gflog => .gflog (byteOf w 0)
  | .pdiv => .pdiv (slice w 4 0)
  | .rsenc => .rsenc (slice w 4 0)
  | .eccblk => .eccblk (slice w 15 8) (slice w 7 0)
  | .bsreset => .bsreset
  | .bsappend => .bsappend (slice w 5 0)
  | .bspad => .bspad
  | .bsget => .bsget (slice w 5 0)
  | .pscore => .pscore (slice w 3 0)
  | .swrst => .swrst

/-- Why a word is no command; both raise ILLCMD (R94, R96). -/
inductive DecodeError where
  /-- OPC is that of a row, and a reserved bit is not zero. -/
  | reservedBitSet
  /-- OPC is that of no row. -/
  | unassignedOpcode
  deriving DecidableEq, Repr

/-- The decoder, total on words (R94). -/
def decode (w : Word) : Except DecodeError Instr :=
  match findRow w with
  | some r => .ok (withFields r.mnemonic w)
  | none => if opcAssigned w then .error .reservedBitSet else .error .unassignedOpcode

/-- The encoder: `OPC << 24 | fields` (R93, R97). -/
def encode : Instr → Word
  | .nop => 0x00000000#32
  | .gfmul a b => 0x01000000#32 ||| zext32 a <<< 8 ||| zext32 b
  | .gfdiv a b => 0x02000000#32 ||| zext32 a <<< 8 ||| zext32 b
  | .gfexp x => 0x03000000#32 ||| zext32 x
  | .gflog x => 0x04000000#32 ||| zext32 x
  | .pdiv n => 0x10000000#32 ||| BitVec.ofNat 32 n
  | .rsenc n => 0x11000000#32 ||| BitVec.ofNat 32 n
  | .eccblk k e => 0x12000000#32 ||| BitVec.ofNat 32 k <<< 8 ||| BitVec.ofNat 32 e
  | .bsreset => 0x20000000#32
  | .bsappend w6 => 0x21000000#32 ||| BitVec.ofNat 32 w6
  | .bspad => 0x22000000#32
  | .bsget w6 => 0x23000000#32 ||| BitVec.ofNat 32 w6
  | .pscore m => 0x30000000#32 ||| BitVec.ofNat 32 m
  | .swrst => 0xF0000000#32

/-- The command a pseudo-command expands to (R98). -/
def Pseudo.expand : Pseudo → Instr
  | .gfinv b => .gfdiv 1#8 b
  | .gfsqr a => .gfmul a a
  | .pscoreAll => .pscore 15
  | .bsbyte => .bsappend 8

/-- A field element of the assembler's text: refused where it does not fit 8 bits (R97). -/
def asmByte (v : Nat) : Option Byte := if v < 256 then some (BitVec.ofNat 8 v) else none

/-- The command a line stands for, its name and its fields already split at the commas (R97, R98; log 11). -/
def asmInstr : AsmName → List Nat → Option Instr
  | .cmd .nop, [] => some .nop
  | .cmd .gfmul, [a, b] => do return .gfmul (← asmByte a) (← asmByte b)
  | .cmd .gfdiv, [a, b] => do return .gfdiv (← asmByte a) (← asmByte b)
  | .cmd .gfexp, [x] => do return .gfexp (← asmByte x)
  | .cmd .gflog, [x] => do return .gflog (← asmByte x)
  | .cmd .pdiv, [n] => some (.pdiv n)
  | .cmd .rsenc, [n] => some (.rsenc n)
  | .cmd .eccblk, [k, e] => some (.eccblk k e)
  | .cmd .bsreset, [] => some .bsreset
  | .cmd .bsappend, [w6] => some (.bsappend w6)
  | .cmd .bspad, [] => some .bspad
  | .cmd .bsget, [w6] => some (.bsget w6)
  | .cmd .pscore, [m] => some (.pscore m)
  | .cmd .pscore, [] => some Pseudo.pscoreAll.expand
  | .cmd .swrst, [] => some .swrst
  | .gfinv, [b] => do return (Pseudo.gfinv (← asmByte b)).expand
  | .gfsqr, [a] => do return (Pseudo.gfsqr (← asmByte a)).expand
  | .bsbyte, [] => some Pseudo.bsbyte.expand
  | _, _ => none

/-- The word of a command line; a field that does not fit its bit width is refused (R97). -/
def assemble (name : AsmName) (fields : List Nat) : Option Word :=
  match asmInstr name fields with
  | some i => if i.wf then some (encode i) else none
  | none => none

/-- The instruction the decoder reads from an instruction whose bits are w, numbered as the opcode table
numbers them; a command word has 32 bits, and the bits above `nbits` are 0. -/
def decodeTableWord (nbits w : Nat) : Option Instr :=
  if nbits ≤ 32 then (decode (BitVec.ofNat 32 (w % 2 ^ nbits))).toOption else none

end Sys2Proof
end

