-- ==== Sys2Proof/Machine/HostReset.lean ====
section
/-! DEFINITION. The hardware reset, between transactions (R250) and during a CMD write (R251). -/

namespace Sys2Proof.Machine

/-- A hardware reset between transactions: the registers take their reset values, and every RAM byte holds
an unspecified value, fixed until written (R250; log 3, log 5). -/
def hardwareReset (s : State) : State :=
  { resetRegisters s with buf := [], mat := [], era := s.era + 1, resp := .idle }

/-- The BUF bytes that hold the stream bits an append of w bits writes: address and length (R152, R155). -/
def streamRegion (w : Nat) (s : State) : List (Nat × Nat) :=
  if w = 0 then [] else [(streamBase s + streamLen s / 8, ceil8 (streamLen s % 8 + w))]

/-- The regions a command's rule writes when its checks hold. -/
def regionsIf (checks : List (Bool × ErrCode)) (regions : List (Nat × Nat)) : List (Nat × Nat) :=
  if firstFailed checks = none then regions else []

/-- A command's output regions in BUF, address and length: those its rule writes, none when it fails (R251;
log 6). -/
def outputRegions (i : Instr) (s : State) : List (Nat × Nat) :=
  match i with
  | .nop => []
  | .gfmul _ _ => []
  | .gfdiv _ _ => []
  | .gfexp _ => []
  | .gflog _ => []
  | .pdiv n => regionsIf (pdivChecks n s) [(remainderAddr s, n)]
  | .rsenc n => regionsIf (rsencChecks n s) [(remainderAddr s, n)]
  | .eccblk k e =>
    regionsIf (eccblkChecks k e s)
      [(eccWork s, k * (shortLen k (eccTotal s) + 1)), (eccOut s, eccTotal s)]
  | .bsreset => []
  | .bsappend w6 => regionsIf (bsappendChecks w6 s) (streamRegion w6 s)
  | .bspad => regionsIf (bspadChecks s) (streamRegion (streamCap s - streamLen s) s)
  | .bsget _ => []
  | .pscore _ => []
  | .swrst => []

/-- The output regions of a command word; an undecodable word has none. -/
def wordRegions (w : Word) (s : State) : List (Nat × Nat) :=
  match decode w with
  | .ok i => outputRegions i s
  | .error _ => []

/-- Fills regions with the free values of abandoned command number k (U2). -/
def scramble (k : Nat) : List (Nat × Nat) → Memory → Memory
  | [], m => m
  | (addr, len) :: rest, m =>
    scramble k rest
      (Memory.storeBytes m addr ((List.range len).map (fun j => Config.bufAfterAbort k (addr + j))))

/-- A hardware reset during a CMD write: the command is abandoned, the registers take their reset values, its
output bytes hold unspecified values, and every other RAM byte keeps its value (R251; log 6). -/
def abandonCommand (w : Word) (s : State) : State :=
  { resetRegisters s with
    buf := scramble s.aborts (wordRegions w s) s.buf
    aborts := s.aborts + 1
    resp := .idle }

end Sys2Proof.Machine
end

