-- ==== Sys2Proof/Machine/Flags.lean ====
section
/-! DEFINITION. The STATUS and CTRL words and the interrupt line: the block's only flags. -/

namespace Sys2Proof.Machine

/-- The code of an error name (R220). -/
def ErrCode.code : ErrCode → Nat
  | .ok => 0
  | .illcmd => 1
  | .badarg => 2
  | .width => 3
  | .range => 4
  | .div0 => 5
  | .log0 => 6
  | .ovf => 7
  | .underrun => 8

/-- STATUS as the host reads it: ERRCODE in [3:0], STICKY in [4], the rest 0 (R22). -/
def statusWord (s : State) : Word := BitVec.ofNat 32 (s.errcode.code + 16 * s.sticky.toNat)

/-- CTRL as the host reads it: IE in [0], the rest 0 (R23). -/
def ctrlWord (s : State) : Word := BitVec.ofNat 32 s.ie.toNat

/-- The output `irq = STICKY AND IE` (R30). -/
def irq (s : State) : Bool := s.sticky && s.ie

/-- What the block drives on platform interrupt input `line` (R226; log 7). -/
def platformIrq (line : Nat) (s : State) : Bool := decide (line = Config.qrgfIrq) && irq s

/-- A host write of w to STATUS: bit 4 clears STICKY, nothing else changes (R22). -/
def writeStatus (w : Word) (s : State) : State := if w.getLsbD 4 then clearSticky s else s

/-- A host write of w to CTRL: bit 0 is IE, the rest is ignored (R23). -/
def writeCtrl (w : Word) (s : State) : State := { s with ie := w.getLsbD 0 }

end Sys2Proof.Machine
end

