-- ==== Sys2Proof/Machine/Registers.lean ====
section
/-! DEFINITION. The register map (R20), the window (R60 to R68) and the host's accesses to registers and
RAMs (R65 to R70). -/

namespace Sys2Proof.Machine

/-- The nineteen registers (R20). -/
inductive Reg where
  | id | status | ctrl | cmd | a | b | c | d | result | cmdcnt
  | bsbase | bscap | bslen | bsrd | msize | pen1 | pen2 | pen3 | pen4
  deriving DecidableEq, Repr

/-- The registers in the order of their offsets, one per 4-byte word from offset 0 on (R20). -/
def regMap : List Reg :=
  [ .id, .status, .ctrl, .cmd, .a, .b, .c, .d, .result, .cmdcnt,
    .bsbase, .bscap, .bslen, .bsrd, .msize, .pen1, .pen2, .pen3, .pen4 ]

/-- The bytes an access moves. -/
def Width.bytes : Width → Nat
  | .w8 => 1
  | .w16 => 2
  | .w32 => 4

/-- What an accepted access reaches. -/
inductive Target where
  | reg (r : Reg)
  | buf (i : Nat)
  | mat (j : Nat)
  deriving DecidableEq, Repr

/-- What an access reaches, or none: a bus error. Registers take aligned 32-bit accesses only, the RAM
windows any aligned access, and a reserved offset none (R60 to R63, R67, R68). -/
def target (w : Width) (off : Nat) : Option Target :=
  if off < 0x4C then
    if w = .w32 ∧ off % 4 = 0 then (regMap[off / 4]?).map .reg else none
  else if 0x4000 ≤ off ∧ off < 0x8000 then
    if off % w.bytes = 0 then some (.buf (off - 0x4000)) else none
  else if 0x8000 ≤ off ∧ off < 0x9000 then
    if off % w.bytes = 0 then some (.mat (off - 0x8000)) else none
  else none

/-- A host read of a register: ID is hard-wired, CMD reads as 0 (R20 to R29). -/
def hostReadReg (r : Reg) (s : State) : Word :=
  match r with
  | .id => Config.idValue
  | .status => statusWord s
  | .ctrl => ctrlWord s
  | .cmd => 0
  | .a => s.a
  | .b => s.b
  | .c => s.c
  | .d => s.d
  | .result => s.result
  | .cmdcnt => s.cmdcnt
  | .bsbase => s.bsbase
  | .bscap => s.bscap
  | .bslen => s.bslen
  | .bsrd => s.bsrd
  | .msize => s.msize
  | .pen1 => s.pen1
  | .pen2 => s.pen2
  | .pen3 => s.pen3
  | .pen4 => s.pen4

/-- A host write of a register other than CMD: RO registers ignore it (R70, R22, R23). CMD has no storage; its
write runs a command, which Machine/Serve.lean does. -/
def hostWriteReg (r : Reg) (v : Word) (s : State) : State :=
  match r with
  | .id => s
  | .status => writeStatus v s
  | .ctrl => writeCtrl v s
  | .cmd => s
  | .a => { s with a := v }
  | .b => { s with b := v }
  | .c => { s with c := v }
  | .d => { s with d := v }
  | .result => s
  | .cmdcnt => s
  | .bsbase => { s with bsbase := v }
  | .bscap => { s with bscap := v }
  | .bslen => s
  | .bsrd => { s with bsrd := v }
  | .msize => { s with msize := v }
  | .pen1 => s
  | .pen2 => s
  | .pen3 => s
  | .pen4 => s

/-- A byte sequence as a little-endian number (R65). -/
def leValue : List Byte → Nat
  | [] => 0
  | x :: xs => x.toNat + 256 * leValue xs

/-- The bytes of a value, least significant first (R65). -/
def leBytes (v : Word) (n : Nat) : List Byte := (List.range n).map (byteOf v)

/-- What a host read returns (R65, R69). -/
def readTarget (w : Width) (s : State) : Target → Word
  | .reg r => hostReadReg r s
  | .buf i => BitVec.ofNat 32 (leValue (memRead s i w.bytes))
  | .mat j => BitVec.ofNat 32 (leValue ((List.range w.bytes).map (fun k => matByte s (j + k))))

/-- The system address of a window offset (R7, R60). -/
def sysAddr (off : Offset) : Nat := Config.qrgfBase + off.toNat

/-- The window offset of a system address, if the block answers it (R7, R60; log 7). -/
def windowOffset (addr : Nat) : Option Offset :=
  if Config.qrgfBase ≤ addr ∧ addr < Config.qrgfBase + Config.windowSize then
    some (BitVec.ofNat 16 (addr - Config.qrgfBase))
  else none

/-- The offset of a register (R20). -/
def regOffset (r : Reg) : Offset := BitVec.ofNat 16 (4 * regMap.idxOf r)

/-! The host notation (R99), as lists of host events. -/

/-- `WR NAME, v`. -/
def hostWR (r : Reg) (v : Word) : List HostEvent := [.write .w32 (regOffset r) v]
/-- `RD NAME`. -/
def hostRD (r : Reg) : List HostEvent := [.read .w32 (regOffset r)]
/-- 8-bit writes of a byte sequence from a window offset on. -/
def hostBytes (off : Nat) : List Byte → List HostEvent
  | [] => []
  | x :: xs => .write .w8 (BitVec.ofNat 16 off) (zext32 x) :: hostBytes (off + 1) xs
/-- `WRB addr: b0 b1 …`. -/
def hostWRB (addr : Nat) (bytes : List Byte) : List HostEvent := hostBytes (0x4000 + addr) bytes
/-- `WRM j: b0 b1 …`. -/
def hostWRM (j : Nat) (bytes : List Byte) : List HostEvent := hostBytes (0x8000 + j) bytes
/-- `CMD <syntax>`. -/
def hostCMD (i : Instr) : List HostEvent := hostWR .cmd (encode i)

end Sys2Proof.Machine
end

