-- ==== Sys2Proof/Machine/Serve.lean ====
section
/-! DEFINITION. How the block serves one event of the host port. -/

namespace Sys2Proof.Machine

/-- The 32-bit word w written to CMD: the command it encodes runs whole; a word that encodes none raises
ILLCMD (R24, R71, R94). -/
def runCommand (w : Word) (s : State) : Host.Outcome State Fault Refusal :=
  match decode w with
  | .ok i => exec i s
  | .error _ => .next (raiseError .illcmd s)

/-- A host read: no side effect beyond its response (R69); BUSERR returns no data (R66). -/
def serveRead (w : Width) (off : Offset) (s : State) : State :=
  match target w off.toNat with
  | some tgt => { s with resp := .data (readTarget w s tgt) }
  | none => { s with resp := .buserr }

/-- A host write (R65, R70); a write to CMD runs a command (R24); BUSERR changes no state (R66). -/
def serveWrite (w : Width) (off : Offset) (v : Word) (s : State) : Host.Outcome State Fault Refusal :=
  match target w off.toNat with
  | some (.reg .cmd) => runCommand v { s with resp := .ack }
  | some (.reg r) => .next (hostWriteReg r v { s with resp := .ack })
  | some (.buf i) => .next (memWrite i (leBytes v w.bytes) { s with resp := .ack })
  | some (.mat j) => .next (matWrite j (leBytes v w.bytes) { s with resp := .ack })
  | none => .next { s with resp := .buserr }

/-- Serves one event. -/
def serve (ev : HostEvent) (s : State) : Host.Outcome State Fault Refusal :=
  match ev with
  | .read w off => .next (serveRead w off s)
  | .write w off v => serveWrite w off v s
  | .reset => .next (hardwareReset s)
  | .abortedCmd w => .next (abandonCommand w s)

/-- Serves the oldest pending event; with none pending the block is idle and keeps all state (R72, R236;
log 1). -/
def serveNext (s : State) : Host.Outcome State Fault Refusal :=
  match s.port with
  | [] => .next s
  | ev :: rest => serve ev { s with port := rest }

/-- A CMD write of w put at the head of the port, so that the next step serves it. -/
def pushCommand (w : Word) (s : State) : State :=
  { s with port := .write .w32 (regOffset .cmd) w :: s.port }

end Sys2Proof.Machine
end

