-- ==== Sys2Proof/Machine/Step.lean ====
section
/-! DEFINITION. The step: one event of the host port (R9, R72). -/

namespace Sys2Proof.Machine

/-- One step: the block serves the oldest host event that has reached it. -/
def step (s : State) : Host.Outcome State Fault Refusal := Sys2Proof.Machine.serveNext s

/-- s with a CMD write of the word next at the port: there is no program counter, and a command comes to run
by the host's write to CMD (R24, R33; log 1). The bits of w above nbits are zero. -/
def State.withFetchWord (s : State) (nbits w : Nat) : State :=
  Sys2Proof.Machine.pushCommand (BitVec.ofNat 32 (w % 2 ^ nbits)) s

end Sys2Proof.Machine
end

