-- ==== Sys2Proof/Safety.lean ====
section
/-! DEFINITION. What counts as a safe state and a safe run, and the mathematics the claims speak of: the two
ends of a command, the field and its polynomials over GF(2), polynomials over GF(256), the runs of a line. -/

namespace Sys2Proof.Spec

open Sys2Proof.Machine

/-! ### The two ends of a command -/

/-- The whole effect of a failing command (R221). -/
def failed (e : ErrCode) (s : State) : State :=
  { s with errcode := e, sticky := true, cmdcnt := s.cmdcnt + 1 }

/-- The common end of a successful command whose own writes gave s (R222). -/
def done (s : State) : State := { s with errcode := .ok, cmdcnt := s.cmdcnt + 1 }

/-- The state in which an accepted access is served: its event taken, the bus response given. -/
def accepted (rest : List HostEvent) (s : State) : State := { s with port := rest, resp := .ack }

/-! ### Safe states and runs -/

/-- What every state of a run satisfies: both RAMs in canonical form, the stream inside BUF (R155, R157), and
the penalty registers within the bounds of R197. -/
structure Inv (s : State) : Prop where
  buf : Memory.wf Config.bufSize s.buf
  mat : Memory.wf Config.matBytes s.mat
  bslen : s.bslen.toNat ≤ 8 * Config.bufSize
  pen1 : s.pen1.toNat ≤ 61950
  pen2 : s.pen2.toNat ≤ 92928
  pen3 : s.pen3.toNat < 4900000
  pen4 : s.pen4.toNat ≤ 100

/-- An outcome that neither faults nor refuses. -/
def Safe (o : Host.Outcome State Fault Refusal) : Prop := ∃ t, o = .next t

/-! ### The field, as polynomials over GF(2) -/

/-- Multiplication by x modulo 0x11D: the construction of the EXP ROM (R42). -/
def xtime (b : Byte) : Byte := (b <<< 1) ^^^ (if b.getLsbD 7 then 0x1D#8 else 0#8)

/-- α^i with α = 0x02 (R41). -/
def alphaPow : Nat → Byte
  | 0 => 1
  | i + 1 => xtime (alphaPow i)

/-- The product of two polynomials over GF(2) of degree below 8, without reduction: the sum of a·x^i over
the bits i < n of b. -/
def carrylessMul (a b : Byte) : Nat → BitVec 16
  | 0 => 0
  | n + 1 => carrylessMul a b n ^^^ (if b.getLsbD n then a.setWidth 16 <<< n else 0)

/-- Reduction modulo x^8 + x^4 + x^3 + x^2 + 1 of the n highest terms, from x^(7+n) down (R40). -/
def reduceTerms : Nat → BitVec 16 → BitVec 16
  | 0, p => p
  | n + 1, p => reduceTerms n (if p.getLsbD (8 + n) then p ^^^ (0x11D#16 <<< n) else p)

/-- The product of a and b as polynomials over GF(2), reduced modulo 0x11D (R111). -/
def polyProduct (a b : Byte) : Byte := (reduceTerms 7 (carrylessMul a b 8)).setWidth 8

/-! ### Polynomials over GF(256), highest-degree coefficient first (R15) -/

/-- A sequence with leading zeros, of length at least n. -/
def padTo (n : Nat) (p : List Byte) : List Byte := List.replicate (n - p.length) 0 ++ p

/-- The sum of two polynomials. -/
def polyAdd (p q : List Byte) : List Byte :=
  List.zipWith (· ^^^ ·) (padTo q.length p) (padTo p.length q)

/-- A polynomial with every coefficient multiplied by c. -/
def polyScale (c : Byte) (p : List Byte) : List Byte := p.map (gfmul c)

/-- The product of two polynomials. -/
def polyMul : List Byte → List Byte → List Byte
  | [], _ => []
  | c :: q, d => polyAdd (polyScale c d ++ List.replicate q.length 0) (polyMul q d)

/-- The value of a polynomial at x. -/
def polyEval (x : Byte) (p : List Byte) : Byte := p.foldl (fun acc c => gfmul acc x ^^^ c) 0

/-- Two sequences denote the same polynomial: they differ in leading zeros only. -/
def SamePoly (p q : List Byte) : Prop := p.dropWhile (· == 0) = q.dropWhile (· == 0)

/-! ### Lines of modules -/

/-- A line cut into runs, each with its colour and its length. -/
def lineOfRuns (rs : List (Bool × Nat)) : List Bool := rs.flatMap (fun r => List.replicate r.2 r.1)

/-- The runs are not empty, and neighbours differ in colour: they are the maximal runs of their line
(R193). -/
def MaximalRuns : List (Bool × Nat) → Prop
  | [] => True
  | [r] => 0 < r.2
  | r :: q :: rs => 0 < r.2 ∧ r.1 ≠ q.1 ∧ MaximalRuns (q :: rs)

/-- A matrix of side n. -/
def Square (n : Nat) (m : List (List Bool)) : Prop := m.length = n ∧ ∀ row ∈ m, row.length = n

end Sys2Proof.Spec
end

