-- ==== Sys2Proof/Certificates/Slice0/Obligations.lean ====
section
/-! DEFINITION. The statements for the provers, each from the numbered rules of spec/. A statement that a
command completes gives its next state as an equation, which is its frame as well: a field that the equation
does not name is unchanged. -/

open Sys2Proof Sys2Proof.Machine Sys2Proof.Spec

/-! ### Encoding (30_encoding) -/

/-- R93, R94, R97: no bit of an encoding is dropped. -/
def Obligations.DecodeOfEncodeIsTheCommand : Prop :=
  ∀ i : Instr, i.wf = true → decode (encode i) = .ok i

/-- R93, R94: every word that decodes is the encoding of the command it decodes to, whose fields fit. -/
def Obligations.EncodeOfDecodeIsTheWord : Prop :=
  ∀ (w : Word) (i : Instr), decode w = .ok i → i.wf = true ∧ encode i = w

/-- The reserved bits of a command word, by its OPC (R91, R93): the bits between OPC and the fields. -/
def Sys2Proof.Spec.reservedBits (w : Word) : Nat :=
  match opc w with
  | 0x01 | 0x02 | 0x12 => slice w 23 16
  | 0x03 | 0x04 => slice w 23 8
  | 0x10 | 0x11 => slice w 23 5
  | 0x21 | 0x23 => slice w 23 6
  | 0x30 => slice w 23 4
  | _ => slice w 23 0

/-- The fourteen assigned OPC values (R93). -/
def Sys2Proof.Spec.assignedOpcs : List Nat :=
  [0x00, 0x01, 0x02, 0x03, 0x04, 0x10, 0x11, 0x12, 0x20, 0x21, 0x22, 0x23, 0x30, 0xF0]

/-- R94, R96: the words that are no command, and why. -/
def Obligations.IllegalWordsAreThese : Prop :=
  ∀ w : Word,
    (decode w = .error .unassignedOpcode ↔ opc w ∉ Spec.assignedOpcs) ∧
    (decode w = .error .reservedBitSet ↔ opc w ∈ Spec.assignedOpcs ∧ Spec.reservedBits w ≠ 0)

/-- Words written out bit by bit from the formats of R91 and the map of R93. -/
def Obligations.WordsOfTheSpecDecode : Prop :=
  decode 0b00000000000000000000000000000000#32 = .ok .nop ∧
  decode 0b00000001000000000101001111001010#32 = .ok (.gfmul 0x53 0xCA) ∧
  decode 0b00000010000000001011011001010011#32 = .ok (.gfdiv 0xB6 0x53) ∧
  decode 0b00000011000000000000000011111110#32 = .ok (.gfexp 0xFE) ∧
  decode 0b00000100000000000000000000011101#32 = .ok (.gflog 0x1D) ∧
  decode 0b00010000000000000000000000011111#32 = .ok (.pdiv 31) ∧
  decode 0b00010001000000000000000000001010#32 = .ok (.rsenc 10) ∧
  decode 0b00010010000000000000010000000010#32 = .ok (.eccblk 4 2) ∧
  decode 0b00100001000000000000000000100001#32 = .ok (.bsappend 33) ∧
  decode 0b00100011000000000000000000000011#32 = .ok (.bsget 3) ∧
  decode 0b00110000000000000000000000001111#32 = .ok (.pscore 15) ∧
  decode 0b11110000000000000000000000000000#32 = .ok .swrst

/-- The names a line may begin with, each with the number of fields its syntax gives it (R97, R98). -/
def Sys2Proof.Spec.lineShapes : List (AsmName × Nat) :=
  [ (.cmd .nop, 0), (.cmd .gfmul, 2), (.cmd .gfdiv, 2), (.cmd .gfexp, 1), (.cmd .gflog, 1), (.cmd .pdiv, 1),
    (.cmd .rsenc, 1), (.cmd .eccblk, 2), (.cmd .bsreset, 0), (.cmd .bsappend, 1), (.cmd .bspad, 0),
    (.cmd .bsget, 1), (.cmd .pscore, 1), (.cmd .pscore, 0), (.cmd .swrst, 0), (.gfinv, 1), (.gfsqr, 1),
    (.bsbyte, 0) ]

/-- R97, R98: the word of each line of the syntax table and of each pseudo-command; none when a field does not
fit its bit width or the number of fields is not the syntax's; and the word decodes to the command the line is
read as. That a line is a name and the list of its numbers is the model's choice (log 11). -/
def Obligations.AssemblerAcceptsFittingFields : Prop :=
  assemble (.cmd .nop) [] = some 0x00000000#32 ∧
  (∀ a b, assemble (.cmd .gfmul) [a, b] = if a < 256 ∧ b < 256 then
    some (0x01000000#32 ||| BitVec.ofNat 32 a <<< 8 ||| BitVec.ofNat 32 b) else none) ∧
  (∀ a b, assemble (.cmd .gfdiv) [a, b] = if a < 256 ∧ b < 256 then
    some (0x02000000#32 ||| BitVec.ofNat 32 a <<< 8 ||| BitVec.ofNat 32 b) else none) ∧
  (∀ x, assemble (.cmd .gfexp) [x] =
    if x < 256 then some (0x03000000#32 ||| BitVec.ofNat 32 x) else none) ∧
  (∀ x, assemble (.cmd .gflog) [x] =
    if x < 256 then some (0x04000000#32 ||| BitVec.ofNat 32 x) else none) ∧
  (∀ n, assemble (.cmd .pdiv) [n] =
    if n < 32 then some (0x10000000#32 ||| BitVec.ofNat 32 n) else none) ∧
  (∀ n, assemble (.cmd .rsenc) [n] =
    if n < 32 then some (0x11000000#32 ||| BitVec.ofNat 32 n) else none) ∧
  (∀ k e, assemble (.cmd .eccblk) [k, e] = if k < 256 ∧ e < 256 then
    some (0x12000000#32 ||| BitVec.ofNat 32 k <<< 8 ||| BitVec.ofNat 32 e) else none) ∧
  assemble (.cmd .bsreset) [] = some 0x20000000#32 ∧
  (∀ w, assemble (.cmd .bsappend) [w] =
    if w < 64 then some (0x21000000#32 ||| BitVec.ofNat 32 w) else none) ∧
  assemble (.cmd .bspad) [] = some 0x22000000#32 ∧
  (∀ w, assemble (.cmd .bsget) [w] =
    if w < 64 then some (0x23000000#32 ||| BitVec.ofNat 32 w) else none) ∧
  (∀ m, assemble (.cmd .pscore) [m] =
    if m < 16 then some (0x30000000#32 ||| BitVec.ofNat 32 m) else none) ∧
  assemble (.cmd .swrst) [] = some 0xF0000000#32 ∧
  (∀ b, assemble .gfinv [b] =
    if b < 256 then some (0x02000000#32 ||| 1#32 <<< 8 ||| BitVec.ofNat 32 b) else none) ∧
  (∀ a, assemble .gfsqr [a] = if a < 256 then
    some (0x01000000#32 ||| BitVec.ofNat 32 a <<< 8 ||| BitVec.ofNat 32 a) else none) ∧
  assemble (.cmd .pscore) [] = some 0x3000000F#32 ∧
  assemble .bsbyte [] = some 0x21000008#32 ∧
  (∀ name fields w, assemble name fields = some w →
    (name, fields.length) ∈ Spec.lineShapes ∧ ∃ i, asmInstr name fields = some i ∧ decode w = .ok i)

/-! ### The step and the host's accesses (20_memory, 10_state) -/

/-- R24, R71, R94: the CMD write of a word that decodes runs that command, whole, in one step; the port and the
bus response are the model's own (log 1, log 2). -/
def Obligations.StepRunsTheDecodedCommand : Prop :=
  ∀ (s : State) (rest : List HostEvent) (w : Word) (i : Instr),
    s.port = .write .w32 0x000C#16 w :: rest → decode w = .ok i → step s = exec i (accepted rest s)

/-- R94: a word runs the command of the row it selects, with the word's fields; a word that selects none fails
with ILLCMD. That no word selects two rows is R93's "At most one row matches any word", which 30_encoding marks
as derived from the table. -/
def Obligations.WordRunsItsRowOrRaisesIllcmd : Prop :=
  ∀ (w : Word) (s : State),
    (∀ r ∈ opcodeMap, (w &&& r.mask) = r.pattern →
      runCommand w s = exec (withFields r.mnemonic w) s ∧
      ∀ q ∈ opcodeMap, (w &&& q.mask) = q.pattern → q = r) ∧
    ((∀ r ∈ opcodeMap, (w &&& r.mask) ≠ r.pattern) → runCommand w s = .next (failed .illcmd s))

/-- R225, R264, R236: every step ends in a next state; what a step is, is the model's choice (log 1). -/
def Obligations.EveryStepIsSafe : Prop := ∀ s : State, Safe (step s)

/-- R72, R236: the block takes the oldest event, one a step, and with none it keeps all state; the port is the
model's own (log 1). -/
def Obligations.StepTakesTheOldestEvent : Prop :=
  ∀ s t : State, step s = .next t →
    (∀ ev rest, s.port = ev :: rest → t.port = rest) ∧ (s.port = [] → t = s)

/-- Which accesses get a bus error (R63, R67, R68). -/
def Sys2Proof.Spec.Rejected (w : Width) (off : Nat) : Prop :=
  (0x004C ≤ off ∧ off < 0x4000) ∨ 0x9000 ≤ off ∨
  (off < 0x004C ∧ (w ≠ .w32 ∨ off % 4 ≠ 0)) ∨
  (0x4000 ≤ off ∧ off < 0x9000 ∧
    match w with
    | .w8 => False
    | .w16 => off % 2 ≠ 0
    | .w32 => off % 4 ≠ 0)

/-- R63, R66, R67, R68: exactly the rejected accesses get BUSERR, which changes no state of the block and
returns no data; the port and the response are the model's own (log 1, log 2). -/
def Obligations.BusErrorsAreThese : Prop :=
  ∀ (s : State) (rest : List HostEvent) (w : Width) (off : Offset) (v : Word) (ev : HostEvent),
    ev = .read w off ∨ ev = .write w off v → s.port = ev :: rest →
    ∃ t, step s = .next t ∧ (t.resp = .buserr ↔ Spec.Rejected w off.toNat) ∧
      (Spec.Rejected w off.toNat → t = { s with port := rest, resp := .buserr })

/-- R69: a read changes nothing but the response, and a second read of the same place returns the same; the port
and the response are the model's own (log 1, log 2). -/
def Obligations.HostReadsHaveNoSideEffect : Prop :=
  ∀ (s : State) (rest : List HostEvent) (w : Width) (off : Offset),
    s.port = .read w off :: .read w off :: rest →
    ∃ r, step s = .next { s with port := .read w off :: rest, resp := r } ∧
      step { s with port := .read w off :: rest, resp := r } = .next { s with port := rest, resp := r }

/-- What a 32-bit read at each register offset returns (R20 to R29). -/
def Sys2Proof.Spec.registerReads (s : State) : List (Offset × Word) :=
  [ (0x0000#16, 0x51524746#32), (0x0004#16, statusWord s), (0x0008#16, ctrlWord s), (0x000C#16, 0#32),
    (0x0010#16, s.a), (0x0014#16, s.b), (0x0018#16, s.c), (0x001C#16, s.d), (0x0020#16, s.result),
    (0x0024#16, s.cmdcnt), (0x0028#16, s.bsbase), (0x002C#16, s.bscap), (0x0030#16, s.bslen),
    (0x0034#16, s.bsrd), (0x0038#16, s.msize), (0x003C#16, s.pen1), (0x0040#16, s.pen2),
    (0x0044#16, s.pen3), (0x0048#16, s.pen4) ]

/-- R20, R21, R24: the register map as the host reads it; the port and the response are the model's own (log 1,
log 2). -/
def Obligations.RegisterMapReads : Prop :=
  ∀ (s : State) (rest : List HostEvent), ∀ p ∈ Spec.registerReads s,
    s.port = .read .w32 p.1 :: rest →
    step s = .next { s with port := rest, resp := .data p.2 }

/-- R70: RO registers ignore a write, the reserved fields of STATUS and CTRL too, the RW registers store all
32 bits, and a write to CMD executes a command; the port and the response are the model's own (log 1, log 2). -/
def Obligations.HostRegisterWrites : Prop :=
  ∀ (s : State) (rest : List HostEvent) (off : Offset) (v : Word),
    s.port = .write .w32 off v :: rest →
    (off ∈ [0x0000#16, 0x0020#16, 0x0024#16, 0x0030#16, 0x003C#16, 0x0040#16, 0x0044#16, 0x0048#16] →
      step s = .next (accepted rest s)) ∧
    (off = 0x0004#16 →
      step s = .next { accepted rest s with sticky := s.sticky && !v.getLsbD 4 }) ∧
    (off = 0x0008#16 → step s = .next { accepted rest s with ie := v.getLsbD 0 }) ∧
    (off = 0x000C#16 → step s = runCommand v (accepted rest s)) ∧
    (off = 0x0010#16 → step s = .next { accepted rest s with a := v }) ∧
    (off = 0x0014#16 → step s = .next { accepted rest s with b := v }) ∧
    (off = 0x0018#16 → step s = .next { accepted rest s with c := v }) ∧
    (off = 0x001C#16 → step s = .next { accepted rest s with d := v }) ∧
    (off = 0x0028#16 → step s = .next { accepted rest s with bsbase := v }) ∧
    (off = 0x002C#16 → step s = .next { accepted rest s with bscap := v }) ∧
    (off = 0x0034#16 → step s = .next { accepted rest s with bsrd := v }) ∧
    (off = 0x0038#16 → step s = .next { accepted rest s with msize := v })

/-- The code and the name of each error, row by row of the table of R220. -/
def Sys2Proof.Spec.errorCodes : List (Nat × ErrCode) :=
  [ (0, .ok), (1, .illcmd), (2, .badarg), (3, .width), (4, .range), (5, .div0), (6, .log0), (7, .ovf),
    (8, .underrun) ]

/-- R22, R23, R30: STATUS holds in bits 3:0 the code that the table of R220 gives ERRCODE's name, at most 8, and
STICKY in bit 4, CTRL holds IE in bit 0, every other bit reads 0, and irq is STICKY AND IE as the host reads
them. -/
def Obligations.StatusControlAndInterruptBits : Prop :=
  ∀ s : State, (∀ k, 5 ≤ k → (statusWord s).getLsbD k = false) ∧
    (statusWord s).getLsbD 4 = s.sticky ∧ (statusWord s).toNat % 16 = s.errcode.code ∧
    s.errcode.code ≤ 8 ∧ ((statusWord s).toNat % 16, s.errcode) ∈ Spec.errorCodes ∧
    (∀ k, 1 ≤ k → (ctrlWord s).getLsbD k = false) ∧ (ctrlWord s).getLsbD 0 = s.ie ∧
    irq s = ((statusWord s).getLsbD 4 && (ctrlWord s).getLsbD 0)

/-- R226: irq rises only in the step of a CMD write whose command fails, or of a CTRL write that enables it;
a success never raises it; the port is the model's own (log 1). -/
def Obligations.InterruptRisesOnlyOnFailureOrEnable : Prop :=
  ∀ s t : State, step s = .next t → irq s = false → irq t = true →
    (∃ w rest, s.port = .write .w32 0x000C#16 w :: rest ∧ t.errcode ≠ .ok ∧ s.ie = true) ∨
    (∃ v rest, s.port = .write .w32 0x0008#16 v :: rest ∧ s.sticky = true ∧ v.getLsbD 0 = true)

/-- R61, R62, R65: the RAM windows are little-endian, a write changes the bytes of its access and nothing
else, and a read returns the bytes in place; the port and the response are the model's own (log 1, log 2). -/
def Obligations.WindowAccessesAreLittleEndian : Prop :=
  ∀ (s : State) (rest : List HostEvent) (w : Width) (i : Nat) (v : Word),
    i % w.bytes = 0 →
    (i < 16384 → s.port = .write w (BitVec.ofNat 16 (0x4000 + i)) v :: rest →
      ∃ m, step s = .next { accepted rest s with buf := m } ∧
        (∀ j, j < w.bytes →
          (bufByte { s with buf := m } (i + j)).toNat = v.toNat / 2 ^ (8 * j) % 256) ∧
        (∀ j, j < i ∨ i + w.bytes ≤ j → bufByte { s with buf := m } j = bufByte s j)) ∧
    (i < 16384 → s.port = .read w (BitVec.ofNat 16 (0x4000 + i)) :: rest →
      ∃ r, step s = .next { s with port := rest, resp := .data r } ∧
        r.toNat = ((List.range w.bytes).map (fun j => (bufByte s (i + j)).toNat * 2 ^ (8 * j))).sum) ∧
    (i < 4096 → s.port = .write w (BitVec.ofNat 16 (0x8000 + i)) v :: rest →
      ∃ m, step s = .next { accepted rest s with mat := m } ∧
        (∀ j, j < w.bytes →
          (matByte { s with mat := m } (i + j)).toNat = v.toNat / 2 ^ (8 * j) % 256) ∧
        (∀ j, j < i ∨ i + w.bytes ≤ j → matByte { s with mat := m } j = matByte s j)) ∧
    (i < 4096 → s.port = .read w (BitVec.ofNat 16 (0x8000 + i)) :: rest →
      ∃ r, step s = .next { s with port := rest, resp := .data r } ∧
        r.toNat = ((List.range w.bytes).map (fun j => (matByte s (i + j)).toNat * 2 ^ (8 * j))).sum)

/-- R7, R60: the block answers exactly the 64 KiB from QRGF_BASE on, at the offset of the address, whatever
the base is; the base is a multiple of 65536. That it is an opaque constant is the model's choice (log 7). -/
def Obligations.WindowFollowsTheBase : Prop :=
  Config.qrgfBase % 65536 = 0 ∧
  (∀ off : Offset, windowOffset (sysAddr off) = some off) ∧
  (∀ addr off, windowOffset addr = some off → sysAddr off = addr)

/-! ### Reset (70_reset_and_hazards) -/

/-- R47, R250: the register values and irq after a hardware reset, both at State.reset and after a reset event
in any state. The value of an unwritten RAM byte is free: the statement says nothing of it. That a reset is an
event of the port is the model's choice (log 5). -/
def Obligations.HardwareResetValues : Prop :=
  (∀ r, hostReadReg r State.reset = if r = .id then 0x51524746#32 else 0#32) ∧ irq State.reset = false ∧
  ∀ (s : State) (rest : List HostEvent), s.port = .reset :: rest →
    ∃ t, step s = .next t ∧ (∀ r, hostReadReg r t = if r = .id then 0x51524746#32 else 0#32) ∧
      irq t = false ∧ t.port = rest

/-- R251: a hardware reset during a CMD write: registers as after reset, MAT unchanged, and every BUF byte
outside the command's output regions unchanged. Which bytes those are is outputRegions, which
CommandsWriteOnlyTheirOutputRegions holds against the commands themselves; the event and the extent of the
regions are the model's choice (log 6). -/
def Obligations.AbandonedCommandKeepsOtherBytes : Prop :=
  ∀ (s : State) (rest : List HostEvent) (w : Word), s.port = .abortedCmd w :: rest →
    ∃ t, step s = .next t ∧ (∀ r, hostReadReg r t = if r = .id then 0x51524746#32 else 0#32) ∧
      (∀ j, matByte t j = matByte s j) ∧
      (∀ a, (∀ i, decode w = .ok i → ∀ p ∈ outputRegions i s, a < p.1 ∨ p.1 + p.2 ≤ a) →
        bufByte t a = bufByte s a)

/-! ### What holds of every command (60_exceptions, 10_state) -/

/-- R221: a failing command writes ERRCODE, STICKY and CMDCNT and nothing else; irq becomes 1 if IE is 1. -/
def Obligations.FailingCommandChangesNothingElse : Prop :=
  ∀ (w : Word) (s t : State), runCommand w s = .next t → t.errcode ≠ .ok →
    t = failed t.errcode s ∧ (s.ie = true → irq t = true)

/-- R222, R27: the common end of a successful command, and what CMDCNT counts. -/
def Obligations.CommandsAreCounted : Prop :=
  ∀ (w : Word) (s t : State), runCommand w s = .next t →
    (decode w ≠ .ok .swrst → t.cmdcnt = s.cmdcnt + 1) ∧
    (decode w = .ok .swrst → t.cmdcnt = 0) ∧
    (decode w ≠ .ok .swrst → t.errcode = .ok → t.sticky = s.sticky)

/-- R25, R28, R29, R32, R71: no command but SWRST writes a register the host owns; BSLEN, BSRD and PEN1 to PEN4
are written only by the commands R28 and R29 name; none writes MAT. -/
def Obligations.CommandsWriteOnlyTheirRegisters : Prop :=
  ∀ (i : Instr) (s t : State), exec i s = .next t →
    t.mat = s.mat ∧ t.port = s.port ∧ t.resp = s.resp ∧ t.era = s.era ∧
    (i ≠ .swrst → t.ie = s.ie ∧ t.a = s.a ∧ t.b = s.b ∧ t.c = s.c ∧ t.d = s.d ∧
      t.bsbase = s.bsbase ∧ t.bscap = s.bscap ∧ t.msize = s.msize) ∧
    (i ≠ .swrst → i ≠ .bsreset → (∀ w, i ≠ .bsget w) → t.bsrd = s.bsrd) ∧
    (i ≠ .swrst → i ≠ .bsreset → (∀ w, i ≠ .bsappend w) → i ≠ .bspad → t.bslen = s.bslen) ∧
    (i ≠ .swrst → (∀ m, i ≠ .pscore m) →
      t.pen1 = s.pen1 ∧ t.pen2 = s.pen2 ∧ t.pen3 = s.pen3 ∧ t.pen4 = s.pen4)

/-- R26: who writes RESULT, and what range of value. -/
def Obligations.ResultRegisterWriters : Prop :=
  ∀ (i : Instr) (s t : State), exec i s = .next t →
    (t.errcode ≠ .ok → t.result = s.result) ∧
    (t.errcode = .ok →
      match i with
      | .gfmul _ _ | .gfdiv _ _ | .gfexp _ | .gflog _ => t.result.toNat < 256
      | .bsget w => t.result.toNat < 2 ^ w
      | .pscore _ => t.result = t.pen1 + t.pen2 + t.pen3 + t.pen4
      | .swrst => t.result = 0
      | _ => t.result = s.result)

/-- The errors each command can raise after decoding (R220). -/
def Sys2Proof.Spec.errorsOf : Instr → List ErrCode
  | .gfdiv _ _ => [.div0]
  | .gflog _ => [.log0]
  | .pdiv _ => [.badarg, .range, .div0]
  | .rsenc _ => [.badarg, .range]
  | .eccblk _ _ => [.badarg, .range]
  | .bsappend _ => [.badarg, .width, .range, .ovf]
  | .bspad => [.badarg, .range, .ovf]
  | .bsget _ => [.badarg, .range, .underrun]
  | .pscore _ => [.badarg]
  | _ => []

/-- R220: each error is raised by the commands of its row only. -/
def Obligations.CommandsRaiseOnlyTheirErrors : Prop :=
  ∀ (i : Instr) (s t : State), exec i s = .next t → t.errcode = .ok ∨ t.errcode ∈ Spec.errorsOf i

/-- R79: a command writes no BUF byte outside the regions its rule names, and none when it fails. -/
def Obligations.CommandsWriteOnlyTheirOutputRegions : Prop :=
  ∀ (i : Instr) (s t : State) (a : Nat), exec i s = .next t →
    (∀ p ∈ outputRegions i s, a < p.1 ∨ p.1 + p.2 ≤ a) → bufByte t a = bufByte s a

/-! ### The GF(256) unit (40_gf256) -/

/-- R112. -/
def Obligations.GfmulRule : Prop :=
  ∀ s : State,
    (∀ w, opc w = 0x01 → slice w 23 16 ≠ 0 → runCommand w s = .next (failed .illcmd s)) ∧
    (∀ a b : Byte, runCommand (0x01000000#32 ||| zext32 a <<< 8 ||| zext32 b) s = exec (.gfmul a b) s) ∧
    (∀ a b : Byte, exec (.gfmul a b) s = .next (done { s with result := zext32 (gfmul a b) })) ∧
    (∀ a : Byte, gfmul a 0 = 0 ∧ gfmul 0 a = 0 ∧ gfmul 1 a = a) ∧
    (∀ a b : Byte, gfmul a b = gfmul b a) ∧
    gfmul 0x02 0x80 = 0x1D

/-- R115. -/
def Obligations.GfdivRule : Prop :=
  ∀ s : State,
    (∀ w, opc w = 0x02 → slice w 23 16 ≠ 0 → runCommand w s = .next (failed .illcmd s)) ∧
    (∀ a b : Byte, runCommand (0x02000000#32 ||| zext32 a <<< 8 ||| zext32 b) s = exec (.gfdiv a b) s) ∧
    (∀ a : Byte, exec (.gfdiv a 0) s = .next (failed .div0 s)) ∧
    (∀ a b : Byte, b ≠ 0 → exec (.gfdiv a b) s = .next (done { s with result := zext32 (gfdiv a b) })) ∧
    (∀ b : Byte, b ≠ 0 → gfdiv 0 b = 0 ∧ gfdiv b b = 1 ∧ gfmul (gfdiv 1 b) b = 1) ∧
    (∀ a : Byte, gfdiv a 1 = a) ∧
    gfdiv 0x01 0x02 = 0x8E

/-- R117. -/
def Obligations.GfexpRule : Prop :=
  ∀ s : State,
    (∀ w, opc w = 0x03 → slice w 23 8 ≠ 0 → runCommand w s = .next (failed .illcmd s)) ∧
    (∀ x : Byte, runCommand (0x03000000#32 ||| zext32 x) s = exec (.gfexp x) s) ∧
    (∀ x : Byte, exec (.gfexp x) s = .next (done { s with result := zext32 (expRom x.toNat) })) ∧
    (∀ x : Byte, expRom x.toNat = alphaPow (x.toNat % 255) ∧ expRom x.toNat ≠ 0) ∧
    expRom 8 = 0x1D

/-- R119. -/
def Obligations.GflogRule : Prop :=
  ∀ s : State,
    (∀ w, opc w = 0x04 → slice w 23 8 ≠ 0 → runCommand w s = .next (failed .illcmd s)) ∧
    (∀ x : Byte, runCommand (0x04000000#32 ||| zext32 x) s = exec (.gflog x) s) ∧
    exec (.gflog 0) s = .next (failed .log0 s) ∧
    (∀ x : Byte, x ≠ 0 → exec (.gflog x) s = .next (done { s with result := zext32 (logRom x) })) ∧
    (∀ x : Byte, x ≠ 0 → (logRom x).toNat ≤ 254) ∧
    logRom 1 = 0 ∧ logRom 2 = 1 ∧ logRom 0x03 = 0x19

/-- R42, and the laws of the tables that 10_state and 40_gf256 mark as derived: the EXP ROM is built by the
recurrence and takes every nonzero byte exactly once, LOG is its inverse, and products add logarithms. -/
def Obligations.ExpAndLogLaws : Prop :=
  expRom 0 = 1 ∧ expRom 255 = 1 ∧ (∀ i, i < 254 → expRom (i + 1) = xtime (expRom i)) ∧
  (∀ a : Byte, a ≠ 0 → (logRom a).toNat ≤ 254 ∧ expRom (logRom a).toNat = a) ∧
  (∀ i, i ≤ 254 → (logRom (expRom i)).toNat = i) ∧
  (∀ a : Byte, a ≠ 0 → ∃! i, i ≤ 254 ∧ expRom i = a) ∧
  (∀ i j, i ≤ 254 → j ≤ 254 → gfmul (expRom i) (expRom j) = expRom ((i + j) % 255)) ∧
  (∀ a b : Byte, a ≠ 0 → b ≠ 0 →
    (logRom (gfmul a b)).toNat = ((logRom a).toNat + (logRom b).toNat) % 255)

/-- gfmul (R111) is the product of polynomials over GF(2), reduced modulo 0x11D (R40); 40_gf256 marks the
sentence as derived. -/
def Obligations.GfmulIsThePolynomialProduct : Prop :=
  ∀ a b : Byte, gfmul a b = polyProduct a b

/-- The laws of gfmul, which 40_gf256 marks as derived from R111 and R40. -/
def Obligations.GfmulFieldLaws : Prop :=
  (∀ a b : Byte, gfmul a b = gfmul b a) ∧
  (∀ a b c : Byte, gfmul (gfmul a b) c = gfmul a (gfmul b c)) ∧
  (∀ a b c : Byte, gfmul a (b ^^^ c) = gfmul a b ^^^ gfmul a c) ∧
  (∀ a : Byte, gfmul 1 a = a ∧ gfmul 0 a = 0) ∧
  (∀ a b : Byte, gfmul a b = 0 → a = 0 ∨ b = 0)

/-- The laws of gfdiv, which 40_gf256 marks as derived from R111 and R114. -/
def Obligations.GfdivLaws : Prop :=
  ∀ a b : Byte, b ≠ 0 →
    gfdiv (gfmul a b) b = a ∧ gfmul (gfdiv a b) b = a ∧ gfdiv a 1 = a ∧ gfdiv b b = 1 ∧
    gfdiv a b = gfmul a (gfdiv 1 b)

/-! ### The polynomial unit (41_polydiv) -/

/-- R45, and the roots 10_state derives from it: GEN[0] = 1, GEN[n+1] = GEN[n]·(x − α^n), GEN[n] is monic of
degree n, and every α^i with i < n is a root. -/
def Obligations.GeneratorPolynomials : Prop :=
  genRom 0 = [1] ∧
  (∀ n, n < 30 → genRom (n + 1) = polyMul (genRom n) [1, expRom n]) ∧
  (∀ n, n ≤ 30 → (genRom n).length = n + 1 ∧ (genRom n).head? = some 1) ∧
  (∀ n i, n ≤ 30 → i < n → polyEval (expRom i) (genRom n) = 0)

/-- R130 and what 41_polydiv derives from it: polyrem is the remainder, N bytes r with p = q·d + r for some q,
and the only such N bytes. -/
def Obligations.PolyremIsTheRemainder : Prop :=
  ∀ (p tail : List Byte) (lead : Byte), lead ≠ 0 →
    (polyrem p (lead :: tail)).length = tail.length ∧
    (∃ q, SamePoly p (polyAdd (polyMul q (lead :: tail)) (polyrem p (lead :: tail)))) ∧
    (∀ q r, r.length = tail.length → SamePoly p (polyAdd (polyMul q (lead :: tail)) r) →
      r = polyrem p (lead :: tail))

/-- What 41_polydiv derives of PDIV's exactness: the remainder depends on the polynomials only: leading zeros
of the dividend do not matter, and dividing by c·d gives what dividing by d gives. -/
def Obligations.RemainderDependsOnThePolynomials : Prop :=
  ∀ (p p' d : List Byte) (lead c : Byte), lead ≠ 0 → c ≠ 0 →
    (SamePoly p p' → polyrem p (lead :: d) = polyrem p' (lead :: d)) ∧
    polyrem p (polyScale c (lead :: d)) = polyrem p (lead :: d)

/-- R132. -/
def Obligations.PdivRule : Prop :=
  ∀ (s : State) (n : Nat),
    (∀ w, opc w = 0x10 → slice w 23 5 ≠ 0 → runCommand w s = .next (failed .illcmd s)) ∧
    (n < 32 → runCommand (0x10000000#32 ||| BitVec.ofNat 32 n) s = exec (.pdiv n) s) ∧
    (30 < n → exec (.pdiv n) s = .next (failed .badarg s)) ∧
    (n ≤ 30 →
      16384 < s.a.toNat + s.b.toNat ∨ 16384 < s.c.toNat + n + 1 ∨ 16384 < s.d.toNat + n →
      exec (.pdiv n) s = .next (failed .range s)) ∧
    (n ≤ 30 → s.a.toNat + s.b.toNat ≤ 16384 → s.c.toNat + n + 1 ≤ 16384 → s.d.toNat + n ≤ 16384 →
      bufByte s s.c.toNat = 0 → exec (.pdiv n) s = .next (failed .div0 s)) ∧
    (n ≤ 30 → s.a.toNat + s.b.toNat ≤ 16384 → s.c.toNat + n + 1 ≤ 16384 → s.d.toNat + n ≤ 16384 →
      bufByte s s.c.toNat ≠ 0 →
      ∃ m, exec (.pdiv n) s = .next (done { s with buf := m }) ∧
        memRead { s with buf := m } s.d.toNat n =
          polyrem (memRead s s.a.toNat s.b.toNat) (memRead s s.c.toNat (n + 1)) ∧
        (∀ i, i < s.d.toNat ∨ s.d.toNat + n ≤ i → bufByte { s with buf := m } i = bufByte s i)) ∧
    (∀ (p tail : List Byte) (lead : Byte), p.length ≤ tail.length →
      polyrem p (lead :: tail) = List.replicate (tail.length - p.length) 0 ++ p) ∧
    polyrem [0x01, 0x02, 0x03] [0x01, 0x03, 0x02] = [0x01, 0x01]

/-- R135, R134. -/
def Obligations.RsencRule : Prop :=
  ∀ (s : State) (n : Nat),
    (∀ w, opc w = 0x11 → slice w 23 5 ≠ 0 → runCommand w s = .next (failed .illcmd s)) ∧
    (n < 32 → runCommand (0x11000000#32 ||| BitVec.ofNat 32 n) s = exec (.rsenc n) s) ∧
    (30 < n → exec (.rsenc n) s = .next (failed .badarg s)) ∧
    (n ≤ 30 → 16384 < s.a.toNat + s.b.toNat ∨ 16384 < s.d.toNat + n →
      exec (.rsenc n) s = .next (failed .range s)) ∧
    (n ≤ 30 → s.a.toNat + s.b.toNat ≤ 16384 → s.d.toNat + n ≤ 16384 →
      ∃ m, exec (.rsenc n) s = .next (done { s with buf := m }) ∧
        memRead { s with buf := m } s.d.toNat n =
          polyrem (memRead s s.a.toNat s.b.toNat ++ List.replicate n 0) (genRom n) ∧
        (∀ i, i < s.d.toNat ∨ s.d.toNat + n ≤ i → bufByte { s with buf := m } i = bufByte s i)) ∧
    (n ≤ 30 → ∀ k, rsenc (List.replicate k 0) n = List.replicate n 0) ∧
    (n ≤ 30 → rsenc [1] n = (genRom n).tail) ∧
    rsenc [0x01] 2 = [0x03, 0x02]

/-- The systematic property, which 41_polydiv quotes from the source and derives: data followed by its ECC
leaves remainder zero. -/
def Obligations.DataWithEccHasZeroRemainder : Prop :=
  ∀ (m : List Byte) (n : Nat), n ≤ 30 →
    polyrem (m ++ rsenc m n) (genRom n) = List.replicate n 0

/-- RSENC is linear, which 41_polydiv marks as derived. -/
def Obligations.RsencIsLinear : Prop :=
  ∀ (m m' : List Byte) (n : Nat) (c : Byte), n ≤ 30 → m.length = m'.length →
    rsenc (List.zipWith (· ^^^ ·) m m') n = List.zipWith (· ^^^ ·) (rsenc m n) (rsenc m' n) ∧
    rsenc (m.map (gfmul c)) n = (rsenc m n).map (gfmul c)

/-! ### The bitstream packer (42_bitstream) -/

/-- R154. -/
def Obligations.BsresetRule : Prop :=
  ∀ s : State,
    (∀ w, opc w = 0x20 → slice w 23 0 ≠ 0 → runCommand w s = .next (failed .illcmd s)) ∧
    runCommand 0x20000000#32 s = exec .bsreset s ∧
    exec .bsreset s = .next (done { s with bslen := 0, bsrd := 0 })

/-- R155, R152: the errors in order; the appended bits, most significant first, after the old ones; the rest of
a byte that the append starts becomes 0; every other bit and byte keeps its value. -/
def Obligations.BsappendRule : Prop :=
  ∀ (s : State) (w base len cap : Nat),
    base = s.bsbase.toNat → len = s.bslen.toNat → cap = s.bscap.toNat →
    (∀ x, opc x = 0x21 → slice x 23 6 ≠ 0 → runCommand x s = .next (failed .illcmd s)) ∧
    (w < 64 → runCommand (0x21000000#32 ||| BitVec.ofNat 32 w) s = exec (.bsappend w) s) ∧
    (32 < w → exec (.bsappend w) s = .next (failed .badarg s)) ∧
    (w ≤ 32 → 2 ^ w ≤ s.a.toNat → exec (.bsappend w) s = .next (failed .width s)) ∧
    (w ≤ 32 → s.a.toNat < 2 ^ w → 16384 < base + (cap + 7) / 8 →
      exec (.bsappend w) s = .next (failed .range s)) ∧
    (w ≤ 32 → s.a.toNat < 2 ^ w → base + (cap + 7) / 8 ≤ 16384 → cap < len + w →
      exec (.bsappend w) s = .next (failed .ovf s)) ∧
    (w ≤ 32 → s.a.toNat < 2 ^ w → base + (cap + 7) / 8 ≤ 16384 → len + w ≤ cap →
      ∃ m, exec (.bsappend w) s = .next (done { s with buf := m, bslen := BitVec.ofNat 32 (len + w) }) ∧
        (∀ k, k < len → streamBit { s with buf := m } base k = streamBit s base k) ∧
        (∀ j, j < w → streamBit { s with buf := m } base (len + j) = s.a.getLsbD (w - 1 - j)) ∧
        (∀ k, len + w ≤ k → k < 8 * ((len + w + 7) / 8) →
          streamBit { s with buf := m } base k =
            if len % 8 ≠ 0 ∧ k / 8 = len / 8 then streamBit s base k else false) ∧
        (∀ i, i < base + len / 8 ∨ base + (len + w + 7) / 8 ≤ i →
          bufByte { s with buf := m } i = bufByte s i))

/-- R157, R158: the errors in order; then up to four terminator bits, zero bits to the byte boundary, and pad
codewords EC 11 EC … up to the capacity; every other bit and byte keeps its value. -/
def Obligations.BspadRule : Prop :=
  ∀ (s : State) (base len cap body : Nat),
    base = s.bsbase.toNat → len = s.bslen.toNat → cap = s.bscap.toNat →
    body = 8 * ((min (len + 4) cap + 7) / 8) →
    (∀ x, opc x = 0x22 → slice x 23 0 ≠ 0 → runCommand x s = .next (failed .illcmd s)) ∧
    runCommand 0x22000000#32 s = exec .bspad s ∧
    (cap % 8 ≠ 0 → exec .bspad s = .next (failed .badarg s)) ∧
    (cap % 8 = 0 → 16384 < base + cap / 8 → exec .bspad s = .next (failed .range s)) ∧
    (cap % 8 = 0 → base + cap / 8 ≤ 16384 → cap < len → exec .bspad s = .next (failed .ovf s)) ∧
    (cap % 8 = 0 → base + cap / 8 ≤ 16384 → len ≤ cap →
      ∃ m, exec .bspad s = .next (done { s with buf := m, bslen := s.bscap }) ∧
        (∀ k, k < len → streamBit { s with buf := m } base k = streamBit s base k) ∧
        (∀ k, len ≤ k → k < body → streamBit { s with buf := m } base k = false) ∧
        (∀ j, j < (cap - body) / 8 →
          bufByte { s with buf := m } (base + body / 8 + j) = if j % 2 = 0 then 0xEC else 0x11) ∧
        (∀ i, i < base + len / 8 ∨ base + cap / 8 ≤ i → bufByte { s with buf := m } i = bufByte s i))

/-- R159. -/
def Obligations.BsgetRule : Prop :=
  ∀ (s : State) (w base len rd : Nat),
    base = s.bsbase.toNat → len = s.bslen.toNat → rd = s.bsrd.toNat →
    (∀ x, opc x = 0x23 → slice x 23 6 ≠ 0 → runCommand x s = .next (failed .illcmd s)) ∧
    (w < 64 → runCommand (0x23000000#32 ||| BitVec.ofNat 32 w) s = exec (.bsget w) s) ∧
    (32 < w → exec (.bsget w) s = .next (failed .badarg s)) ∧
    (w ≤ 32 → 16384 < base + (len + 7) / 8 → exec (.bsget w) s = .next (failed .range s)) ∧
    (w ≤ 32 → base + (len + 7) / 8 ≤ 16384 → len < rd + w →
      exec (.bsget w) s = .next (failed .underrun s)) ∧
    (w ≤ 32 → base + (len + 7) / 8 ≤ 16384 → rd + w ≤ len →
      ∃ r : Word,
        exec (.bsget w) s = .next (done { s with result := r, bsrd := BitVec.ofNat 32 (rd + w) }) ∧
        r.toNat < 2 ^ w ∧ ∀ j, j < w → r.getLsbD (w - 1 - j) = streamBit s base (rd + j))

/-- The state after appending each width and value in turn: a host write of A, then BSAPPEND. -/
def Sys2Proof.Spec.appendAll : List (Nat × Word) → State → Option State
  | [], s => some s
  | (w, v) :: rest, s =>
    match exec (.bsappend w) { s with a := v } with
    | .next t => if t.errcode = .ok then Spec.appendAll rest t else none
    | _ => none

/-- The values BSGET returns for a list of widths; none if one of them fails. -/
def Sys2Proof.Spec.getAll : List Nat → State → Option (List Word)
  | [], _ => some []
  | w :: rest, s =>
    match exec (.bsget w) s with
    | .next t => if t.errcode = .ok then (Spec.getAll rest t).map (t.result :: ·) else none
    | _ => none

/-- The read-back law, which 42_bitstream derives: from BSRESET, values appended are the values read back, in
order. -/
def Obligations.StreamReadsBackWhatWasAppended : Prop :=
  ∀ (vals : List (Nat × Word)) (s t u : State), exec .bsreset s = .next t →
    Spec.appendAll vals t = some u → Spec.getAll (vals.map Prod.fst) u = some (vals.map Prod.snd)

/-- The append law, which 42_bitstream derives: two appends leave the stream and the length that one append of
the concatenated value leaves. -/
def Obligations.AppendsConcatenate : Prop :=
  ∀ (s t u : State) (w₁ w₂ : Nat) (v₁ v₂ : Word), w₁ + w₂ ≤ 32 →
    Spec.appendAll [(w₁, v₁), (w₂, v₂)] s = some t →
    Spec.appendAll [(w₁ + w₂, BitVec.ofNat 32 (v₁.toNat * 2 ^ w₂ + v₂.toNat))] s = some u →
    t.bslen = u.bslen ∧ ∀ i, bufByte t i = bufByte u i

/-! ### The ECC block coder (43_eccblock) -/

/-- R171, R172: w is the work area: block b's slot of S + 1 bytes holds its data, for a short block the padding
byte 0, and its ECC codewords. -/
def Sys2Proof.Spec.WorkArea (k e t : Nat) (src w : List Byte) : Prop :=
  w.length = k * (t / k + 1) ∧ ∀ b, b < k →
    let short : Bool := decide (b < k - t % k)
    let count := if short then t / k - e else t / k - e + 1
    let data := (src.drop (b * (t / k - e) + (b - (k - t % k)))).take count
    (w.drop (b * (t / k + 1))).take (t / k + 1) =
      data ++ (if short then [0] else []) ++ polyrem (data ++ List.replicate e 0) (genRom e)

/-- R173's emission loop, both ends included: position i of every slot, short blocks skipped at S − E. -/
def Sys2Proof.Spec.wireOrder (k e t : Nat) (w : List Byte) : List Byte :=
  (List.range (t / k + 1)).flatMap (fun i => (List.range k).flatMap (fun b =>
    if b < k - t % k ∧ i = t / k - e then [] else [w.getD (b * (t / k + 1) + i) 0]))

/-- R173. -/
def Obligations.EccblkRule : Prop :=
  ∀ (s : State) (k e t : Nat), t = s.b.toNat →
    (∀ x, opc x = 0x12 → slice x 23 16 ≠ 0 → runCommand x s = .next (failed .illcmd s)) ∧
    (k < 256 → e < 256 →
      runCommand (0x12000000#32 ||| BitVec.ofNat 32 k <<< 8 ||| BitVec.ofNat 32 e) s =
        exec (.eccblk k e) s) ∧
    (k = 0 ∨ 30 < e ∨ t / k ≤ e → exec (.eccblk k e) s = .next (failed .badarg s)) ∧
    (1 ≤ k → e ≤ 30 → e < t / k →
      16384 < s.a.toNat + (t - k * e) ∨ 16384 < s.c.toNat + k * (t / k + 1) ∨ 16384 < s.d.toNat + t →
      exec (.eccblk k e) s = .next (failed .range s)) ∧
    (1 ≤ k → e ≤ 30 → e < t / k → s.a.toNat + (t - k * e) ≤ 16384 →
      s.c.toNat + k * (t / k + 1) ≤ 16384 → s.d.toNat + t ≤ 16384 →
      ∃ m w, exec (.eccblk k e) s = .next (done { s with buf := m }) ∧
        Spec.WorkArea k e t (memRead s s.a.toNat (t - k * e)) w ∧
        memRead { s with buf := m } s.d.toNat t = Spec.wireOrder k e t w ∧
        (∀ i, i < k * (t / k + 1) → s.c.toNat + i < s.d.toNat ∨ s.d.toNat + t ≤ s.c.toNat + i →
          bufByte { s with buf := m } (s.c.toNat + i) = w.getD i 0) ∧
        (∀ i, i < s.c.toNat ∨ s.c.toNat + k * (t / k + 1) ≤ i → i < s.d.toNat ∨ s.d.toNat + t ≤ i →
          bufByte { s with buf := m } i = bufByte s i))

/-- The output laws, which 43_eccblock derives from R171 to R173: the output of a work area has T bytes. Block
b's j-th data codeword (j < Ks) is number j·Bk + b of it, the long blocks' last ones follow, and the last Bk·E
bytes are the ECC codewords, position by position across the blocks. -/
def Obligations.EccOutputOrder : Prop :=
  ∀ (k e t : Nat) (src w : List Byte), 1 ≤ k → e ≤ 30 → e < t / k → src.length = t - k * e →
    Spec.WorkArea k e t src w →
    (Spec.wireOrder k e t w).length = t ∧
    (∀ b j, b < k → j < t / k - e →
      (Spec.wireOrder k e t w).getD (j * k + b) 0 = src.getD (blockStart k e t b + j) 0) ∧
    (∀ b, k - t % k ≤ b → b < k →
      (Spec.wireOrder k e t w).getD ((t / k - e) * k + (b - (k - t % k))) 0 =
        src.getD (blockStart k e t b + (t / k - e)) 0) ∧
    (∀ b j, b < k → j < e →
      (Spec.wireOrder k e t w).getD (t - k * e + j * k + b) 0 =
        (rsenc (blockBytes k e t src b) e).getD j 0)

/-- The geometry of R171 and the sum property it derives: the blocks' data codewords tile the input, and with
the ECC codewords they count T. -/
def Obligations.BlockGeometry : Prop :=
  ∀ k e t : Nat, 1 ≤ k → e < t / k →
    blockStart k e t 0 = 0 ∧
    (∀ b, b < k → blockStart k e t (b + 1) = blockStart k e t b + blockData k e t b) ∧
    blockStart k e t k = dataTotal k e t ∧ dataTotal k e t + k * e = t ∧
    1 ≤ shortCount k t ∧ shortCount k t ≤ k

/-! ### The penalty scorer (44_penalty) -/

/-- R198, R191: the errors, and the five registers written; a disabled rule's register is written 0. That the
sum stays below 2^32 is 44_penalty section 2, bounds ("no register overflows"), which the spec marks as
derived. -/
def Obligations.PscoreRule : Prop :=
  ∀ (s : State) (m n : Nat), n = s.msize.toNat →
    (∀ x, opc x = 0x30 → slice x 23 4 ≠ 0 → runCommand x s = .next (failed .illcmd s)) ∧
    (m < 16 → runCommand (0x30000000#32 ||| BitVec.ofNat 32 m) s = exec (.pscore m) s) ∧
    (n < 21 ∨ 177 < n ∨ n % 4 ≠ 1 → exec (.pscore m) s = .next (failed .badarg s)) ∧
    (21 ≤ n → n ≤ 177 → n % 4 = 1 →
      ∃ p1 p2 p3 p4 : Nat,
        exec (.pscore m) s = .next (done { s with
          pen1 := BitVec.ofNat 32 p1, pen2 := BitVec.ofNat 32 p2, pen3 := BitVec.ofNat 32 p3,
          pen4 := BitVec.ofNat 32 p4, result := BitVec.ofNat 32 (p1 + p2 + p3 + p4) }) ∧
        p1 + p2 + p3 + p4 < 2 ^ 32 ∧
        p1 = (if m.testBit 0 then penalty1 n (scoredMatrix n s) else 0) ∧
        p2 = (if m.testBit 1 then penalty2 n (scoredMatrix n s) else 0) ∧
        p3 = (if m.testBit 2 then penalty3 n (scoredMatrix n s) else 0) ∧
        p4 = (if m.testBit 3 then penalty4 n (scoredMatrix n s) else 0)) ∧
    Square n (scoredMatrix n s) ∧
    (∀ r c, r < n → c < n → moduleAt (scoredMatrix n s) r c =
      (matByte s ((r * n + c) / 8)).getLsbD (7 - (r * n + c) % 8))

/-- R193, R192: every line is a sequence of maximal runs and scores L − 2 for each of length L ≥ 5, and P1 is
the sum over the rows and the columns. -/
def Obligations.RunScoreSumsMaximalRuns : Prop :=
  (∀ l : List Bool, ∃ rs, MaximalRuns rs ∧ lineOfRuns rs = l) ∧
  (∀ rs, MaximalRuns rs →
    lineRuns (lineOfRuns rs) = (rs.map (fun r => if 5 ≤ r.2 then r.2 - 2 else 0)).sum) ∧
  (∀ n m, Square n m → penalty1 n m =
    ∑ r ∈ Finset.range n, lineRuns ((List.range n).map (fun c => moduleAt m r c)) +
      ∑ c ∈ Finset.range n, lineRuns ((List.range n).map (fun r => moduleAt m r c)))

/-- R194: three points for each position whose four modules are equal. -/
def Obligations.BlockScoreCountsUniformBlocks : Prop :=
  ∀ (n : Nat) (m : List (List Bool)),
    penalty2 n m = 3 * ((Finset.range (n - 1) ×ˢ Finset.range (n - 1)).filter (fun p =>
      moduleAt m p.1 p.2 = moduleAt m p.1 (p.2 + 1) ∧ moduleAt m p.1 p.2 = moduleAt m (p.1 + 1) p.2 ∧
        moduleAt m p.1 p.2 = moduleAt m (p.1 + 1) (p.2 + 1))).card

/-- R195, R192: the finder-like patterns of a line, by position, and P3 is the sum over the rows and the
columns. -/
def Obligations.FinderScoreByPosition : Prop :=
  (∀ n m, Square n m → penalty3 n m =
    ∑ r ∈ Finset.range n, lineFinders ((List.range n).map (fun c => moduleAt m r c)) +
      ∑ c ∈ Finset.range n, lineFinders ((List.range n).map (fun r => moduleAt m r c))) ∧
  ∀ l : List Bool,
    lineFinders l = ((List.range l.length).map (fun i =>
      if i + 7 ≤ l.length ∧ l.getD i false = true ∧ l.getD (i + 1) false = false ∧
          l.getD (i + 2) false = true ∧ l.getD (i + 3) false = true ∧ l.getD (i + 4) false = true ∧
          l.getD (i + 5) false = false ∧ l.getD (i + 6) false = true then
        (if 4 ≤ i ∧ l.getD (i - 4) true = false ∧ l.getD (i - 3) true = false ∧
            l.getD (i - 2) true = false ∧ l.getD (i - 1) true = false then 40 else 0) +
          (if i + 11 ≤ l.length ∧ l.getD (i + 7) true = false ∧ l.getD (i + 8) true = false ∧
            l.getD (i + 9) true = false ∧ l.getD (i + 10) true = false then 40 else 0)
      else 0)).sum

/-- R196: P4 is ten points for each whole 5 % bucket of the exact deviation of the dark count from 50 %; it is
100 when every module is light or every module is dark. -/
def Obligations.RatioScoreIsTheExactBucket : Prop :=
  (∀ n dark k : Nat, 0 < n →
    ratioPoints n dark % 10 = 0 ∧
    (10 * k ≤ ratioPoints n dark ↔
      (5 * k : ℚ) ≤ |100 * (dark : ℚ) / ((n : ℚ) * n) - 50|) ∧
    (dark ≤ n * n → ratioPoints n dark ≤ 100) ∧
    ratioPoints n 0 = 100 ∧ ratioPoints n (n * n) = 100) ∧
  (∀ n m, Square n m → penalty4 n m = ratioPoints n
    (∑ r ∈ Finset.range n, ∑ c ∈ Finset.range n, if moduleAt m r c then 1 else 0))

/-- The bounds, which 44_penalty derives from R193 to R196. -/
def Obligations.PenaltyBounds : Prop :=
  ∀ (n : Nat) (m : List (List Bool)), 21 ≤ n → n ≤ 177 → Square n m →
    penalty1 n m ≤ 2 * n * (n - 2) ∧ penalty2 n m ≤ 3 * (n - 1) ^ 2 ∧
    penalty3 n m ≤ 2 * n * (n - 6) * 80 ∧ penalty4 n m ≤ 100 ∧
    penalty1 n m + penalty2 n m + penalty3 n m + penalty4 n m < 2 ^ 23

/-- The symmetries, which 44_penalty derives: transposing changes no penalty; inverting every module changes
P1, P2 and P4 in nothing. -/
def Obligations.PenaltySymmetries : Prop :=
  ∀ (n : Nat) (m : List (List Bool)), 0 < n → Square n m →
    (penalty1 n (matrixColumns n m) = penalty1 n m ∧ penalty2 n (matrixColumns n m) = penalty2 n m ∧
      penalty3 n (matrixColumns n m) = penalty3 n m ∧ penalty4 n (matrixColumns n m) = penalty4 n m) ∧
    (penalty1 n (m.map (List.map not)) = penalty1 n m ∧
      penalty2 n (m.map (List.map not)) = penalty2 n m ∧
      penalty4 n (m.map (List.map not)) = penalty4 n m)

/-! ### The control commands (45_control) -/

/-- R210. -/
def Obligations.NopRule : Prop :=
  ∀ s : State,
    (∀ w, opc w = 0x00 → slice w 23 0 ≠ 0 → runCommand w s = .next (failed .illcmd s)) ∧
    runCommand 0x00000000#32 s = exec .nop s ∧ exec .nop s = .next (done s)

/-- R211, R252: every register to its reset value, BUF and MAT unchanged, irq 0; with a reserved bit set it
fails and resets nothing; a CMD write of any other word increments CMDCNT. -/
def Obligations.SwrstRule : Prop :=
  ∀ s : State,
    (∀ w, opc w = 0xF0 → slice w 23 0 ≠ 0 → runCommand w s = .next (failed .illcmd s)) ∧
    runCommand 0xF0000000#32 s = exec .swrst s ∧
    exec .swrst s = .next { State.reset with
      buf := s.buf, mat := s.mat, port := s.port, resp := s.resp, era := s.era, aborts := s.aborts } ∧
    (∀ t, exec .swrst s = .next t →
      (∀ r, hostReadReg r t = hostReadReg r State.reset) ∧ irq t = false ∧
      (∀ i, bufByte t i = bufByte s i) ∧ (∀ j, matByte t j = matByte s j)) ∧
    (∀ w, decode w ≠ .ok .swrst → ∃ t, runCommand w s = .next t ∧ t.cmdcnt = s.cmdcnt + 1)

/-! ### Invariants -/

/-- The reset state satisfies the invariant, which is the model's (log 4). -/
def Obligations.ResetSatisfiesInvariant : Prop := Inv State.reset

/-- R155, R157, R197 and the RAMs' form (log 4): every step keeps the invariant. -/
def Obligations.StepKeepsInvariant : Prop := ∀ s t : State, Inv s → step s = .next t → Inv t
end

