-- ==== Sys2Proof/Laws/Decode.lean ====
section
/-! SUPPORT. The decoder and the encoder as arithmetic on naturals, in the form omega reads: which words select
which row, and what number each encoding is. -/

namespace Sys2Proof

/-- AND with a mask that keeps the bits from f on. -/
theorem and_highMask (w : Word) (f : Nat) (hf : f ≤ 32) :
    (w &&& (BitVec.allOnes 32 <<< f)).toNat = w.toNat / 2 ^ f * 2 ^ f := by
  have : w &&& (BitVec.allOnes 32 <<< f) = (w >>> f) <<< f := by
    apply BitVec.eq_of_getLsbD_eq
    intro i hi
    simp only [BitVec.getLsbD_and, BitVec.getLsbD_shiftLeft, BitVec.getLsbD_ushiftRight, BitVec.getLsbD_allOnes]
    by_cases h : i < f
    · simp [h]
    · have : f + (i - f) = i := by omega
      simp [h, this, hi]
      intro _; omega
  rw [this, BitVec.toNat_shiftLeft, BitVec.toNat_ushiftRight, Nat.shiftRight_eq_div_pow, Nat.shiftLeft_eq]
  apply Nat.mod_eq_of_lt
  exact lt_of_le_of_lt (Nat.div_mul_le_self _ _) w.isLt

/-- A row whose mask keeps the bits from f on, as arithmetic. -/
theorem rowMatches_iff (w : Word) (r : OpcodeRow) (f : Nat) (hf : f ≤ 32)
    (hm : r.mask = BitVec.allOnes 32 <<< f) :
    rowMatches w r = decide (w.toNat / 2 ^ f * 2 ^ f = r.pattern.toNat) := by
  rw [rowMatches, hm, Bool.eq_iff_iff]
  simp only [beq_iff_eq, decide_eq_true_eq, BitVec.toNat_eq, and_highMask w f hf]

/-- How many field bits the row of a mnemonic has (R91). -/
def fieldBits : Mnemonic → Nat
  | .nop | .bsreset | .bspad | .swrst => 0
  | .gfmul | .gfdiv | .eccblk => 16
  | .gfexp | .gflog => 8
  | .pdiv | .rsenc => 5
  | .bsappend | .bsget => 6
  | .pscore => 4

theorem opcodeMap_mask : ∀ r ∈ opcodeMap, r.mask = BitVec.allOnes 32 <<< fieldBits r.mnemonic := by decide

theorem fieldBits_le (m : Mnemonic) : fieldBits m ≤ 32 := by cases m <;> decide

/-- The row of a mnemonic. -/
def rowOf : Mnemonic → OpcodeRow
  | .nop => ⟨.nop, 0x00000000#32, 0xFFFFFFFF#32⟩
  | .gfmul => ⟨.gfmul, 0x01000000#32, 0xFFFF0000#32⟩
  | .gfdiv => ⟨.gfdiv, 0x02000000#32, 0xFFFF0000#32⟩
  | .gfexp => ⟨.gfexp, 0x03000000#32, 0xFFFFFF00#32⟩
  | .gflog => ⟨.gflog, 0x04000000#32, 0xFFFFFF00#32⟩
  | .pdiv => ⟨.pdiv, 0x10000000#32, 0xFFFFFFE0#32⟩
  | .rsenc => ⟨.rsenc, 0x11000000#32, 0xFFFFFFE0#32⟩
  | .eccblk => ⟨.eccblk, 0x12000000#32, 0xFFFF0000#32⟩
  | .bsreset => ⟨.bsreset, 0x20000000#32, 0xFFFFFFFF#32⟩
  | .bsappend => ⟨.bsappend, 0x21000000#32, 0xFFFFFFC0#32⟩
  | .bspad => ⟨.bspad, 0x22000000#32, 0xFFFFFFFF#32⟩
  | .bsget => ⟨.bsget, 0x23000000#32, 0xFFFFFFC0#32⟩
  | .pscore => ⟨.pscore, 0x30000000#32, 0xFFFFFFF0#32⟩
  | .swrst => ⟨.swrst, 0xF0000000#32, 0xFFFFFFFF#32⟩

theorem mem_opcodeMap (r : OpcodeRow) (h : r ∈ opcodeMap) : r = rowOf r.mnemonic := by
  revert r; decide

theorem rowOf_mem (m : Mnemonic) : rowOf m ∈ opcodeMap := by cases m <;> decide

/-- The OPC of a mnemonic (R93). -/
def opcNumber : Mnemonic → Nat
  | .nop => 0x00
  | .gfmul => 0x01
  | .gfdiv => 0x02
  | .gfexp => 0x03
  | .gflog => 0x04
  | .pdiv => 0x10
  | .rsenc => 0x11
  | .eccblk => 0x12
  | .bsreset => 0x20
  | .bsappend => 0x21
  | .bspad => 0x22
  | .bsget => 0x23
  | .pscore => 0x30
  | .swrst => 0xF0

/-- A word selects the row of a mnemonic exactly when its OPC is that row's and the bits between OPC and the
fields are zero. -/
theorem rowMatches_rowOf (w : Word) (m : Mnemonic) :
    rowMatches w (rowOf m) = true ↔
      w.toNat / 2 ^ fieldBits m = opcNumber m * 2 ^ (24 - fieldBits m) := by
  rw [rowMatches_iff w (rowOf m) (fieldBits m) (fieldBits_le m) (by cases m <;> decide), decide_eq_true_eq]
  cases m <;> simp only [rowOf, fieldBits, opcNumber, BitVec.toNat_ofNat] <;> omega

/-- The rows of two mnemonics never match one word. -/
theorem rowMatches_unique (w : Word) (m m' : Mnemonic) (h : rowMatches w (rowOf m) = true)
    (h' : rowMatches w (rowOf m') = true) : m = m' := by
  rw [rowMatches_rowOf] at h h'
  have key : ∀ m : Mnemonic, w.toNat / 2 ^ fieldBits m = opcNumber m * 2 ^ (24 - fieldBits m) →
      w.toNat / 2 ^ 24 = opcNumber m := by
    intro m hm
    cases m <;> simp only [fieldBits, opcNumber] at hm ⊢ <;> omega
  have e : opcNumber m = opcNumber m' := by rw [← key m h, ← key m' h']
  revert e
  cases m <;> cases m' <;> decide

/-- The row a word selects. -/
theorem findRow_eq_some (w : Word) (m : Mnemonic) :
    findRow w = some (rowOf m) ↔ rowMatches w (rowOf m) = true := by
  constructor
  · exact fun h => List.find?_some h
  · intro h
    cases hf : findRow w with
    | none => exact absurd h (by simpa using List.find?_eq_none.mp hf _ (rowOf_mem m))
    | some r =>
      have hr := mem_opcodeMap r (List.mem_of_find?_eq_some hf)
      rw [hr] at hf ⊢
      rw [rowMatches_unique w _ m (List.find?_some hf) h]

/-- A word that selects a row decodes to that row's command. -/
theorem decode_of_row {w : Word} {m : Mnemonic} (h : rowMatches w (rowOf m) = true) :
    decode w = .ok (withFields m w) := by
  have := (findRow_eq_some w m).mpr h
  simp only [decode, this]
  cases m <;> rfl

/-- A word that selects no row is found none. -/
theorem findRow_eq_none {w : Word} (h : ∀ m, rowMatches w (rowOf m) = false) : findRow w = none := by
  rw [findRow, List.find?_eq_none]
  intro r hr
  rw [mem_opcodeMap r hr, h]; simp

/-- A word that decodes selects the row of its command. -/
theorem row_of_decode {w : Word} {i : Instr} (h : decode w = .ok i) :
    ∃ m, rowMatches w (rowOf m) = true ∧ i = withFields m w := by
  simp only [decode] at h
  split at h
  · rename_i r hf
    have hr := mem_opcodeMap r (List.mem_of_find?_eq_some hf)
    refine ⟨r.mnemonic, ?_, by injection h with h; exact h.symm⟩
    rw [← hr]; exact List.find?_some hf
  · split at h <;> simp at h

/-- The number a two-byte encoding is. -/
theorem toNat_twoFields (k a b : Nat) (hk : k < 256) (ha : a < 256) (hb : b < 256) :
    (BitVec.ofNat 32 (k * 2 ^ 24) ||| BitVec.ofNat 32 a <<< 8 ||| BitVec.ofNat 32 b).toNat =
      k * 2 ^ 24 + a * 2 ^ 8 + b := by
  simp only [BitVec.toNat_or, BitVec.toNat_ofNat, BitVec.toNat_shiftLeft]
  rw [Nat.mod_eq_of_lt (show k * 2 ^ 24 < 2 ^ 32 by omega), Nat.mod_eq_of_lt (show a < 2 ^ 32 by omega),
    Nat.mod_eq_of_lt (show b < 2 ^ 32 by omega), Nat.shiftLeft_eq,
    Nat.mod_eq_of_lt (show a * 2 ^ 8 < 2 ^ 32 by omega)]
  have e1 : k * 2 ^ 24 ||| a * 2 ^ 8 = (k * 2 ^ 16 + a) * 2 ^ 8 := by
    have : k * 2 ^ 24 = (k * 2 ^ 16) * 2 ^ 8 := by ring
    rw [this, ← Nat.shiftLeft_eq, ← Nat.shiftLeft_eq a, ← Nat.shiftLeft_or_distrib, ← Nat.shiftLeft_eq k,
      ← Nat.shiftLeft_add_eq_or_of_lt (show a < 2 ^ 16 by omega), Nat.shiftLeft_eq, Nat.shiftLeft_eq]
  rw [e1, ← Nat.shiftLeft_eq, ← Nat.shiftLeft_add_eq_or_of_lt (show b < 2 ^ 8 by omega), Nat.shiftLeft_eq]
  ring

/-- The number a one-field encoding is. -/
theorem toNat_oneField (k n : Nat) (hk : k < 256) (hn : n < 256) :
    (BitVec.ofNat 32 (k * 2 ^ 24) ||| BitVec.ofNat 32 n).toNat = k * 2 ^ 24 + n := by
  have := toNat_twoFields k 0 n hk (by omega) hn
  simpa using this

theorem zext32_eq (b : Byte) : zext32 b = BitVec.ofNat 32 b.toNat := by
  apply BitVec.eq_of_toNat_eq
  have := b.isLt
  simp only [zext32, BitVec.toNat_setWidth, BitVec.toNat_ofNat]

/-- The number a command's fields make: the low bits of its encoding. -/
def fieldValue : Instr → Nat
  | .gfmul a b | .gfdiv a b => a.toNat * 256 + b.toNat
  | .gfexp x | .gflog x => x.toNat
  | .pdiv n | .rsenc n => n
  | .eccblk k e => k * 256 + e
  | .bsappend w | .bsget w => w
  | .pscore m => m
  | .nop | .bsreset | .bspad | .swrst => 0

theorem encode_toNat_gfmul (a b : Byte) :
    (encode (.gfmul a b)).toNat = opcNumber .gfmul * 2 ^ 24 + fieldValue (.gfmul a b) := by
    have := toNat_twoFields 1 a.toNat b.toNat (by omega) a.isLt b.isLt
    simpa [encode, opcNumber, fieldValue, Instr.mnemonic, zext32_eq, Nat.add_assoc] using this

theorem encode_toNat_gfdiv (a b : Byte) :
    (encode (.gfdiv a b)).toNat = opcNumber .gfdiv * 2 ^ 24 + fieldValue (.gfdiv a b) := by
    have := toNat_twoFields 2 a.toNat b.toNat (by omega) a.isLt b.isLt
    simpa [encode, opcNumber, fieldValue, Instr.mnemonic, zext32_eq, Nat.add_assoc] using this

theorem encode_toNat_gfexp (x : Byte) :
    (encode (.gfexp x)).toNat = opcNumber .gfexp * 2 ^ 24 + fieldValue (.gfexp x) := by
    have := toNat_oneField 3 x.toNat (by omega) x.isLt
    simpa [encode, opcNumber, fieldValue, Instr.mnemonic, zext32_eq] using this

theorem encode_toNat_gflog (x : Byte) :
    (encode (.gflog x)).toNat = opcNumber .gflog * 2 ^ 24 + fieldValue (.gflog x) := by
    have := toNat_oneField 4 x.toNat (by omega) x.isLt
    simpa [encode, opcNumber, fieldValue, Instr.mnemonic, zext32_eq] using this

theorem encode_toNat_pdiv (n : Nat) (h : (Instr.pdiv n).wf = true) :
    (encode (.pdiv n)).toNat = opcNumber .pdiv * 2 ^ 24 + fieldValue (.pdiv n) := by
    simp only [Instr.wf, decide_eq_true_eq] at h
    have := toNat_oneField 16 n (by omega) (by omega)
    simpa [encode, opcNumber, fieldValue, Instr.mnemonic] using this

theorem encode_toNat_rsenc (n : Nat) (h : (Instr.rsenc n).wf = true) :
    (encode (.rsenc n)).toNat = opcNumber .rsenc * 2 ^ 24 + fieldValue (.rsenc n) := by
    simp only [Instr.wf, decide_eq_true_eq] at h
    have := toNat_oneField 17 n (by omega) (by omega)
    simpa [encode, opcNumber, fieldValue, Instr.mnemonic] using this

theorem encode_toNat_eccblk (k e : Nat) (h : (Instr.eccblk k e).wf = true) :
    (encode (.eccblk k e)).toNat = opcNumber .eccblk * 2 ^ 24 + fieldValue (.eccblk k e) := by
    simp only [Instr.wf, Bool.and_eq_true, decide_eq_true_eq] at h
    have := toNat_twoFields 18 k e (by omega) (by omega) (by omega)
    simpa [encode, opcNumber, fieldValue, Instr.mnemonic, Nat.add_assoc] using this

theorem encode_toNat_bsappend (w : Nat) (h : (Instr.bsappend w).wf = true) :
    (encode (.bsappend w)).toNat = opcNumber .bsappend * 2 ^ 24 + fieldValue (.bsappend w) := by
    simp only [Instr.wf, decide_eq_true_eq] at h
    have := toNat_oneField 33 w (by omega) (by omega)
    simpa [encode, opcNumber, fieldValue, Instr.mnemonic] using this

theorem encode_toNat_bsget (w : Nat) (h : (Instr.bsget w).wf = true) :
    (encode (.bsget w)).toNat = opcNumber .bsget * 2 ^ 24 + fieldValue (.bsget w) := by
    simp only [Instr.wf, decide_eq_true_eq] at h
    have := toNat_oneField 35 w (by omega) (by omega)
    simpa [encode, opcNumber, fieldValue, Instr.mnemonic] using this

theorem encode_toNat_pscore (m : Nat) (h : (Instr.pscore m).wf = true) :
    (encode (.pscore m)).toNat = opcNumber .pscore * 2 ^ 24 + fieldValue (.pscore m) := by
    simp only [Instr.wf, decide_eq_true_eq] at h
    have := toNat_oneField 48 m (by omega) (by omega)
    simpa [encode, opcNumber, fieldValue, Instr.mnemonic] using this

/-- An encoding is OPC · 2^24 plus its fields (R93). -/
theorem encode_toNat (i : Instr) (h : i.wf = true) :
    (encode i).toNat = opcNumber i.mnemonic * 2 ^ 24 + fieldValue i := by
  cases i with
  | nop | bsreset | bspad | swrst => simp [encode, opcNumber, fieldValue, Instr.mnemonic]
  | gfmul a b => exact encode_toNat_gfmul a b
  | gfdiv a b => exact encode_toNat_gfdiv a b
  | gfexp x => exact encode_toNat_gfexp x
  | gflog x => exact encode_toNat_gflog x
  | pdiv n => exact encode_toNat_pdiv n h
  | rsenc n => exact encode_toNat_rsenc n h
  | eccblk k e => exact encode_toNat_eccblk k e h
  | bsappend w => exact encode_toNat_bsappend w h
  | bsget w => exact encode_toNat_bsget w h
  | pscore m => exact encode_toNat_pscore m h

end Sys2Proof
end

