-- ==== Sys2Proof/Laws/State.lean ====
section
/-! SUPPORT. One lemma per field per shared update: what each leaves in each field, so that no proof unfolds a
record update. -/

namespace Sys2Proof.Machine

/-! memWrite -/

@[simp] theorem memWrite_errcode (addr : Nat) (bytes : List Byte) (s : State) : (memWrite addr bytes s).errcode = s.errcode := rfl
@[simp] theorem memWrite_sticky (addr : Nat) (bytes : List Byte) (s : State) : (memWrite addr bytes s).sticky = s.sticky := rfl
@[simp] theorem memWrite_ie (addr : Nat) (bytes : List Byte) (s : State) : (memWrite addr bytes s).ie = s.ie := rfl
@[simp] theorem memWrite_a (addr : Nat) (bytes : List Byte) (s : State) : (memWrite addr bytes s).a = s.a := rfl
@[simp] theorem memWrite_b (addr : Nat) (bytes : List Byte) (s : State) : (memWrite addr bytes s).b = s.b := rfl
@[simp] theorem memWrite_c (addr : Nat) (bytes : List Byte) (s : State) : (memWrite addr bytes s).c = s.c := rfl
@[simp] theorem memWrite_d (addr : Nat) (bytes : List Byte) (s : State) : (memWrite addr bytes s).d = s.d := rfl
@[simp] theorem memWrite_result (addr : Nat) (bytes : List Byte) (s : State) : (memWrite addr bytes s).result = s.result := rfl
@[simp] theorem memWrite_cmdcnt (addr : Nat) (bytes : List Byte) (s : State) : (memWrite addr bytes s).cmdcnt = s.cmdcnt := rfl
@[simp] theorem memWrite_bsbase (addr : Nat) (bytes : List Byte) (s : State) : (memWrite addr bytes s).bsbase = s.bsbase := rfl
@[simp] theorem memWrite_bscap (addr : Nat) (bytes : List Byte) (s : State) : (memWrite addr bytes s).bscap = s.bscap := rfl
@[simp] theorem memWrite_bslen (addr : Nat) (bytes : List Byte) (s : State) : (memWrite addr bytes s).bslen = s.bslen := rfl
@[simp] theorem memWrite_bsrd (addr : Nat) (bytes : List Byte) (s : State) : (memWrite addr bytes s).bsrd = s.bsrd := rfl
@[simp] theorem memWrite_msize (addr : Nat) (bytes : List Byte) (s : State) : (memWrite addr bytes s).msize = s.msize := rfl
@[simp] theorem memWrite_pen1 (addr : Nat) (bytes : List Byte) (s : State) : (memWrite addr bytes s).pen1 = s.pen1 := rfl
@[simp] theorem memWrite_pen2 (addr : Nat) (bytes : List Byte) (s : State) : (memWrite addr bytes s).pen2 = s.pen2 := rfl
@[simp] theorem memWrite_pen3 (addr : Nat) (bytes : List Byte) (s : State) : (memWrite addr bytes s).pen3 = s.pen3 := rfl
@[simp] theorem memWrite_pen4 (addr : Nat) (bytes : List Byte) (s : State) : (memWrite addr bytes s).pen4 = s.pen4 := rfl
@[simp] theorem memWrite_buf (addr : Nat) (bytes : List Byte) (s : State) : (memWrite addr bytes s).buf = Memory.storeBytes s.buf addr bytes := rfl
@[simp] theorem memWrite_mat (addr : Nat) (bytes : List Byte) (s : State) : (memWrite addr bytes s).mat = s.mat := rfl
@[simp] theorem memWrite_port (addr : Nat) (bytes : List Byte) (s : State) : (memWrite addr bytes s).port = s.port := rfl
@[simp] theorem memWrite_resp (addr : Nat) (bytes : List Byte) (s : State) : (memWrite addr bytes s).resp = s.resp := rfl
@[simp] theorem memWrite_era (addr : Nat) (bytes : List Byte) (s : State) : (memWrite addr bytes s).era = s.era := rfl
@[simp] theorem memWrite_aborts (addr : Nat) (bytes : List Byte) (s : State) : (memWrite addr bytes s).aborts = s.aborts := rfl

/-! matWrite -/

@[simp] theorem matWrite_errcode (addr : Nat) (bytes : List Byte) (s : State) : (matWrite addr bytes s).errcode = s.errcode := rfl
@[simp] theorem matWrite_sticky (addr : Nat) (bytes : List Byte) (s : State) : (matWrite addr bytes s).sticky = s.sticky := rfl
@[simp] theorem matWrite_ie (addr : Nat) (bytes : List Byte) (s : State) : (matWrite addr bytes s).ie = s.ie := rfl
@[simp] theorem matWrite_a (addr : Nat) (bytes : List Byte) (s : State) : (matWrite addr bytes s).a = s.a := rfl
@[simp] theorem matWrite_b (addr : Nat) (bytes : List Byte) (s : State) : (matWrite addr bytes s).b = s.b := rfl
@[simp] theorem matWrite_c (addr : Nat) (bytes : List Byte) (s : State) : (matWrite addr bytes s).c = s.c := rfl
@[simp] theorem matWrite_d (addr : Nat) (bytes : List Byte) (s : State) : (matWrite addr bytes s).d = s.d := rfl
@[simp] theorem matWrite_result (addr : Nat) (bytes : List Byte) (s : State) : (matWrite addr bytes s).result = s.result := rfl
@[simp] theorem matWrite_cmdcnt (addr : Nat) (bytes : List Byte) (s : State) : (matWrite addr bytes s).cmdcnt = s.cmdcnt := rfl
@[simp] theorem matWrite_bsbase (addr : Nat) (bytes : List Byte) (s : State) : (matWrite addr bytes s).bsbase = s.bsbase := rfl
@[simp] theorem matWrite_bscap (addr : Nat) (bytes : List Byte) (s : State) : (matWrite addr bytes s).bscap = s.bscap := rfl
@[simp] theorem matWrite_bslen (addr : Nat) (bytes : List Byte) (s : State) : (matWrite addr bytes s).bslen = s.bslen := rfl
@[simp] theorem matWrite_bsrd (addr : Nat) (bytes : List Byte) (s : State) : (matWrite addr bytes s).bsrd = s.bsrd := rfl
@[simp] theorem matWrite_msize (addr : Nat) (bytes : List Byte) (s : State) : (matWrite addr bytes s).msize = s.msize := rfl
@[simp] theorem matWrite_pen1 (addr : Nat) (bytes : List Byte) (s : State) : (matWrite addr bytes s).pen1 = s.pen1 := rfl
@[simp] theorem matWrite_pen2 (addr : Nat) (bytes : List Byte) (s : State) : (matWrite addr bytes s).pen2 = s.pen2 := rfl
@[simp] theorem matWrite_pen3 (addr : Nat) (bytes : List Byte) (s : State) : (matWrite addr bytes s).pen3 = s.pen3 := rfl
@[simp] theorem matWrite_pen4 (addr : Nat) (bytes : List Byte) (s : State) : (matWrite addr bytes s).pen4 = s.pen4 := rfl
@[simp] theorem matWrite_buf (addr : Nat) (bytes : List Byte) (s : State) : (matWrite addr bytes s).buf = s.buf := rfl
@[simp] theorem matWrite_mat (addr : Nat) (bytes : List Byte) (s : State) : (matWrite addr bytes s).mat = Memory.storeBytes s.mat addr bytes := rfl
@[simp] theorem matWrite_port (addr : Nat) (bytes : List Byte) (s : State) : (matWrite addr bytes s).port = s.port := rfl
@[simp] theorem matWrite_resp (addr : Nat) (bytes : List Byte) (s : State) : (matWrite addr bytes s).resp = s.resp := rfl
@[simp] theorem matWrite_era (addr : Nat) (bytes : List Byte) (s : State) : (matWrite addr bytes s).era = s.era := rfl
@[simp] theorem matWrite_aborts (addr : Nat) (bytes : List Byte) (s : State) : (matWrite addr bytes s).aborts = s.aborts := rfl

/-! setByteResult -/

@[simp] theorem setByteResult_errcode (v : Byte) (s : State) : (setByteResult v s).errcode = s.errcode := rfl
@[simp] theorem setByteResult_sticky (v : Byte) (s : State) : (setByteResult v s).sticky = s.sticky := rfl
@[simp] theorem setByteResult_ie (v : Byte) (s : State) : (setByteResult v s).ie = s.ie := rfl
@[simp] theorem setByteResult_a (v : Byte) (s : State) : (setByteResult v s).a = s.a := rfl
@[simp] theorem setByteResult_b (v : Byte) (s : State) : (setByteResult v s).b = s.b := rfl
@[simp] theorem setByteResult_c (v : Byte) (s : State) : (setByteResult v s).c = s.c := rfl
@[simp] theorem setByteResult_d (v : Byte) (s : State) : (setByteResult v s).d = s.d := rfl
@[simp] theorem setByteResult_result (v : Byte) (s : State) : (setByteResult v s).result = zext32 v := rfl
@[simp] theorem setByteResult_cmdcnt (v : Byte) (s : State) : (setByteResult v s).cmdcnt = s.cmdcnt := rfl
@[simp] theorem setByteResult_bsbase (v : Byte) (s : State) : (setByteResult v s).bsbase = s.bsbase := rfl
@[simp] theorem setByteResult_bscap (v : Byte) (s : State) : (setByteResult v s).bscap = s.bscap := rfl
@[simp] theorem setByteResult_bslen (v : Byte) (s : State) : (setByteResult v s).bslen = s.bslen := rfl
@[simp] theorem setByteResult_bsrd (v : Byte) (s : State) : (setByteResult v s).bsrd = s.bsrd := rfl
@[simp] theorem setByteResult_msize (v : Byte) (s : State) : (setByteResult v s).msize = s.msize := rfl
@[simp] theorem setByteResult_pen1 (v : Byte) (s : State) : (setByteResult v s).pen1 = s.pen1 := rfl
@[simp] theorem setByteResult_pen2 (v : Byte) (s : State) : (setByteResult v s).pen2 = s.pen2 := rfl
@[simp] theorem setByteResult_pen3 (v : Byte) (s : State) : (setByteResult v s).pen3 = s.pen3 := rfl
@[simp] theorem setByteResult_pen4 (v : Byte) (s : State) : (setByteResult v s).pen4 = s.pen4 := rfl
@[simp] theorem setByteResult_buf (v : Byte) (s : State) : (setByteResult v s).buf = s.buf := rfl
@[simp] theorem setByteResult_mat (v : Byte) (s : State) : (setByteResult v s).mat = s.mat := rfl
@[simp] theorem setByteResult_port (v : Byte) (s : State) : (setByteResult v s).port = s.port := rfl
@[simp] theorem setByteResult_resp (v : Byte) (s : State) : (setByteResult v s).resp = s.resp := rfl
@[simp] theorem setByteResult_era (v : Byte) (s : State) : (setByteResult v s).era = s.era := rfl
@[simp] theorem setByteResult_aborts (v : Byte) (s : State) : (setByteResult v s).aborts = s.aborts := rfl

/-! raiseError -/

@[simp] theorem raiseError_errcode (e : ErrCode) (s : State) : (raiseError e s).errcode = e := rfl
@[simp] theorem raiseError_sticky (e : ErrCode) (s : State) : (raiseError e s).sticky = true := rfl
@[simp] theorem raiseError_ie (e : ErrCode) (s : State) : (raiseError e s).ie = s.ie := rfl
@[simp] theorem raiseError_a (e : ErrCode) (s : State) : (raiseError e s).a = s.a := rfl
@[simp] theorem raiseError_b (e : ErrCode) (s : State) : (raiseError e s).b = s.b := rfl
@[simp] theorem raiseError_c (e : ErrCode) (s : State) : (raiseError e s).c = s.c := rfl
@[simp] theorem raiseError_d (e : ErrCode) (s : State) : (raiseError e s).d = s.d := rfl
@[simp] theorem raiseError_result (e : ErrCode) (s : State) : (raiseError e s).result = s.result := rfl
@[simp] theorem raiseError_cmdcnt (e : ErrCode) (s : State) : (raiseError e s).cmdcnt = s.cmdcnt + 1 := rfl
@[simp] theorem raiseError_bsbase (e : ErrCode) (s : State) : (raiseError e s).bsbase = s.bsbase := rfl
@[simp] theorem raiseError_bscap (e : ErrCode) (s : State) : (raiseError e s).bscap = s.bscap := rfl
@[simp] theorem raiseError_bslen (e : ErrCode) (s : State) : (raiseError e s).bslen = s.bslen := rfl
@[simp] theorem raiseError_bsrd (e : ErrCode) (s : State) : (raiseError e s).bsrd = s.bsrd := rfl
@[simp] theorem raiseError_msize (e : ErrCode) (s : State) : (raiseError e s).msize = s.msize := rfl
@[simp] theorem raiseError_pen1 (e : ErrCode) (s : State) : (raiseError e s).pen1 = s.pen1 := rfl
@[simp] theorem raiseError_pen2 (e : ErrCode) (s : State) : (raiseError e s).pen2 = s.pen2 := rfl
@[simp] theorem raiseError_pen3 (e : ErrCode) (s : State) : (raiseError e s).pen3 = s.pen3 := rfl
@[simp] theorem raiseError_pen4 (e : ErrCode) (s : State) : (raiseError e s).pen4 = s.pen4 := rfl
@[simp] theorem raiseError_buf (e : ErrCode) (s : State) : (raiseError e s).buf = s.buf := rfl
@[simp] theorem raiseError_mat (e : ErrCode) (s : State) : (raiseError e s).mat = s.mat := rfl
@[simp] theorem raiseError_port (e : ErrCode) (s : State) : (raiseError e s).port = s.port := rfl
@[simp] theorem raiseError_resp (e : ErrCode) (s : State) : (raiseError e s).resp = s.resp := rfl
@[simp] theorem raiseError_era (e : ErrCode) (s : State) : (raiseError e s).era = s.era := rfl
@[simp] theorem raiseError_aborts (e : ErrCode) (s : State) : (raiseError e s).aborts = s.aborts := rfl

/-! finish -/

@[simp] theorem finish_errcode (s : State) : (finish s).errcode = .ok := rfl
@[simp] theorem finish_sticky (s : State) : (finish s).sticky = s.sticky := rfl
@[simp] theorem finish_ie (s : State) : (finish s).ie = s.ie := rfl
@[simp] theorem finish_a (s : State) : (finish s).a = s.a := rfl
@[simp] theorem finish_b (s : State) : (finish s).b = s.b := rfl
@[simp] theorem finish_c (s : State) : (finish s).c = s.c := rfl
@[simp] theorem finish_d (s : State) : (finish s).d = s.d := rfl
@[simp] theorem finish_result (s : State) : (finish s).result = s.result := rfl
@[simp] theorem finish_cmdcnt (s : State) : (finish s).cmdcnt = s.cmdcnt + 1 := rfl
@[simp] theorem finish_bsbase (s : State) : (finish s).bsbase = s.bsbase := rfl
@[simp] theorem finish_bscap (s : State) : (finish s).bscap = s.bscap := rfl
@[simp] theorem finish_bslen (s : State) : (finish s).bslen = s.bslen := rfl
@[simp] theorem finish_bsrd (s : State) : (finish s).bsrd = s.bsrd := rfl
@[simp] theorem finish_msize (s : State) : (finish s).msize = s.msize := rfl
@[simp] theorem finish_pen1 (s : State) : (finish s).pen1 = s.pen1 := rfl
@[simp] theorem finish_pen2 (s : State) : (finish s).pen2 = s.pen2 := rfl
@[simp] theorem finish_pen3 (s : State) : (finish s).pen3 = s.pen3 := rfl
@[simp] theorem finish_pen4 (s : State) : (finish s).pen4 = s.pen4 := rfl
@[simp] theorem finish_buf (s : State) : (finish s).buf = s.buf := rfl
@[simp] theorem finish_mat (s : State) : (finish s).mat = s.mat := rfl
@[simp] theorem finish_port (s : State) : (finish s).port = s.port := rfl
@[simp] theorem finish_resp (s : State) : (finish s).resp = s.resp := rfl
@[simp] theorem finish_era (s : State) : (finish s).era = s.era := rfl
@[simp] theorem finish_aborts (s : State) : (finish s).aborts = s.aborts := rfl

/-! clearSticky -/

@[simp] theorem clearSticky_errcode (s : State) : (clearSticky s).errcode = s.errcode := rfl
@[simp] theorem clearSticky_sticky (s : State) : (clearSticky s).sticky = false := rfl
@[simp] theorem clearSticky_ie (s : State) : (clearSticky s).ie = s.ie := rfl
@[simp] theorem clearSticky_a (s : State) : (clearSticky s).a = s.a := rfl
@[simp] theorem clearSticky_b (s : State) : (clearSticky s).b = s.b := rfl
@[simp] theorem clearSticky_c (s : State) : (clearSticky s).c = s.c := rfl
@[simp] theorem clearSticky_d (s : State) : (clearSticky s).d = s.d := rfl
@[simp] theorem clearSticky_result (s : State) : (clearSticky s).result = s.result := rfl
@[simp] theorem clearSticky_cmdcnt (s : State) : (clearSticky s).cmdcnt = s.cmdcnt := rfl
@[simp] theorem clearSticky_bsbase (s : State) : (clearSticky s).bsbase = s.bsbase := rfl
@[simp] theorem clearSticky_bscap (s : State) : (clearSticky s).bscap = s.bscap := rfl
@[simp] theorem clearSticky_bslen (s : State) : (clearSticky s).bslen = s.bslen := rfl
@[simp] theorem clearSticky_bsrd (s : State) : (clearSticky s).bsrd = s.bsrd := rfl
@[simp] theorem clearSticky_msize (s : State) : (clearSticky s).msize = s.msize := rfl
@[simp] theorem clearSticky_pen1 (s : State) : (clearSticky s).pen1 = s.pen1 := rfl
@[simp] theorem clearSticky_pen2 (s : State) : (clearSticky s).pen2 = s.pen2 := rfl
@[simp] theorem clearSticky_pen3 (s : State) : (clearSticky s).pen3 = s.pen3 := rfl
@[simp] theorem clearSticky_pen4 (s : State) : (clearSticky s).pen4 = s.pen4 := rfl
@[simp] theorem clearSticky_buf (s : State) : (clearSticky s).buf = s.buf := rfl
@[simp] theorem clearSticky_mat (s : State) : (clearSticky s).mat = s.mat := rfl
@[simp] theorem clearSticky_port (s : State) : (clearSticky s).port = s.port := rfl
@[simp] theorem clearSticky_resp (s : State) : (clearSticky s).resp = s.resp := rfl
@[simp] theorem clearSticky_era (s : State) : (clearSticky s).era = s.era := rfl
@[simp] theorem clearSticky_aborts (s : State) : (clearSticky s).aborts = s.aborts := rfl

/-! resetRegisters -/

@[simp] theorem resetRegisters_errcode (s : State) : (resetRegisters s).errcode = .ok := rfl
@[simp] theorem resetRegisters_sticky (s : State) : (resetRegisters s).sticky = false := rfl
@[simp] theorem resetRegisters_ie (s : State) : (resetRegisters s).ie = false := rfl
@[simp] theorem resetRegisters_a (s : State) : (resetRegisters s).a = 0 := rfl
@[simp] theorem resetRegisters_b (s : State) : (resetRegisters s).b = 0 := rfl
@[simp] theorem resetRegisters_c (s : State) : (resetRegisters s).c = 0 := rfl
@[simp] theorem resetRegisters_d (s : State) : (resetRegisters s).d = 0 := rfl
@[simp] theorem resetRegisters_result (s : State) : (resetRegisters s).result = 0 := rfl
@[simp] theorem resetRegisters_cmdcnt (s : State) : (resetRegisters s).cmdcnt = 0 := rfl
@[simp] theorem resetRegisters_bsbase (s : State) : (resetRegisters s).bsbase = 0 := rfl
@[simp] theorem resetRegisters_bscap (s : State) : (resetRegisters s).bscap = 0 := rfl
@[simp] theorem resetRegisters_bslen (s : State) : (resetRegisters s).bslen = 0 := rfl
@[simp] theorem resetRegisters_bsrd (s : State) : (resetRegisters s).bsrd = 0 := rfl
@[simp] theorem resetRegisters_msize (s : State) : (resetRegisters s).msize = 0 := rfl
@[simp] theorem resetRegisters_pen1 (s : State) : (resetRegisters s).pen1 = 0 := rfl
@[simp] theorem resetRegisters_pen2 (s : State) : (resetRegisters s).pen2 = 0 := rfl
@[simp] theorem resetRegisters_pen3 (s : State) : (resetRegisters s).pen3 = 0 := rfl
@[simp] theorem resetRegisters_pen4 (s : State) : (resetRegisters s).pen4 = 0 := rfl
@[simp] theorem resetRegisters_buf (s : State) : (resetRegisters s).buf = s.buf := rfl
@[simp] theorem resetRegisters_mat (s : State) : (resetRegisters s).mat = s.mat := rfl
@[simp] theorem resetRegisters_port (s : State) : (resetRegisters s).port = s.port := rfl
@[simp] theorem resetRegisters_resp (s : State) : (resetRegisters s).resp = s.resp := rfl
@[simp] theorem resetRegisters_era (s : State) : (resetRegisters s).era = s.era := rfl
@[simp] theorem resetRegisters_aborts (s : State) : (resetRegisters s).aborts = s.aborts := rfl

/-! putBit -/

@[simp] theorem putBit_errcode (bit : Bool) (s : State) : (putBit bit s).errcode = s.errcode := rfl
@[simp] theorem putBit_sticky (bit : Bool) (s : State) : (putBit bit s).sticky = s.sticky := rfl
@[simp] theorem putBit_ie (bit : Bool) (s : State) : (putBit bit s).ie = s.ie := rfl
@[simp] theorem putBit_a (bit : Bool) (s : State) : (putBit bit s).a = s.a := rfl
@[simp] theorem putBit_b (bit : Bool) (s : State) : (putBit bit s).b = s.b := rfl
@[simp] theorem putBit_c (bit : Bool) (s : State) : (putBit bit s).c = s.c := rfl
@[simp] theorem putBit_d (bit : Bool) (s : State) : (putBit bit s).d = s.d := rfl
@[simp] theorem putBit_result (bit : Bool) (s : State) : (putBit bit s).result = s.result := rfl
@[simp] theorem putBit_cmdcnt (bit : Bool) (s : State) : (putBit bit s).cmdcnt = s.cmdcnt := rfl
@[simp] theorem putBit_bsbase (bit : Bool) (s : State) : (putBit bit s).bsbase = s.bsbase := rfl
@[simp] theorem putBit_bscap (bit : Bool) (s : State) : (putBit bit s).bscap = s.bscap := rfl
@[simp] theorem putBit_bslen (bit : Bool) (s : State) : (putBit bit s).bslen = BitVec.ofNat 32 (streamLen s + 1) := rfl
@[simp] theorem putBit_bsrd (bit : Bool) (s : State) : (putBit bit s).bsrd = s.bsrd := rfl
@[simp] theorem putBit_msize (bit : Bool) (s : State) : (putBit bit s).msize = s.msize := rfl
@[simp] theorem putBit_pen1 (bit : Bool) (s : State) : (putBit bit s).pen1 = s.pen1 := rfl
@[simp] theorem putBit_pen2 (bit : Bool) (s : State) : (putBit bit s).pen2 = s.pen2 := rfl
@[simp] theorem putBit_pen3 (bit : Bool) (s : State) : (putBit bit s).pen3 = s.pen3 := rfl
@[simp] theorem putBit_pen4 (bit : Bool) (s : State) : (putBit bit s).pen4 = s.pen4 := rfl
@[simp] theorem putBit_mat (bit : Bool) (s : State) : (putBit bit s).mat = s.mat := rfl
@[simp] theorem putBit_port (bit : Bool) (s : State) : (putBit bit s).port = s.port := rfl
@[simp] theorem putBit_resp (bit : Bool) (s : State) : (putBit bit s).resp = s.resp := rfl
@[simp] theorem putBit_era (bit : Bool) (s : State) : (putBit bit s).era = s.era := rfl
@[simp] theorem putBit_aborts (bit : Bool) (s : State) : (putBit bit s).aborts = s.aborts := rfl

end Sys2Proof.Machine
end

