-- ==== Sys2Proof/Laws/Memory.lean ====
section
/-! SUPPORT. The laws of the RAMs: what a byte reads as after a write, and that every write keeps the
canonical form. -/

namespace Sys2Proof.Machine

theorem Memory.cell_store (m : Memory) (a : Nat) (v : Byte) (i : Nat) :
    Memory.cell (Memory.store m a v) i = if a = i then some v else Memory.cell m i := by
  induction m with
  | nil => rfl
  | cons c m ih =>
    obtain ⟨k, u⟩ := c
    simp only [Memory.store]
    split
    · simp [Memory.cell]
    · split
      · subst_vars; by_cases h : k = i <;> simp [Memory.cell, h]
      · simp only [Memory.cell, ih]
        split <;> split <;> simp_all

theorem Memory.cell_storeBytes (m : Memory) (a : Nat) (vs : List Byte) (i : Nat) :
    Memory.cell (Memory.storeBytes m a vs) i =
      if h : a ≤ i ∧ i < a + vs.length then some (vs[i - a]'(by omega)) else Memory.cell m i := by
  induction vs generalizing m a with
  | nil => simp only [Memory.storeBytes, List.length_nil]; rw [dif_neg (by omega)]
  | cons v vs ih =>
    simp only [Memory.storeBytes, ih, Memory.cell_store, List.length_cons]
    by_cases h0 : a = i
    · subst h0
      rw [dif_neg (by omega), dif_pos (by omega)]
      simp
    · by_cases h1 : a + 1 ≤ i ∧ i < a + 1 + vs.length
      · rw [dif_pos h1, dif_pos (by omega)]
        obtain ⟨j, rfl⟩ : ∃ j, i = a + 1 + j := ⟨i - (a + 1), by omega⟩
        have e1 : a + 1 + j - (a + 1) = j := by omega
        have e2 : a + 1 + j - a = j + 1 := by omega
        simp only [e1, e2, List.getElem_cons_succ]
      · rw [dif_neg h1, dif_neg (by omega)]
        simp [h0]

theorem Memory.store_fst (m : Memory) (a : Nat) (v : Byte) :
    ∀ i ∈ (Memory.store m a v).map Prod.fst, i = a ∨ i ∈ m.map Prod.fst := by
  induction m with
  | nil => simp [Memory.store]
  | cons c m ih =>
    obtain ⟨k, u⟩ := c
    simp only [Memory.store]
    split
    · simp
    · split
      · intro i hi
        simp only [List.map_cons, List.mem_cons] at hi ⊢
        tauto
      · intro i hi
        simp only [List.map_cons, List.mem_cons] at hi ⊢
        rcases hi with rfl | hi
        · simp
        · rcases ih i hi with h | h <;> simp [h]

/-- A write inside the RAM keeps the canonical form. -/
theorem Memory.wf_store {size : Nat} {m : Memory} {a : Nat} {v : Byte} (h : Memory.wf size m) (ha : a < size) :
    Memory.wf size (Memory.store m a v) := by
  refine ⟨?_, fun i hi => ?_⟩
  · obtain ⟨hp, -⟩ := h
    induction m with
    | nil => simp [Memory.store]
    | cons c m ih =>
      obtain ⟨k, u⟩ := c
      simp only [List.map_cons, List.pairwise_cons] at hp
      simp only [Memory.store]
      split
      · rename_i hlt
        simp only [List.map_cons, List.pairwise_cons, List.mem_cons]
        refine ⟨?_, hp⟩
        rintro x (rfl | hx)
        · exact hlt
        · exact lt_trans hlt (hp.1 x hx)
      · split
        · rename_i heq
          subst heq
          simpa [List.pairwise_cons] using hp
        · simp only [List.map_cons, List.pairwise_cons]
          refine ⟨fun x hx => ?_, ih hp.2⟩
          rcases Memory.store_fst m a v x hx with rfl | hx
          · omega
          · exact hp.1 x hx
  · rcases Memory.store_fst m a v i hi with rfl | hi
    · exact ha
    · exact h.2 i hi

/-- A sequence of writes inside the RAM keeps the canonical form. -/
theorem Memory.wf_storeBytes {size : Nat} {m : Memory} {a : Nat} {vs : List Byte} (h : Memory.wf size m)
    (ha : a + vs.length ≤ size) : Memory.wf size (Memory.storeBytes m a vs) := by
  induction vs generalizing m a with
  | nil => exact h
  | cons v vs ih =>
    simp only [List.length_cons] at ha
    exact ih (Memory.wf_store h (by omega)) (by omega)

/-- A byte inside the written range reads as the byte written. -/
theorem bufByte_storeBytes_in (s : State) (m : Memory) (a : Nat) (vs : List Byte) (i : Nat)
    (h : i < vs.length) :
    bufByte { s with buf := Memory.storeBytes m a vs } (a + i) = vs[i] := by
  simp only [bufByte, Memory.cell_storeBytes]
  rw [dif_pos (by omega)]
  simp

/-- A byte outside the written range reads as before. -/
theorem bufByte_storeBytes_out (s : State) (m : Memory) (a : Nat) (vs : List Byte) (i : Nat)
    (h : i < a ∨ a + vs.length ≤ i) :
    bufByte { s with buf := Memory.storeBytes m a vs } i = bufByte { s with buf := m } i := by
  simp only [bufByte, Memory.cell_storeBytes]
  rw [dif_neg (by omega)]

theorem bufByte_store (s : State) (m : Memory) (a : Nat) (v : Byte) (i : Nat) :
    bufByte { s with buf := Memory.store m a v } i = if a = i then v else bufByte { s with buf := m } i := by
  simp only [bufByte, Memory.cell_store]
  split <;> simp

/-- The same for MAT: inside the written range. -/
theorem matByte_storeBytes_in (s : State) (m : Memory) (a : Nat) (vs : List Byte) (i : Nat)
    (h : i < vs.length) :
    matByte { s with mat := Memory.storeBytes m a vs } (a + i) = vs[i] := by
  simp only [matByte, Memory.cell_storeBytes]
  rw [dif_pos (by omega)]
  simp

/-- The same for MAT: outside the written range. -/
theorem matByte_storeBytes_out (s : State) (m : Memory) (a : Nat) (vs : List Byte) (i : Nat)
    (h : i < a ∨ a + vs.length ≤ i) :
    matByte { s with mat := Memory.storeBytes m a vs } i = matByte { s with mat := m } i := by
  simp only [matByte, Memory.cell_storeBytes]
  rw [dif_neg (by omega)]

/-- A byte of BUF depends on BUF and on the era only. -/
theorem bufByte_congr {s t : State} (h : t.buf = s.buf) (he : t.era = s.era) (i : Nat) :
    bufByte t i = bufByte s i := by simp [bufByte, h, he]

/-- A byte of MAT depends on MAT and on the era only. -/
theorem matByte_congr {s t : State} (h : t.mat = s.mat) (he : t.era = s.era) (i : Nat) :
    matByte t i = matByte s i := by simp [matByte, h, he]

@[simp] theorem memRead_length (s : State) (a n : Nat) : (memRead s a n).length = n := by simp [memRead]

theorem memRead_getElem (s : State) (a n i : Nat) (h : i < n) :
    (memRead s a n)[i]'(by simpa using h) = bufByte s (a + i) := by simp [memRead]

/-- Reading back a region that a sequence of its length was just written to. -/
theorem memRead_storeBytes (s : State) (m : Memory) (a : Nat) (vs : List Byte) :
    memRead { s with buf := Memory.storeBytes m a vs } a vs.length = vs := by
  apply List.ext_getElem (by simp)
  intro i h1 h2
  rw [memRead_getElem _ _ _ _ (by simpa using h1), bufByte_storeBytes_in _ _ _ _ _ h2]

/-- Both RAMs of the reset state are in canonical form. -/
theorem wf_reset : Memory.wf Config.bufSize State.reset.buf ∧ Memory.wf Config.matBytes State.reset.mat :=
  ⟨⟨List.Pairwise.nil, fun a h => by simp [State.reset] at h⟩,
    ⟨List.Pairwise.nil, fun a h => by simp [State.reset] at h⟩⟩

/-- The free values of an abandoned command keep the canonical form. -/
theorem wf_scramble (k : Nat) (rs : List (Nat × Nat)) (m : Memory) (h : Memory.wf 16384 m)
    (hr : ∀ p ∈ rs, p.1 + p.2 ≤ 16384) : Memory.wf 16384 (scramble k rs m) := by
  induction rs generalizing m with
  | nil => exact h
  | cons p rs ih =>
    obtain ⟨a, n⟩ := p
    refine ih _ (Memory.wf_storeBytes h ?_) (fun p hp => hr p (List.mem_cons_of_mem _ hp))
    rw [List.length_map, List.length_range]
    exact hr (a, n) (List.mem_cons_self ..)

end Sys2Proof.Machine
end

