-- ==== Sys2Proof/Laws/Exec.lean ====
section
/-! SUPPORT. What a command can do: its checks and its effect, the two ways it ends, and the register and
memory fields its effect leaves alone. -/

namespace Sys2Proof.Machine

/-! ### The checks -/

@[simp] theorem firstFailed_nil : firstFailed [] = none := rfl

@[simp] theorem firstFailed_true (e : ErrCode) (c : List (Bool × ErrCode)) :
    firstFailed ((true, e) :: c) = firstFailed c := rfl

@[simp] theorem firstFailed_false (e : ErrCode) (c : List (Bool × ErrCode)) :
    firstFailed ((false, e) :: c) = some e := rfl

theorem firstFailed_cons (b : Bool) (e : ErrCode) (c : List (Bool × ErrCode)) :
    firstFailed ((b, e) :: c) = if b then firstFailed c else some e := rfl

/-- The error reported is that of a check that fails. -/
theorem firstFailed_some {c : List (Bool × ErrCode)} {e : ErrCode} (h : firstFailed c = some e) :
    (false, e) ∈ c := by
  induction c with
  | nil => simp at h
  | cons p c ih =>
    obtain ⟨b, e'⟩ := p
    cases b
    · simp at h; simp [h]
    · simp at h; exact List.mem_cons_of_mem _ (ih h)

/-- No error is reported exactly when every check holds. -/
theorem firstFailed_none {c : List (Bool × ErrCode)} : firstFailed c = none ↔ ∀ p ∈ c, p.1 = true := by
  induction c with
  | nil => simp
  | cons p c ih =>
    obtain ⟨b, e⟩ := p
    cases b <;> simp [ih]

theorem runChecked_failed {c : List (Bool × ErrCode)} {f : State → State} {s : State} {e : ErrCode}
    (h : firstFailed c = some e) : runChecked c f s = .next (raiseError e s) := by simp [runChecked, h]

theorem runChecked_done {c : List (Bool × ErrCode)} {f : State → State} {s : State}
    (h : firstFailed c = none) : runChecked c f s = .next (finish (f s)) := by simp [runChecked, h]

/-- The two ways a command ends. -/
theorem runChecked_cases {c : List (Bool × ErrCode)} {f : State → State} {s t : State}
    (h : runChecked c f s = .next t) :
    (∃ e, (false, e) ∈ c ∧ t = raiseError e s) ∨ (firstFailed c = none ∧ t = finish (f s)) := by
  cases hc : firstFailed c with
  | some e =>
    rw [runChecked_failed hc] at h
    exact .inl ⟨e, firstFailed_some hc, by injection h with h; exact h.symm⟩
  | none =>
    rw [runChecked_done hc] at h
    exact .inr ⟨rfl, by injection h with h; exact h.symm⟩

theorem firstFailed_of_true {b : Bool} {e : ErrCode} {c : List (Bool × ErrCode)} (h : b = true) :
    firstFailed ((b, e) :: c) = firstFailed c := by subst h; rfl

theorem firstFailed_of_false {b : Bool} {e : ErrCode} {c : List (Bool × ErrCode)} (h : b = false) :
    firstFailed ((b, e) :: c) = some e := by subst h; rfl

/-- A check of a command that succeeds holds. -/
theorem holds_of_mem {c : List (Bool × ErrCode)} (h : firstFailed c = none) {b : Bool} {e : ErrCode}
    (hm : (b, e) ∈ c) : b = true := firstFailed_none.mp h _ hm

/-- The region check, as arithmetic (R78). -/
theorem inBuf_eq_true {a l : Nat} : inBuf a l = true ↔ a + l ≤ 16384 := by
  unfold inBuf; exact decide_eq_true_iff

theorem inBuf_eq_false {a l : Nat} : inBuf a l = false ↔ 16384 < a + l := by
  rw [← Bool.not_eq_true, inBuf_eq_true]; omega

/-! ### Checks and effects of each command -/

/-- The checks a command makes after decoding. -/
def checksOf : Instr → State → List (Bool × ErrCode)
  | .nop, _ => []
  | .gfmul _ _, _ => []
  | .gfdiv _ b, _ => [(decide (b ≠ 0), .div0)]
  | .gfexp _, _ => []
  | .gflog x, _ => [(decide (x ≠ 0), .log0)]
  | .pdiv n, s => pdivChecks n s
  | .rsenc n, s => rsencChecks n s
  | .eccblk k e, s => eccblkChecks k e s
  | .bsreset, _ => []
  | .bsappend w, s => bsappendChecks w s
  | .bspad, s => bspadChecks s
  | .bsget w, s => bsgetChecks w s
  | .pscore _, s => pscoreChecks s
  | .swrst, _ => []

/-- What a command does before the common end, when its checks hold. -/
def effectOf : Instr → State → State
  | .nop, s => s
  | .gfmul a b, s => setByteResult (gfmul a b) s
  | .gfdiv a b, s => setByteResult (gfdiv a b) s
  | .gfexp x, s => setByteResult (expRom x.toNat) s
  | .gflog x, s => setByteResult (logRom x) s
  | .pdiv n, s => pdivEffect n s
  | .rsenc n, s => rsencEffect n s
  | .eccblk k e, s => eccblkEffect k e s
  | .bsreset, s => { s with bslen := 0, bsrd := 0 }
  | .bsappend w, s => putBits (msbFirst s.a.toNat w) s
  | .bspad, s => putBits (padBits (streamLen s) (streamCap s)) s
  | .bsget w, s => bsgetEffect w s
  | .pscore m, s => pscoreEffect m s
  | .swrst, s => resetRegisters s

theorem exec_swrst (s : State) : exec .swrst s = .next (resetRegisters s) := rfl

/-- Every command but SWRST is its checks, its effect and the common end. -/
theorem exec_eq_runChecked {i : Instr} (hi : i ≠ .swrst) (s : State) :
    exec i s = runChecked (checksOf i s) (effectOf i) s := by
  cases i
  case swrst => exact absurd rfl hi
  all_goals rfl

/-- What a command can do. -/
theorem exec_cases {i : Instr} {s t : State} (h : exec i s = .next t) :
    (i = .swrst ∧ t = resetRegisters s) ∨
    (i ≠ .swrst ∧ ∃ e, (false, e) ∈ checksOf i s ∧ t = raiseError e s) ∨
    (i ≠ .swrst ∧ firstFailed (checksOf i s) = none ∧ t = finish (effectOf i s)) := by
  by_cases hi : i = .swrst
  · subst hi
    rw [exec_swrst] at h
    exact .inl ⟨rfl, by injection h with h; exact h.symm⟩
  · rw [exec_eq_runChecked hi] at h
    rcases runChecked_cases h with h | h
    · exact .inr (.inl ⟨hi, h⟩)
    · exact .inr (.inr ⟨hi, h⟩)

/-- A command with a failing check ends in its error. -/
theorem exec_failed {i : Instr} (hi : i ≠ .swrst) {s : State} {e : ErrCode}
    (h : firstFailed (checksOf i s) = some e) : exec i s = .next (raiseError e s) := by
  rw [exec_eq_runChecked hi, runChecked_failed h]

/-- A command whose checks hold has its effect and the common end. -/
theorem exec_done {i : Instr} (hi : i ≠ .swrst) {s : State} (h : firstFailed (checksOf i s) = none) :
    exec i s = .next (finish (effectOf i s)) := by
  rw [exec_eq_runChecked hi, runChecked_done h]

/-- No check of any command reports success. -/
theorem checksOf_ne_ok (i : Instr) (s : State) (b : Bool) : (b, ErrCode.ok) ∉ checksOf i s := by
  cases i <;>
    simp [checksOf, pdivChecks, rsencChecks, eccblkChecks, bsappendChecks, bspadChecks, bsgetChecks, pscoreChecks]

/-- A command ends in a next state. -/
theorem exec_next (i : Instr) (s : State) : ∃ t, exec i s = .next t := by
  cases i <;> exact ⟨_, rfl⟩

/-- The word written to CMD ends in a next state. -/
theorem runCommand_next (w : Word) (s : State) : ∃ t, runCommand w s = .next t := by
  simp only [runCommand]
  split
  · exact exec_next _ _
  · exact ⟨_, rfl⟩

/-! ### What the checks of a command that succeeds say -/

theorem pdiv_bounds {s : State} {n : Nat} (h : firstFailed (checksOf (.pdiv n) s) = none) :
    n ≤ 30 ∧ remainderAddr s + n ≤ 16384 := by
  have h1 := holds_of_mem h (b := decide (n ≤ Config.maxEcc)) (e := .badarg) (by simp [checksOf, pdivChecks])
  have h2 := holds_of_mem h (e := .range)
    (b := inBuf (polyAddr s) (polyLen s) && inBuf (divisorAddr s) (n + 1) && inBuf (remainderAddr s) n)
    (by simp [checksOf, pdivChecks])
  simp only [Bool.and_eq_true, inBuf_eq_true] at h2
  exact ⟨of_decide_eq_true h1, h2.2⟩

theorem rsenc_bounds {s : State} {n : Nat} (h : firstFailed (checksOf (.rsenc n) s) = none) :
    n ≤ 30 ∧ remainderAddr s + n ≤ 16384 := by
  have h1 := holds_of_mem h (b := decide (n ≤ Config.maxEcc)) (e := .badarg) (by simp [checksOf, rsencChecks])
  have h2 := holds_of_mem h (e := .range) (b := inBuf (polyAddr s) (polyLen s) && inBuf (remainderAddr s) n)
    (by simp [checksOf, rsencChecks])
  simp only [Bool.and_eq_true, inBuf_eq_true] at h2
  exact ⟨of_decide_eq_true h1, h2.2⟩

theorem eccblk_bounds {s : State} {k e : Nat} (h : firstFailed (checksOf (.eccblk k e) s) = none) :
    1 ≤ k ∧ e ≤ 30 ∧ e < eccTotal s / k ∧ eccWork s + k * (eccTotal s / k + 1) ≤ 16384 ∧
      eccOut s + eccTotal s ≤ 16384 := by
  have h1 := holds_of_mem h (b := decide (1 ≤ k)) (e := .badarg) (by simp [checksOf, eccblkChecks])
  have h2 := holds_of_mem h (b := decide (e ≤ Config.maxEcc)) (e := .badarg) (by simp [checksOf, eccblkChecks])
  have h3 := holds_of_mem h (b := decide (e < shortLen k (eccTotal s))) (e := .badarg)
    (by simp [checksOf, eccblkChecks])
  have h4 := holds_of_mem h (e := .range) (b := inBuf (eccSource s) (dataTotal k e (eccTotal s)) &&
    inBuf (eccWork s) (k * (shortLen k (eccTotal s) + 1)) && inBuf (eccOut s) (eccTotal s))
    (by simp [checksOf, eccblkChecks])
  simp only [Bool.and_eq_true, inBuf_eq_true] at h4
  exact ⟨of_decide_eq_true h1, of_decide_eq_true h2, of_decide_eq_true h3, h4.1.2, h4.2⟩

theorem bsappend_bounds {s : State} {w : Nat} (h : firstFailed (checksOf (.bsappend w) s) = none) :
    w ≤ 32 ∧ s.a.toNat < 2 ^ w ∧ streamBase s + (streamCap s + 7) / 8 ≤ 16384 ∧
      streamLen s + w ≤ streamCap s := by
  have h1 := holds_of_mem h (b := decide (w ≤ 32)) (e := .badarg) (by simp [checksOf, bsappendChecks])
  have h2 := holds_of_mem h (b := decide (w = 32) || decide (s.a.toNat < 2 ^ w)) (e := .width)
    (by simp [checksOf, bsappendChecks])
  have h3 := holds_of_mem h (b := inBuf (streamBase s) (ceil8 (streamCap s))) (e := .range)
    (by simp [checksOf, bsappendChecks])
  have h4 := holds_of_mem h (b := decide (streamLen s + w ≤ streamCap s)) (e := .ovf)
    (by simp [checksOf, bsappendChecks])
  rw [inBuf_eq_true] at h3
  refine ⟨of_decide_eq_true h1, ?_, h3, of_decide_eq_true h4⟩
  rcases Bool.or_eq_true _ _ ▸ h2 with h2 | h2
  · rw [of_decide_eq_true h2]; exact s.a.isLt
  · exact of_decide_eq_true h2

theorem bspad_bounds {s : State} (h : firstFailed (checksOf .bspad s) = none) :
    streamCap s % 8 = 0 ∧ streamBase s + streamCap s / 8 ≤ 16384 ∧ streamLen s ≤ streamCap s := by
  have h1 := holds_of_mem h (b := decide (streamCap s % 8 = 0)) (e := .badarg) (by simp [checksOf, bspadChecks])
  have h2 := holds_of_mem h (b := inBuf (streamBase s) (streamCap s / 8)) (e := .range)
    (by simp [checksOf, bspadChecks])
  have h3 := holds_of_mem h (b := decide (streamLen s ≤ streamCap s)) (e := .ovf)
    (by simp [checksOf, bspadChecks])
  rw [inBuf_eq_true] at h2
  exact ⟨of_decide_eq_true h1, h2, of_decide_eq_true h3⟩

/-! ### putBits -/

theorem putBits_append (xs ys : List Bool) (s : State) : putBits (xs ++ ys) s = putBits ys (putBits xs s) := by
  induction xs generalizing s with
  | nil => rfl
  | cons x xs ih => exact ih _

/-- PutBit changes BUF and BSLEN only. -/
theorem putBits_frame (bits : List Bool) (s : State) :
    putBits bits s = { s with buf := (putBits bits s).buf, bslen := (putBits bits s).bslen } := by
  induction bits generalizing s with
  | nil => rfl
  | cons b bits ih => rw [putBits, ih]; rfl

/-! ### What no effect changes -/

/-- The fields that no effect of a command but SWRST touches. -/
theorem effectOf_keeps {i : Instr} (hi : i ≠ .swrst) (s : State) :
    (effectOf i s).errcode = s.errcode ∧ (effectOf i s).sticky = s.sticky ∧ (effectOf i s).ie = s.ie ∧
    (effectOf i s).a = s.a ∧ (effectOf i s).b = s.b ∧ (effectOf i s).c = s.c ∧ (effectOf i s).d = s.d ∧
    (effectOf i s).cmdcnt = s.cmdcnt ∧ (effectOf i s).bsbase = s.bsbase ∧
    (effectOf i s).bscap = s.bscap ∧ (effectOf i s).msize = s.msize ∧ (effectOf i s).mat = s.mat ∧
    (effectOf i s).port = s.port ∧ (effectOf i s).resp = s.resp ∧ (effectOf i s).era = s.era ∧
    (effectOf i s).aborts = s.aborts := by
  cases i
  case swrst => exact absurd rfl hi
  case bsappend w => simp only [effectOf]; rw [putBits_frame]; simp
  case bspad => simp only [effectOf]; rw [putBits_frame]; simp
  all_goals simp [effectOf, pdivEffect, rsencEffect, eccblkEffect, bsgetEffect, pscoreEffect]

/-- The model's own fields, and MAT, are the same after any command. -/
theorem exec_keeps {i : Instr} {s t : State} (h : exec i s = .next t) :
    t.mat = s.mat ∧ t.port = s.port ∧ t.resp = s.resp ∧ t.era = s.era ∧ t.aborts = s.aborts := by
  rcases exec_cases h with ⟨-, rfl⟩ | ⟨-, e, -, rfl⟩ | ⟨hi, -, rfl⟩
  · simp
  · simp
  · have := effectOf_keeps hi s
    simp [this]

/-- The same for a word written to CMD. -/
theorem runCommand_keeps {w : Word} {s t : State} (h : runCommand w s = .next t) :
    t.mat = s.mat ∧ t.port = s.port ∧ t.resp = s.resp ∧ t.era = s.era ∧ t.aborts = s.aborts := by
  simp only [runCommand] at h
  split at h
  · exact exec_keeps h
  · injection h with h; subst h; simp

end Sys2Proof.Machine
end

