-- ==== Sys2Proof/Laws/Poly.lean ====
section
/-! SUPPORT. Synthetic division step by step: lengths, and what a dividend of zeros leaves. -/

namespace Sys2Proof.Machine

theorem xorScaled_length (f : Byte) (ds ws : List Byte) : (xorScaled f ds ws).length = ws.length := by
  induction ds generalizing ws with
  | nil => rfl
  | cons d ds ih => cases ws <;> simp [xorScaled, ih]

theorem divSteps_length (lead : Byte) (tail : List Byte) (k : Nat) (w : List Byte) (h : k ≤ w.length) :
    (divSteps lead tail k w).length = w.length - k := by
  induction k generalizing w with
  | zero => rfl
  | succ k ih =>
    cases w with
    | nil => simp at h
    | cons x ws =>
      simp only [divSteps, List.length_cons] at h ⊢
      rw [ih _ (by rw [xorScaled_length]; omega), xorScaled_length]
      omega

/-- A remainder has as many bytes as the divisor has coefficients after the leading one. -/
theorem length_polyrem (p d : List Byte) : (polyrem p d).length = d.length - 1 := by
  cases d with
  | nil => rfl
  | cons lead tail =>
    simp only [polyrem]
    rw [divSteps_length _ _ _ _ (by simp; omega)]
    simp; omega

/-- A dividend at least as long as the remainder needs no leading zeros. -/
theorem polyrem_eq_divSteps (p tail : List Byte) (lead : Byte) (h : tail.length ≤ p.length) :
    polyrem p (lead :: tail) = divSteps lead tail (p.length - tail.length) p := by
  rw [polyrem, show tail.length - p.length = 0 by omega]; rfl

theorem length_genRom : ∀ n, n ≤ 30 → (genRom n).length = n + 1 := by
  intro n hn; interval_cases n <;> rfl

theorem genRom_eq_cons (n : Nat) (hn : n ≤ 30) : genRom n = 1 :: (genRom n).tail := by
  interval_cases n <;> rfl

theorem length_rsenc (m : List Byte) (n : Nat) (hn : n ≤ 30) : (rsenc m n).length = n := by
  rw [rsenc, length_polyrem, length_genRom n hn]; rfl

end Sys2Proof.Machine
end

