-- ==== Sys2Proof/Laws/EccBlock.lean ====
section
/-! SUPPORT. The block geometry, the lengths of slots and of the work area, and how a list of equal chunks is
read. -/

namespace Sys2Proof.Machine

theorem blockStart_eq (k e t b : Nat) : blockStart k e t b = b * (t / k - e) + (b - (k - t % k)) := rfl

theorem blockData_eq (k e t b : Nat) :
    blockData k e t b = if b < k - t % k then t / k - e else t / k - e + 1 := rfl

/-- T in terms of the short block's length and the number of long blocks. -/
theorem geometry (k e t : Nat) (hk : 1 ≤ k) (he : e < t / k) :
    ∃ s m q, s = t / k ∧ t = k * s + m ∧ m < k ∧ s = e + q ∧ shortCount k t = k - m ∧ t % k = m :=
  ⟨t / k, t % k, t / k - e, rfl, (Nat.div_add_mod t k).symm, Nat.mod_lt _ hk, by omega, rfl, rfl⟩

/-- A block's data lie inside the input. -/
theorem blockStart_add_le (k e t b : Nat) (hk : 1 ≤ k) (he : e < t / k) (hb : b < k) :
    blockStart k e t b + blockData k e t b ≤ dataTotal k e t := by
  obtain ⟨s, m, q, hs, ht, hm, hq, hsc, hmod⟩ := geometry k e t hk he
  have hqq : t / k - e = q := by omega
  simp only [blockStart_eq, blockData_eq, hqq, hmod, dataTotal]
  have h1 : k * s = k * e + k * q := by rw [hq]; ring
  have h2 : (b + 1) * q ≤ k * q := Nat.mul_le_mul_right _ hb
  rw [Nat.add_mul, Nat.one_mul] at h2
  have h3 : (k - (b + 1)) * q = k * q - (b + 1) * q := Nat.sub_mul ..
  split_ifs <;> omega

theorem length_blockBytes (k e t b : Nat) (src : List Byte) (hk : 1 ≤ k) (he : e < t / k) (hb : b < k)
    (hs : src.length = dataTotal k e t) : (blockBytes k e t src b).length = blockData k e t b := by
  have := blockStart_add_le k e t b hk he hb
  simp only [blockBytes, List.length_take, List.length_drop]; omega

/-- Every slot has S + 1 bytes (R172). -/
theorem length_blockSlot (k e t b : Nat) (src : List Byte) (hk : 1 ≤ k) (h30 : e ≤ 30) (he : e < t / k)
    (hb : b < k) (hs : src.length = dataTotal k e t) :
    (blockSlot k e t src b).bytes.length = t / k + 1 := by
  have hl := length_blockBytes k e t b src hk he hb hs
  rw [blockData_eq] at hl
  simp only [blockSlot]
  split
  · rename_i h
    rw [if_pos (show b < k - t % k from h)] at hl
    simp only [List.length_append, List.length_cons, length_rsenc _ _ h30, hl]; omega
  · rename_i h
    rw [if_neg (show ¬ b < k - t % k from h)] at hl
    simp only [List.length_append, length_rsenc _ _ h30, hl]; omega

theorem length_flatMap_const {α β : Type} (l : List α) (f : α → List β) (c : Nat)
    (h : ∀ a ∈ l, (f a).length = c) : (l.flatMap f).length = l.length * c := by
  induction l with
  | nil => simp
  | cons a l ih =>
    simp only [List.flatMap_cons, List.length_append, List.length_cons]
    rw [h a (by simp), ih (fun a ha => h a (List.mem_cons_of_mem _ ha))]; ring

/-- Chunk b of a list of chunks of c elements each. -/
theorem take_drop_flatMap {α β : Type} (f : α → List β) (c : Nat) (l : List α)
    (h : ∀ a ∈ l, (f a).length = c) (b : Nat) (hb : b < l.length) :
    ((l.flatMap f).drop (b * c)).take c = f l[b] := by
  induction l generalizing b with
  | nil => simp at hb
  | cons a l ih =>
    have ha := h a (by simp)
    simp only [List.flatMap_cons]
    cases b with
    | zero => simp [← ha]
    | succ b =>
      rw [Nat.add_mul, Nat.one_mul, Nat.add_comm (b * c) c, ← ha, ← List.drop_drop, List.drop_left, ha]
      simpa using ih (fun a ha => h a (List.mem_cons_of_mem _ ha)) b (by simpa using hb)

/-- The work area has Bk·(S + 1) bytes (R172). -/
theorem length_workBytes (k e t : Nat) (src : List Byte) (hk : 1 ≤ k) (h30 : e ≤ 30) (he : e < t / k)
    (hs : src.length = dataTotal k e t) : (workBytes (eccSlots k e t src)).length = k * (t / k + 1) := by
  rw [workBytes, length_flatMap_const _ _ (t / k + 1)]
  · simp [eccSlots]
  · intro a ha
    simp only [eccSlots, List.mem_map, List.mem_range] at ha
    obtain ⟨b, hb, rfl⟩ := ha
    exact length_blockSlot k e t b src hk h30 he hb hs

/-- What the slots of some blocks emit at a position (R173). -/
theorem emitAt_map (pad i k e t : Nat) (src : List Byte) (l : List Nat) :
    emitAt pad i (l.map (blockSlot k e t src)) = l.flatMap (fun b =>
      if b < k - t % k ∧ i = pad then [] else [(blockSlot k e t src b).bytes.getD i 0]) := by
  induction l with
  | nil => rfl
  | cons b l ih =>
    have hs : (blockSlot k e t src b).short = decide (b < k - t % k) := by
      simp only [blockSlot]
      split
      · rename_i h; exact (decide_eq_true h).symm
      · rename_i h; exact (decide_eq_false h).symm
    simp only [List.map_cons, emitAt, hs, decide_eq_true_eq, ih, List.flatMap_cons]
    split <;> simp

end Sys2Proof.Machine
end

