-- ==== Sys2Proof/Laws/Gf.lean ====
section
/-! SUPPORT. The ROMs against their construction, and multiplication as repeated multiplication by x: what the
laws of the field follow from. -/

namespace Sys2Proof.Machine

open Sys2Proof.Spec

/-- Each entry of the EXP ROM is x times the one before it, around the cycle of 255. -/
theorem expRom_succ : ∀ i, i < 255 → expRom ((i + 1) % 255) = xtime (expRom i) := by decide +kernel

/-- LOG undoes EXP, and no entry of EXP is 0. -/
theorem logRom_expRom : ∀ i, i < 255 → (logRom (expRom i)).toNat = i ∧ expRom i ≠ 0 := by decide +kernel

theorem expRom_logRom_num : ∀ n, n < 256 → n ≠ 0 →
    (logRom (BitVec.ofNat 8 n)).toNat ≤ 254 ∧
      expRom (logRom (BitVec.ofNat 8 n)).toNat = BitVec.ofNat 8 n := by decide +kernel

theorem xtime_xor (a b : Byte) : xtime (a ^^^ b) = xtime a ^^^ xtime b := by
  simp only [xtime, BitVec.getLsbD_xor]
  cases a.getLsbD 7 <;> cases b.getLsbD 7 <;> simp [BitVec.shiftLeft_xor_distrib] <;> try ac_rfl
  rw [show a <<< 1 ^^^ 29#8 ^^^ (b <<< 1 ^^^ 29#8) = (a <<< 1 ^^^ b <<< 1) ^^^ (29#8 ^^^ 29#8) by ac_rfl]
  simp

theorem xtime_iterate_xor (n : Nat) (a b : Byte) : xtime^[n] (a ^^^ b) = xtime^[n] a ^^^ xtime^[n] b := by
  induction n generalizing a b with
  | zero => rfl
  | succ n ih => simp only [Function.iterate_succ, Function.comp, xtime_xor, ih]

theorem xtime_iterate_zero (n : Nat) : xtime^[n] 0 = 0 := by
  induction n with
  | zero => rfl
  | succ n ih =>
    have h : xtime 0 = 0 := by decide
    simp only [Function.iterate_succ, Function.comp, h, ih]

theorem expRom_add (i j : Nat) (hj : j < 255) : expRom ((i + j) % 255) = xtime^[i] (expRom j) := by
  induction i with
  | zero => simp [Nat.mod_eq_of_lt hj]
  | succ i ih =>
    rw [Function.iterate_succ', Function.comp, ← ih, ← expRom_succ _ (Nat.mod_lt _ (by norm_num))]
    congr 1; omega

end Sys2Proof.Machine
end

