-- ==== Sys2Proof/Laws/Penalty.lean ====
section
/-! SUPPORT. What one run, one line and the lines of a matrix score. -/

namespace Sys2Proof.Machine

open Sys2Proof.Spec

/-- Modules of the current run's colour lengthen it. -/
theorem runsFrom_replicate (c : Bool) (len n : Nat) (rest : List Bool) :
    runsFrom c len (List.replicate n c ++ rest) = runsFrom c (len + n) rest := by
  induction n generalizing len with
  | zero => rfl
  | succ n ih =>
    rw [List.replicate_succ, List.cons_append, runsFrom, if_pos rfl, ih]
    congr 1; omega

theorem runsFrom_le (c : Bool) (len : Nat) (l : List Bool) (hl : 1 ≤ len) :
    runsFrom c len l + 2 ≤ max (len + l.length) 2 := by
  induction l generalizing c len with
  | nil => simp only [runsFrom, runPoints, List.length_nil]; split <;> omega
  | cons x xs ih =>
    simp only [runsFrom, List.length_cons]
    split
    · have := ih c (len + 1) (by omega); omega
    · have := ih x 1 (by omega)
      simp only [runPoints]; split <;> omega

/-- A run scores the same in either colour. -/
theorem runsFrom_map_not (c : Bool) (len : Nat) (l : List Bool) :
    runsFrom (!c) len (l.map not) = runsFrom c len l := by
  induction l generalizing c len with
  | nil => rfl
  | cons x xs ih =>
    simp only [List.map_cons, runsFrom, ih]
    by_cases h : x = c <;> simp [h]

theorem sum_le_length_mul (l : List Nat) (c : Nat) (h : ∀ x ∈ l, x ≤ c) : l.sum ≤ l.length * c := by
  have := List.sum_le_card_nsmul l c h
  simpa using this

theorem lineFinders_le (l : List Bool) : lineFinders l ≤ (l.length - 6) * 80 := by
  rw [lineFinders]
  refine (sum_le_length_mul _ 80 ?_).trans (by simp)
  intro x hx
  simp only [List.mem_map] at hx
  obtain ⟨i, -, rfl⟩ := hx
  simp only [finderAt]; split_ifs <;> omega

theorem scoredMatrix_square (n : Nat) (s : State) : Square n (scoredMatrix n s) := by
  refine ⟨by simp [scoredMatrix], ?_⟩
  intro row hr
  simp only [scoredMatrix, List.mem_map] at hr
  obtain ⟨r, -, rfl⟩ := hr
  simp

/-- The 2n lines of a matrix of side n have n modules each (R192). -/
theorem matrixLines_lengths (n : Nat) (m : List (List Bool)) (h : Square n m) :
    (matrixLines n m).length = 2 * n ∧ ∀ l ∈ matrixLines n m, l.length = n := by
  refine ⟨by simp [matrixLines, matrixColumns, h.1]; omega, ?_⟩
  intro l hl
  simp only [matrixLines, matrixColumns, List.mem_append, List.mem_map] at hl
  rcases hl with hl | ⟨c, -, rfl⟩
  · exact h.2 l hl
  · simp

end Sys2Proof.Machine
end

