-- ==== Sys2Proof/Laws/PerInstr.lean ====
section
/-! SUPPORT. The laws that hold of every command as syntax, one lemma per constructor. -/

namespace Sys2Proof.Laws

/-- A well-formed command's word selects the row of its mnemonic (R93, R97). -/
def EncodeRow.Statement (i : Instr) : Prop := i.wf = true → rowMatches (encode i) (rowOf i.mnemonic) = true

/-- The fields of a well-formed command fit below the bits that select its row. -/
theorem EncodeRow.of_fieldValue {i : Instr} (hf : i.wf = true → fieldValue i < 2 ^ fieldBits i.mnemonic) :
    EncodeRow.Statement i := by
  intro h
  have hf := hf h
  rw [rowMatches_rowOf, encode_toNat i h]
  revert hf
  generalize fieldValue i = v
  cases i.mnemonic <;> simp only [fieldBits, opcNumber] <;> omega

theorem EncodeRow.nop : EncodeRow.Statement .nop :=
  EncodeRow.of_fieldValue fun _ => by decide

theorem EncodeRow.gfmul (a b : Byte) : EncodeRow.Statement (.gfmul a b) :=
  EncodeRow.of_fieldValue fun _ => by
    have ha := a.isLt
    have hb := b.isLt
    simp only [fieldValue, fieldBits, Instr.mnemonic]
    omega

theorem EncodeRow.gfdiv (a b : Byte) : EncodeRow.Statement (.gfdiv a b) :=
  EncodeRow.of_fieldValue fun _ => by
    have ha := a.isLt
    have hb := b.isLt
    simp only [fieldValue, fieldBits, Instr.mnemonic]
    omega

theorem EncodeRow.gfexp (x : Byte) : EncodeRow.Statement (.gfexp x) :=
  EncodeRow.of_fieldValue fun _ => x.isLt

theorem EncodeRow.gflog (x : Byte) : EncodeRow.Statement (.gflog x) :=
  EncodeRow.of_fieldValue fun _ => x.isLt

theorem EncodeRow.pdiv (n : Nat) : EncodeRow.Statement (.pdiv n) :=
  EncodeRow.of_fieldValue fun h => of_decide_eq_true h

theorem EncodeRow.rsenc (n : Nat) : EncodeRow.Statement (.rsenc n) :=
  EncodeRow.of_fieldValue fun h => of_decide_eq_true h

theorem EncodeRow.eccblk (k e : Nat) : EncodeRow.Statement (.eccblk k e) :=
  EncodeRow.of_fieldValue fun h => by
    simp only [Instr.wf, Bool.and_eq_true, decide_eq_true_eq] at h
    simp only [fieldValue, fieldBits, Instr.mnemonic]
    omega

theorem EncodeRow.bsreset : EncodeRow.Statement .bsreset :=
  EncodeRow.of_fieldValue fun _ => by decide

theorem EncodeRow.bsappend (w6 : Nat) : EncodeRow.Statement (.bsappend w6) :=
  EncodeRow.of_fieldValue fun h => of_decide_eq_true h

theorem EncodeRow.bspad : EncodeRow.Statement .bspad :=
  EncodeRow.of_fieldValue fun _ => by decide

theorem EncodeRow.bsget (w6 : Nat) : EncodeRow.Statement (.bsget w6) :=
  EncodeRow.of_fieldValue fun h => of_decide_eq_true h

theorem EncodeRow.pscore (m : Nat) : EncodeRow.Statement (.pscore m) :=
  EncodeRow.of_fieldValue fun h => of_decide_eq_true h

theorem EncodeRow.swrst : EncodeRow.Statement .swrst :=
  EncodeRow.of_fieldValue fun _ => by decide

end Sys2Proof.Laws
end

