-- ==== Sys2Proof/Laws/Step.lean ====
section
/-! SUPPORT. The step on a port with an event and on an empty one, where the RAM windows lead, and byte order as
sums. -/

namespace Sys2Proof.Machine

theorem step_of_port_cons {s : State} {ev : HostEvent} {rest : List HostEvent} (h : s.port = ev :: rest) :
    step s = serve ev { s with port := rest } := by
  simp [step, serveNext, h]

theorem step_of_port_nil {s : State} (h : s.port = []) : step s = .next s := by
  simp [step, serveNext, h]

/-- An aligned access of the BUF window (R61, R68). -/
theorem target_buf (w : Width) (i : Nat) (hi : i < 16384) (ha : i % w.bytes = 0) :
    target w (BitVec.ofNat 16 (0x4000 + i)).toNat = some (.buf i) := by
  have h : (BitVec.ofNat 16 (0x4000 + i)).toNat = 0x4000 + i := by simp only [BitVec.toNat_ofNat]; omega
  rw [h, target, if_neg (by omega), if_pos (by omega),
    if_pos (by cases w <;> simp only [Width.bytes] at ha ⊢ <;> omega), Nat.add_sub_cancel_left]

/-- An aligned access of the MAT window (R62, R68). -/
theorem target_mat (w : Width) (i : Nat) (hi : i < 4096) (ha : i % w.bytes = 0) :
    target w (BitVec.ofNat 16 (0x8000 + i)).toNat = some (.mat i) := by
  have h : (BitVec.ofNat 16 (0x8000 + i)).toNat = 0x8000 + i := by simp only [BitVec.toNat_ofNat]; omega
  rw [h, target, if_neg (by omega), if_neg (by omega), if_pos (by omega),
    if_pos (by cases w <;> simp only [Width.bytes] at ha ⊢ <;> omega), Nat.add_sub_cancel_left]

/-- An accepted window access lies inside its RAM. -/
theorem target_inside (w : Width) (off : Nat) :
    (∀ i, target w off = some (.buf i) → i + w.bytes ≤ 16384) ∧
      (∀ i, target w off = some (.mat i) → i + w.bytes ≤ 4096) := by
  have hb : w.bytes = 1 ∨ w.bytes = 2 ∨ w.bytes = 4 := by cases w <;> simp [Width.bytes]
  simp only [target]
  split
  · split
    · constructor <;> intro i h <;> simp at h
    · simp
  · split
    · split
      · refine ⟨fun i h => ?_, fun i h => by simp at h⟩
        simp only [Option.some.injEq, Target.buf.injEq] at h
        rename_i hm
        subst h
        rcases hb with hb | hb | hb <;> rw [hb] at hm ⊢ <;> omega
      · simp
    · split
      · split
        · refine ⟨fun i h => by simp at h, fun i h => ?_⟩
          simp only [Option.some.injEq, Target.mat.injEq] at h
          rename_i hm
          subst h
          rcases hb with hb | hb | hb <;> rw [hb] at hm ⊢ <;> omega
        · simp
      · simp

theorem byteOf_toNat (v : Word) (j : Nat) : (byteOf v j).toNat = v.toNat / 2 ^ (8 * j) % 256 := by
  simp only [byteOf, slice, BitVec.toNat_ofNat]
  have h : 8 * j + 7 + 1 - 8 * j = 8 := by omega
  rw [h]; omega

theorem length_leBytes (v : Word) (n : Nat) : (leBytes v n).length = n := by simp [leBytes]

theorem leValue_lt (l : List Byte) : leValue l < 256 ^ l.length := by
  induction l with
  | nil => simp [leValue]
  | cons x xs ih =>
    have := x.isLt
    simp only [leValue, List.length_cons, pow_succ]; omega

/-- A little-endian value is the sum of its bytes at their places (R65). -/
theorem leValue_eq_sum (f : Nat → Byte) (n : Nat) :
    leValue ((List.range n).map f) = ((List.range n).map (fun j => (f j).toNat * 2 ^ (8 * j))).sum := by
  induction n generalizing f with
  | zero => rfl
  | succ n ih =>
    rw [List.range_succ_eq_map, List.map_cons, List.map_map, leValue, ih, List.map_cons, List.map_map,
      List.sum_cons]
    simp only [Nat.mul_zero, pow_zero, Nat.mul_one]
    congr 1
    rw [← List.sum_map_mul_left]
    congr 2; funext j
    simp only [Function.comp, Nat.mul_succ, pow_add]
    norm_num; ring

end Sys2Proof.Machine
end

