-- ==== Sys2Proof/Laws/Stream.lean ====
section
/-! SUPPORT. What PutBit does to the stream's bits and to the bytes of BUF, and the bits of a value. -/

namespace Sys2Proof.Machine

theorem getLsbD_setBit (x : Byte) (p q : Nat) (v : Bool) (hp : p < 8) (hq : q < 8) :
    (setBit x p v).getLsbD q = if q = p then v else x.getLsbD q := by
  have hs : (1#8 <<< p).getLsbD q = decide (q = p) := by
    simp only [BitVec.getLsbD_shiftLeft, BitVec.getLsbD_one]
    by_cases h : q = p
    · subst h; simp [hq]
    · by_cases h2 : q < p
      · simp [h2, h]
      · have h3 : q - p ≠ 0 := by omega
        simp [h, h3]
  cases v
  · simp only [setBit, Bool.false_eq_true, if_false, BitVec.getLsbD_and, BitVec.getLsbD_not, hs, hq]
    by_cases h : q = p <;> simp [h]
  · simp only [setBit, if_true, BitVec.getLsbD_or, hs]
    by_cases h : q = p <;> simp [h]

theorem getLsbD_firstBit (b : Bool) (q : Nat) :
    (if b then 0x80#8 else 0#8).getLsbD q = (decide (q = 7) && b) := by
  cases b
  · simp
  · simp only [if_true, Bool.and_true]
    by_cases h : q < 8
    · interval_cases q <;> rfl
    · rw [BitVec.getLsbD_of_ge _ _ (by omega)]
      simp; omega

/-- PutBit writes one byte. -/
theorem bufByte_putBit (b : Bool) (s : State) (i : Nat) (h : i ≠ streamBase s + streamLen s / 8) :
    bufByte (putBit b s) i = bufByte s i := by
  simp only [bufByte, putBit, Memory.cell_store]
  rw [if_neg (Ne.symm h)]

/-- The stream's bits after one PutBit: the new bit, the cleared rest of a new byte, all others kept. -/
theorem streamBit_putBit (b : Bool) (s : State) (k : Nat) :
    streamBit (putBit b s) (streamBase s) k =
      if k = streamLen s then b
      else if k / 8 = streamLen s / 8 ∧ streamLen s % 8 = 0 then false
      else streamBit s (streamBase s) k := by
  by_cases hk : k / 8 = streamLen s / 8
  · have hb : bufByte (putBit b s) (streamBase s + k / 8) =
        if streamLen s % 8 = 0 then (if b then 0x80#8 else 0#8)
        else setBit (bufByte s (streamBase s + streamLen s / 8)) (7 - streamLen s % 8) b := by
      simp [bufByte, putBit, Memory.cell_store, hk]
    simp only [streamBit, hb]
    by_cases h8 : streamLen s % 8 = 0
    · simp only [h8, if_true, getLsbD_firstBit, hk, true_and]
      by_cases he : k = streamLen s
      · simp [he, h8]
      · have : ¬ (7 - k % 8 = 7) := by omega
        simp [he, this]
    · simp only [h8, if_false, and_false]
      rw [getLsbD_setBit _ _ _ _ (by omega) (by omega), hk]
      by_cases he : k = streamLen s
      · simp [he]
      · rw [if_neg (by omega), if_neg he]
  · have hb : bufByte (putBit b s) (streamBase s + k / 8) = bufByte s (streamBase s + k / 8) :=
      bufByte_putBit b s _ (by omega)
    have he : k ≠ streamLen s := by rintro rfl; exact hk rfl
    simp [streamBit, hb, he, hk]

@[simp] theorem streamBase_putBit (b : Bool) (s : State) : streamBase (putBit b s) = streamBase s := rfl

@[simp] theorem streamBase_putBits (bits : List Bool) (s : State) :
    streamBase (putBits bits s) = streamBase s := by rw [putBits_frame]; rfl

theorem streamLen_putBit (b : Bool) (s : State) (h : streamLen s + 1 < 2 ^ 32) :
    streamLen (putBit b s) = streamLen s + 1 := by
  simp only [streamLen, putBit_bslen, BitVec.toNat_ofNat] at h ⊢
  exact Nat.mod_eq_of_lt h

/-- BSLEN after a sequence of PutBits. -/
theorem streamLen_putBits (bits : List Bool) (s : State) (h : streamLen s + bits.length < 2 ^ 32) :
    streamLen (putBits bits s) = streamLen s + bits.length := by
  induction bits generalizing s with
  | nil => rfl
  | cons b bits ih =>
    simp only [List.length_cons] at h
    have h1 := streamLen_putBit b s (by omega)
    rw [putBits, ih _ (by omega), h1, List.length_cons]
    omega

theorem bslen_putBits (bits : List Bool) (s : State) (h : streamLen s + bits.length < 2 ^ 32) :
    (putBits bits s).bslen = BitVec.ofNat 32 (streamLen s + bits.length) := by
  apply BitVec.eq_of_toNat_eq
  rw [BitVec.toNat_ofNat, Nat.mod_eq_of_lt h]
  exact streamLen_putBits bits s h

/-- The bytes a sequence of PutBits does not reach. -/
theorem bufByte_putBits (bits : List Bool) (s : State) (h : streamLen s + bits.length < 2 ^ 32) (i : Nat)
    (hi : i < streamBase s + streamLen s / 8 ∨
      streamBase s + (streamLen s + bits.length + 7) / 8 ≤ i) :
    bufByte (putBits bits s) i = bufByte s i := by
  induction bits generalizing s with
  | nil => rfl
  | cons b bits ih =>
    simp only [List.length_cons] at h hi
    have h1 := streamLen_putBit b s (by omega)
    rw [putBits, ih _ (by omega) (by simp only [h1, streamBase_putBit]; omega), bufByte_putBit]
    omega

/-- The stream's bits after a sequence of PutBits. -/
theorem streamBit_putBits (bits : List Bool) (s : State) (h : streamLen s + bits.length < 2 ^ 32) (k : Nat) :
    streamBit (putBits bits s) (streamBase s) k =
      if hk : streamLen s ≤ k ∧ k < streamLen s + bits.length then bits[k - streamLen s]'(by omega)
      else if streamLen s + bits.length ≤ k ∧ k < 8 * ((streamLen s + bits.length + 7) / 8) ∧
          ¬ (streamLen s % 8 ≠ 0 ∧ k / 8 = streamLen s / 8) then false
      else streamBit s (streamBase s) k := by
  induction bits generalizing s with
  | nil =>
    simp only [putBits, List.length_nil]
    rw [dif_neg (by omega), if_neg (by omega)]
  | cons b bits ih =>
    simp only [List.length_cons] at h
    have h1 := streamLen_putBit b s (by omega)
    have := ih (putBit b s) (by omega)
    rw [streamBase_putBit, streamBit_putBit] at this
    rw [putBits, this]
    simp only [h1, List.length_cons]
    by_cases c1 : streamLen s + 1 ≤ k ∧ k < streamLen s + 1 + bits.length
    · rw [dif_pos c1, dif_pos (by omega)]
      obtain ⟨j, rfl⟩ : ∃ j, k = streamLen s + 1 + j := ⟨k - (streamLen s + 1), by omega⟩
      have e1 : streamLen s + 1 + j - (streamLen s + 1) = j := by omega
      have e2 : streamLen s + 1 + j - streamLen s = j + 1 := by omega
      simp only [e1, e2, List.getElem_cons_succ]
    · rw [dif_neg c1]
      by_cases c2 : k = streamLen s
      · subst c2
        rw [if_neg (by omega), if_pos rfl, dif_pos (by omega)]
        simp
      · rw [dif_neg (by omega), if_neg c2]
        split_ifs <;> first | rfl | omega

@[simp] theorem msbFirst_length (v w : Nat) : (msbFirst v w).length = w := by
  induction w with
  | zero => rfl
  | succ w ih => simp [msbFirst, ih]

theorem msbFirst_getElem (v w j : Nat) (h : j < w) :
    (msbFirst v w)[j]'(by simpa using h) = v.testBit (w - 1 - j) := by
  induction w generalizing j with
  | zero => omega
  | succ w ih =>
    cases j with
    | zero => simp [msbFirst]
    | succ j =>
      simp only [msbFirst, List.getElem_cons_succ]
      rw [ih j (by omega)]
      congr 1
      omega

/-- The number BSGET reads is below 2 to its width, and its bits are the stream's. -/
theorem takeBits_spec (s : State) (w k r : Nat) :
    takeBits s w k r / 2 ^ w = r ∧
      ∀ j, j < w → (takeBits s w k r).testBit (w - 1 - j) = streamBit s (streamBase s) (k + j) := by
  induction w generalizing k r with
  | zero => simp [takeBits]
  | succ w ih =>
    simp only [takeBits]
    obtain ⟨h1, h2⟩ := ih (k + 1) (2 * r + (streamBit s (streamBase s) k).toNat)
    have hlt : (streamBit s (streamBase s) k).toNat < 2 := by cases streamBit s (streamBase s) k <;> simp
    refine ⟨?_, fun j hj => ?_⟩
    · rw [pow_succ, ← Nat.div_div_eq_div_mul, h1]; omega
    · cases j with
      | zero =>
        have hd : takeBits s w (k + 1) (2 * r + (streamBit s (streamBase s) k).toNat) / 2 ^ (w + 1 - 1 - 0) =
            2 * r + (streamBit s (streamBase s) k).toNat := by simpa using h1
        rw [Nat.testBit_eq_decide_div_mod_eq, hd, Nat.add_zero]
        cases streamBit s (streamBase s) k <;> simp
      | succ j =>
        have e1 : w + 1 - 1 - (j + 1) = w - 1 - j := by omega
        have e2 : k + 1 + j = k + (j + 1) := by omega
        rw [e1, h2 j (by omega), e2]

/-! ### The bits BSPAD appends -/

theorem padCodewords_length (c i : Nat) : (padCodewords c i).length = 8 * c := by
  induction c generalizing i with
  | zero => rfl
  | succ c ih =>
    simp only [padCodewords, List.length_append, msbFirst_length, ih]
    omega

/-- BSPAD fills the stream to its capacity exactly (R157). -/
theorem padBits_length {len cap : Nat} (hc : cap % 8 = 0) (h : len ≤ cap) :
    (padBits len cap).length = cap - len := by
  simp only [padBits, terminatorLen, alignLen, List.length_append, List.length_replicate, padCodewords_length]
  omega

/-! ### Canonical form and regions -/

theorem wf_putBits (bits : List Bool) (s : State) (h : Memory.wf 16384 s.buf)
    (hl : streamLen s + bits.length < 2 ^ 32)
    (hb : streamBase s + (streamLen s + bits.length + 7) / 8 ≤ 16384) :
    Memory.wf 16384 (putBits bits s).buf := by
  induction bits generalizing s with
  | nil => exact h
  | cons b bits ih =>
    simp only [List.length_cons] at hl hb
    have h1 := streamLen_putBit b s (by omega)
    refine ih _ (Memory.wf_store h ?_) (by omega) (by rw [h1, streamBase_putBit]; omega)
    show streamBase s + streamLen s / 8 < 16384
    omega

/-- BUF outside the bytes that hold the appended bits. -/
theorem bufByte_outside_streamRegion (bits : List Bool) (s : State) (h : streamLen s + bits.length < 2 ^ 32)
    (a : Nat) (hr : ∀ p ∈ streamRegion bits.length s, a < p.1 ∨ p.1 + p.2 ≤ a) :
    bufByte (putBits bits s) a = bufByte s a := by
  by_cases h0 : bits.length = 0
  · rw [List.length_eq_zero_iff.mp h0]; rfl
  · refine bufByte_putBits bits s h a ?_
    have := hr (streamBase s + streamLen s / 8, ceil8 (streamLen s % 8 + bits.length))
      (by rw [streamRegion, if_neg h0]; simp)
    simp only [ceil8] at this
    omega

end Sys2Proof.Machine
end

