-- ==== Sys2Proof/Tests/Slice0.lean ====
section
/-! SUPPORT. The model's own tests: words written out from the spec's formats, ill-formed commands, one-step
tests whose expected values are rows of spec/95_test_vectors.md (V-GF to V-CT, P1 to P4), and for every statement
a state and operands that meet its hypotheses, one conjunct for each clause. -/

namespace Sys2Proof.Tests

open Sys2Proof.Machine Sys2Proof.Spec

-- One theorem at a time: many kernel evaluations waiting at once would exhaust the threads of the compile.
set_option Elab.async false

/-! ### Helpers -/

/-- Whether an outcome is a next state of which p holds. -/
def after (o : Host.Outcome State Fault Refusal) (p : State → Bool) : Bool :=
  match o with
  | .next t => p t
  | .fault _ => false
  | .refused _ => false

/-- The reset state with operand registers and one written region of BUF. -/
def withOperands (a b c d : Word) (addr : Nat) (bytes : List Byte) : State :=
  { memWrite addr bytes State.reset with a := a, b := b, c := c, d := d }

/-- The reset state with a stream and a value in A. -/
def withStream (base cap len rd a : Word) (bytes : List Byte) : State :=
  { memWrite base.toNat bytes State.reset with bsbase := base, bscap := cap, bslen := len, bsrd := rd, a := a }

/-- The reset state with one event at the port. -/
def withEvent (ev : HostEvent) : State := { State.reset with port := [ev] }

/-- A matrix of side n, all modules of one colour. -/
def plain (n : Nat) (v : Bool) : List (List Bool) := List.replicate n (List.replicate n v)

/-! ### Words of the formats (R91, R93) -/

theorem test_decode_nop : decode 0b00000000000000000000000000000000#32 = .ok .nop := by decide
theorem test_decode_gfmul : decode 0b00000001000000000000001010000000#32 = .ok (.gfmul 0x02 0x80) := by decide
theorem test_decode_gfdiv : decode 0b00000010000000000001110100000010#32 = .ok (.gfdiv 0x1D 0x02) := by decide
theorem test_decode_gfexp : decode 0b00000011000000000000000000011001#32 = .ok (.gfexp 25) := by decide
theorem test_decode_gflog : decode 0b00000100000000000000000010001110#32 = .ok (.gflog 0x8E) := by decide
theorem test_decode_pdiv : decode 0b00010000000000000000000000000010#32 = .ok (.pdiv 2) := by decide
theorem test_decode_rsenc : decode 0b00010001000000000000000000011111#32 = .ok (.rsenc 31) := by decide
theorem test_decode_eccblk : decode 0b00010010000000000000010000011111#32 = .ok (.eccblk 4 31) := by decide
theorem test_decode_bsreset : decode 0b00100000000000000000000000000000#32 = .ok .bsreset := by decide
theorem test_decode_bsappend : decode 0b00100001000000000000000000100000#32 = .ok (.bsappend 32) := by decide
theorem test_decode_bspad : decode 0b00100010000000000000000000000000#32 = .ok .bspad := by decide
theorem test_decode_bsget : decode 0b00100011000000000000000000111111#32 = .ok (.bsget 63) := by decide
theorem test_decode_pscore : decode 0b00110000000000000000000000000101#32 = .ok (.pscore 5) := by decide
theorem test_decode_swrst : decode 0b11110000000000000000000000000000#32 = .ok .swrst := by decide

/-- One reserved bit set in each format, and unassigned opcodes (R94, R96; V-GF 32, 33, V-CT 3 to 5). -/
theorem test_illegal_words :
    [0x01010203#32, 0x03000100#32, 0x10000020#32, 0x12010402#32, 0x20000001#32, 0x21000040#32, 0x30000010#32,
      0xF0000001#32].map decode = List.replicate 8 (.error .reservedBitSet) ∧
    [0x05000000#32, 0xFF000000#32, 0x13000000#32].map decode = List.replicate 3 (.error .unassignedOpcode) := by
  decide

/-- The table word interface: 32 bits, and no command above them. -/
theorem test_decodeTableWord :
    decodeTableWord 32 0x12000402 = some (.eccblk 4 2) ∧ decodeTableWord 32 0x05000000 = none ∧
      decodeTableWord 32 0x210000003 = some (.pdiv 3) := by
  decide

/-! ### Ill-formed commands -/

theorem test_wf_refuses_pdiv : (Instr.pdiv 32).wf = false := by decide
theorem test_wf_refuses_rsenc : (Instr.rsenc 32).wf = false := by decide
theorem test_wf_refuses_eccblk : (Instr.eccblk 256 0).wf = false ∧ (Instr.eccblk 0 256).wf = false := by decide
theorem test_wf_refuses_bsappend : (Instr.bsappend 64).wf = false := by decide
theorem test_wf_refuses_bsget : (Instr.bsget 64).wf = false := by decide
theorem test_wf_refuses_pscore : (Instr.pscore 16).wf = false := by decide
theorem test_assemble_refuses : assemble (.cmd .gfmul) [256, 0] = none ∧ assemble (.cmd .rsenc) [32] = none ∧
    assemble (.cmd .rsenc) [31] = some 0x1100001F#32 := by decide

/-! ### One step of each command (V-GF, V-PD, V-RS, V-EB, V-BS, V-PS, V-CT) -/

theorem test_nop_clears_errcode_keeps_sticky :
    after (exec .nop { State.reset with errcode := .div0, sticky := true, cmdcnt := 7 })
      (fun t => t.cmdcnt == 8 && statusWord t == 0x10#32) = true := by decide +kernel

theorem test_gfmul : after (exec (.gfmul 0x53 0xCA) State.reset) (fun t => t.result == 0x8F#32) = true := by
  decide +kernel

theorem test_gfdiv : after (exec (.gfdiv 0xB6 0x53) State.reset) (fun t => t.result == 0x2A#32) = true := by
  decide +kernel

theorem test_gfdiv_zero_by_zero :
    after (exec (.gfdiv 0 0) { State.reset with result := 9 })
      (fun t => t.result == 9 && statusWord t == 0x15#32) = true := by decide +kernel

theorem test_gfexp_255 : after (exec (.gfexp 255) State.reset) (fun t => t.result == 1#32) = true := by
  decide +kernel

theorem test_gflog : after (exec (.gflog 0xFF) State.reset) (fun t => t.result == 0xAF#32) = true := by
  decide +kernel

theorem test_gflog_zero : after (exec (.gflog 0) State.reset) (fun t => statusWord t == 0x16#32) = true := by
  decide +kernel

/-- V-PD 5: a divisor that is not monic. -/
theorem test_pdiv_not_monic :
    after (exec (.pdiv 2) { memWrite 16 [3, 1, 2] (withOperands 0 4 16 32 0 [0x12, 0x34, 0x56, 0x78]) with a := 0 })
      (fun t => memRead t 32 2 == [0x5C, 0x54]) = true := by decide +kernel

/-- V-PD 10: the output overlaps the dividend. -/
theorem test_pdiv_overlap :
    after (exec (.pdiv 2) (memWrite 16 [1, 3, 2] (withOperands 0 3 16 1 0 [1, 2, 3])))
      (fun t => memRead t 0 3 == [1, 1, 1]) = true := by decide +kernel

/-- V-RS 5. -/
theorem test_rsenc :
    after (exec (.rsenc 10) (withOperands 0 16 0 16 0
        [0x20, 0x5B, 0x0B, 0x78, 0xD1, 0x72, 0xDC, 0x4D, 0x43, 0x40, 0xEC, 0x11, 0xEC, 0x11, 0xEC, 0x11]))
      (fun t => memRead t 16 10 == [0xC4, 0x23, 0x27, 0x77, 0xEB, 0xD7, 0xE7, 0xE2, 0x5D, 0x17]) = true := by
  decide +kernel

theorem test_rsenc_31 : after (exec (.rsenc 31) State.reset) (fun t => statusWord t == 0x12#32) = true := by
  decide +kernel

/-- V-EB 1: the output. -/
theorem test_eccblk_output :
    after (exec (.eccblk 4 2) (withOperands 0x100 22 0x200 0x300 0x100 [1, 2, 3, 4, 5, 6, 7, 8, 9, 10, 11, 12, 13, 14]))
      (fun t => memRead t 0x300 22 ==
        [0x01, 0x04, 0x07, 0x0B, 0x02, 0x05, 0x08, 0x0C, 0x03, 0x06, 0x09,
          0x0D, 0x0A, 0x0E, 0x04, 0x2D, 0x04, 0xAC, 0x04, 0x2A, 0x08, 0xA8]) = true := by decide +kernel

/-- V-EB 2: the work area of a single block holds its padding byte. -/
theorem test_eccblk_work_area :
    after (exec (.eccblk 1 2) (withOperands 0 5 16 32 0 [0x10, 0x20, 0x30]))
      (fun t => memRead t 16 6 == [0x10, 0x20, 0x30, 0, 0x40, 0x40] &&
        memRead t 32 5 == [0x10, 0x20, 0x30, 0x40, 0x40]) = true := by decide +kernel

/-- V-BS 21. -/
theorem test_bsreset : after (exec .bsreset (withStream 0 0 77 5 0 []))
    (fun t => t.bslen == 0 && t.bsrd == 0) = true := by decide +kernel

/-- V-BS 2, the second append. -/
theorem test_bsappend : after (exec (.bsappend 5) (withStream 0 16 3 0 0x1F [0xA0]))
    (fun t => memRead t 0 1 == [0xBF] && t.bslen == 8) = true := by decide +kernel

/-- V-BS 20: a new byte starts with zeros. -/
theorem test_bsappend_new_byte : after (exec (.bsappend 1) (withStream 0 16 0 0 1 [0xFF]))
    (fun t => memRead t 0 1 == [0x80]) = true := by decide +kernel

/-- V-BS 9. -/
theorem test_bspad : after (exec .bspad (withStream 0 32 3 0 0 [0xA0]))
    (fun t => memRead t 0 4 == [0xA0, 0xEC, 0x11, 0xEC] && t.bslen == 32) = true := by decide +kernel

/-- V-BS 11: the terminator is shortened to three bits. -/
theorem test_bspad_short : after (exec .bspad (withStream 0 32 29 0 0 [0xFF, 0xFF, 0xFF, 0xF8]))
    (fun t => memRead t 0 4 == [0xFF, 0xFF, 0xFF, 0xF8] && t.bslen == 32) = true := by decide +kernel

/-- V-BS 15. -/
theorem test_bsget : after (exec (.bsget 3) (withStream 0 16 8 0 0 [0xBF]))
    (fun t => t.result == 5 && t.bsrd == 3) = true := by decide +kernel

/-- V-BS 16. -/
theorem test_bsget_underrun : after (exec (.bsget 4) (withStream 0 16 3 0 0 [0xA0]))
    (fun t => statusWord t == 0x18#32 && t.bsrd == 0) = true := by decide +kernel

/-- V-PS 5: a finder pattern with light on both sides. -/
theorem test_pscore :
    after (exec (.pscore 15) { matWrite 0 (0x0B :: 0xA0 :: List.replicate 54 0) State.reset with msize := 21 })
      (fun t => t.pen1 == 782 && t.pen2 == 1176 && t.pen3 == 80 && t.pen4 == 90 && t.result == 2128) = true := by
  decide +kernel

theorem test_pscore_bad_side : after (exec (.pscore 15) { State.reset with msize := 22, pen1 := 5 })
    (fun t => statusWord t == 0x12#32 && t.pen1 == 5) = true := by decide +kernel

/-- V-CT 2. -/
theorem test_swrst :
    after (exec .swrst { State.reset with a := 0x1234, errcode := .div0, sticky := true, ie := true, buf := [(5, 0x77)] })
    (fun t => t.a == 0 && statusWord t == 0 && ctrlWord t == 0 && t.cmdcnt == 0 && bufByte t 5 == 0x77) = true := by
  decide +kernel

/-! ### The host port -/

/-- V-GF 2 as a CMD write: what the interface's withFetchWord runs. -/
theorem test_withFetchWord :
    after (step (State.reset.withFetchWord 32 0x010053CA)) (fun t => t.result == 0x8F#32) = true := by decide

/-- P2 step 2: a 32-bit read is little-endian. -/
theorem test_little_endian_read :
    after (step { memWrite 0x300 [1, 4, 7, 0x0B] State.reset with port := [.read .w32 0x4300] })
      (fun t => decide (t.resp = .data 0x0B070401#32)) = true := by decide +kernel

/-- R66, R67: a byte read of a register is a bus error that leaves STATUS alone. -/
theorem test_bus_error : after (step (withEvent (.read .w8 0x0010)))
    (fun t => decide (t.resp = .buserr) && statusWord t == 0) = true := by decide +kernel

/-- P2 step 6: writing 0x10 to STATUS clears STICKY and keeps ERRCODE. -/
theorem test_clear_sticky :
    after (step { withEvent (.write .w32 0x0004 0x10) with errcode := .range, sticky := true })
      (fun t => statusWord t == 0x04#32) = true := by decide +kernel

/-- P3 step 2: the failing command raises the interrupt. -/
theorem test_irq : after (step { withEvent (.write .w32 0x000C 0x02000500) with ie := true }) irq = true := by
  decide +kernel

/-- R9: with no event the block keeps its state. -/
theorem test_idle : after (step { State.reset with a := 3 }) (fun t => t.a == 3) = true := by decide +kernel

/-! ### Witnesses: a state and operands that meet the hypotheses of each statement, clause by clause -/

theorem test_witness_DecodeOfEncodeIsTheCommand :
    [Instr.pdiv 31, .rsenc 31, .eccblk 255 255, .bsappend 63, .bsget 63, .pscore 15, .gfmul 255 255].map Instr.wf =
      List.replicate 7 true := by decide

theorem test_witness_EncodeOfDecodeIsTheWord : decode 0x1000001F#32 = .ok (.pdiv 31) := by decide

theorem test_witness_IllegalWordsAreThese :
    decode 0x05FFFFFF#32 = .error .unassignedOpcode ∧ decode 0xF0000001#32 = .error .reservedBitSet := by decide

theorem test_witness_AssemblerAcceptsFittingFields :
    assemble (.cmd .eccblk) [255, 255] = some 0x1200FFFF#32 ∧ assemble (.cmd .gfdiv) [1, 2] = some 0x02000102#32 ∧
      assemble .gfinv [255] = some 0x020001FF#32 ∧ assemble .gfinv [256] = none ∧
      assemble .gfsqr [255] = some 0x0100FFFF#32 ∧ assemble .gfsqr [256] = none := by decide

theorem test_witness_StepRunsTheDecodedCommand :
    (withEvent (.write .w32 0x000C 0x12000402)).port = [.write .w32 0x000C 0x12000402] ∧
      decode 0x12000402#32 = .ok (.eccblk 4 2) := by decide

theorem test_witness_WordRunsItsRowOrRaisesIllcmd :
    (∃ r ∈ opcodeMap, (0x3000000F#32 &&& r.mask) = r.pattern) ∧
      ∀ r ∈ opcodeMap, (0x30000010#32 &&& r.mask) ≠ r.pattern := by decide

theorem test_witness_StepTakesTheOldestEvent :
    after (step { State.reset with port := [.read .w32 0, .reset] }) (fun t => decide (t.port = [.reset])) = true ∧
      step State.reset = .next State.reset := ⟨by decide +kernel, rfl⟩

/-- Both ends of each clause, rejected and accepted. -/
theorem test_witness_BusErrorsAreThese :
    [(Width.w32, 0x004C), (.w32, 0x3FFC), (.w8, 0x9000), (.w32, 0xFFFC), (.w16, 0x0010), (.w32, 0x0012),
      (.w16, 0x4001), (.w32, 0x8FFE)].map (fun p => target p.1 p.2) = List.replicate 8 none ∧
    [(Width.w32, 0x0048), (.w8, 0x4000), (.w16, 0x7FFE), (.w8, 0x8FFF)].map (fun p => target p.1 p.2) =
      [some (.reg .pen4), some (.buf 0), some (.buf 0x3FFE), some (.mat 0xFFF)] ∧
    (withEvent (.read .w16 0x0010)).port = [.read .w16 0x0010] := by decide

theorem test_witness_HostReadsHaveNoSideEffect :
    { State.reset with port := [.read .w8 0x7FFF, .read .w8 0x7FFF] }.port =
      .read .w8 0x7FFF :: .read .w8 0x7FFF :: [] := rfl

theorem test_witness_RegisterMapReads :
    ((0x0000#16, 0x51524746#32) ∈ registerReads (withEvent (.read .w32 0x0000)) ∧
      (withEvent (.read .w32 0x0000)).port = [.read .w32 0x0000]) ∧
    (0x0048#16, 0#32) ∈ registerReads (withEvent (.read .w32 0x0048)) := by decide +kernel

/-- An RO register, STATUS, CTRL, CMD and an RW register. -/
theorem test_witness_HostRegisterWrites :
    after (step (withEvent (.write .w32 0x0048 1))) (fun t => t.pen4 == 0) = true ∧
    after (step { withEvent (.write .w32 0x0004 0xFFFFFFEF) with sticky := true }) State.sticky = true ∧
    after (step (withEvent (.write .w32 0x0008 0xFFFFFFFF))) (fun t => ctrlWord t == 1) = true ∧
    after (step (withEvent (.write .w32 0x000C 0))) (fun t => t.cmdcnt == 1) = true ∧
    after (step (withEvent (.write .w32 0x0038 0xFFFFFFFF))) (fun t => t.msize == 0xFFFFFFFF) = true := by
  decide +kernel

theorem test_witness_StatusControlAndInterruptBits :
    statusWord { State.reset with errcode := .underrun, sticky := true } = 0x18#32 ∧ 5 ≤ 31 := by decide

/-- R220: the codes of ILLCMD, WIDTH and OVF as STATUS shows them, each from a command that raises it. -/
theorem test_error_codes :
    after (runCommand 0x05000000#32 State.reset) (fun t => statusWord t == 0x11#32) = true ∧
      after (exec (.bsappend 3) { State.reset with a := 8 }) (fun t => statusWord t == 0x13#32) = true ∧
      after (exec (.bsappend 3) State.reset) (fun t => statusWord t == 0x17#32) = true := by decide +kernel

theorem test_witness_InterruptRisesOnlyOnFailureOrEnable :
    (irq { withEvent (.write .w32 0x000C 0x04000000) with ie := true } = false ∧
      after (step { withEvent (.write .w32 0x000C 0x04000000) with ie := true }) irq = true) ∧
    (irq { withEvent (.write .w32 0x0008 1) with sticky := true } = false ∧
      after (step { withEvent (.write .w32 0x0008 1) with sticky := true }) irq = true) := by decide +kernel

/-- The last access of each width in each window. -/
theorem test_witness_WindowAccessesAreLittleEndian :
    16383 % Width.w8.bytes = 0 ∧ 16382 % Width.w16.bytes = 0 ∧ 16380 % Width.w32.bytes = 0 ∧
    (withEvent (.write .w32 (BitVec.ofNat 16 (0x4000 + 16380)) 7)).port = [.write .w32 0x7FFC 7] ∧
    (withEvent (.read .w8 (BitVec.ofNat 16 (0x4000 + 16383)))).port = [.read .w8 0x7FFF] ∧
    (withEvent (.write .w8 (BitVec.ofNat 16 (0x8000 + 4095)) 7)).port = [.write .w8 0x8FFF 7] ∧
    (withEvent (.read .w16 (BitVec.ofNat 16 (0x8000 + 4094)))).port = [.read .w16 0x8FFE] := by decide

theorem test_witness_WindowFollowsTheBase : ∃ addr off, windowOffset addr = some off := by
  refine ⟨Config.qrgfBase, BitVec.ofNat 16 (Config.qrgfBase - Config.qrgfBase), ?_⟩
  unfold windowOffset
  rw [if_pos ⟨Nat.le_refl _, Nat.lt_add_of_pos_right (by decide)⟩]

theorem test_witness_HardwareResetValues : (withEvent .reset).port = [.reset] := rfl

/-- The command has an output region, and the byte right after it is outside. -/
theorem test_witness_AbandonedCommandKeepsOtherBytes :
    (withEvent (.abortedCmd 0x11000002)).port = [.abortedCmd 0x11000002] ∧
      decode 0x11000002#32 = .ok (.rsenc 2) ∧
      outputRegions (.rsenc 2) { State.reset with d := 8 } = [(8, 2)] := by decide +kernel

theorem test_witness_FailingCommandChangesNothingElse :
    after (runCommand 0x05000000 { State.reset with ie := true })
      (fun t => decide (t.errcode ≠ .ok) && irq t) = true := by decide +kernel

/-- A success, a failure and SWRST. -/
theorem test_witness_CommandsAreCounted :
    after (runCommand 0x03000001 { State.reset with cmdcnt := 0xFFFFFFFF, sticky := true })
      (fun t => t.cmdcnt == 0 && t.sticky && decide (t.errcode = .ok)) = true ∧
    after (runCommand 0x04000000 State.reset) (fun t => t.cmdcnt == 1) = true ∧
    decode 0xF0000000#32 = .ok .swrst ∧
    after (runCommand 0xF0000000 { State.reset with cmdcnt := 5 }) (fun t => t.cmdcnt == 0) = true := by
  decide +kernel

theorem test_witness_CommandsWriteOnlyTheirRegisters :
    after (exec (.gfmul 3 7) { State.reset with ie := true, a := 5, bslen := 3, bsrd := 2, pen1 := 1 })
      (fun t => t.a == 5 && t.bslen == 3 && t.bsrd == 2 && t.pen1 == 1) = true := by decide +kernel

theorem test_witness_ResultRegisterWriters :
    after (exec (.gflog 0) State.reset) (fun t => decide (t.errcode ≠ .ok)) = true ∧
    after (exec (.gflog 0x8E) State.reset) (fun t => decide (t.errcode = .ok)) = true ∧
    after (exec (.bsget 0) State.reset) (fun t => decide (t.errcode = .ok)) = true ∧
    after (exec .nop { State.reset with result := 9 }) (fun t => t.result == 9) = true := by decide +kernel

theorem test_witness_CommandsRaiseOnlyTheirErrors :
    after (exec (.bsappend 33) State.reset) (fun t => decide (t.errcode = .badarg)) = true := by decide +kernel

theorem test_witness_CommandsWriteOnlyTheirOutputRegions :
    after (exec (.rsenc 2) (withOperands 0 1 0 8 0 [1])) (fun t => memRead t 8 2 == [3, 2]) = true ∧
      (∀ p ∈ outputRegions (.rsenc 2) (withOperands 0 1 0 8 0 [1]), 10 < p.1 ∨ p.1 + p.2 ≤ 10) ∧
      outputRegions (.bsappend 7) (withStream 3 16 6 0 1 []) = [(3, 2)] ∧
      outputRegions .bspad (withStream 3 16 16 0 1 []) = [] := by decide +kernel

theorem test_witness_GfmulRule : opc 0x01010203#32 = 0x01 ∧ slice 0x01010203#32 23 16 ≠ 0 := by decide

theorem test_witness_GfdivRule :
    (opc 0x02800000#32 = 0x02 ∧ slice 0x02800000#32 23 16 ≠ 0) ∧ (0x02 : Byte) ≠ 0 := by decide

theorem test_witness_GfexpRule : opc 0x03000100#32 = 0x03 ∧ slice 0x03000100#32 23 8 ≠ 0 := by decide

theorem test_witness_GflogRule :
    (opc 0x04800000#32 = 0x04 ∧ slice 0x04800000#32 23 8 ≠ 0) ∧ (0xFF : Byte) ≠ 0 := by decide

theorem test_witness_ExpAndLogLaws :
    (253 < 254 ∧ expRom 253 = 0x47) ∧ ((0xFF : Byte) ≠ 0 ∧ logRom 0xFF = 0xAF) ∧ 254 ≤ 254 := by decide +kernel

theorem test_witness_GfmulFieldLaws : gfmul 0 0x37 = 0 := by decide +kernel

theorem test_witness_GfdivLaws : (0xFF : Byte) ≠ 0 := by decide

theorem test_witness_GeneratorPolynomials : 29 < 30 ∧ 30 ≤ 30 ∧ (genRom 30).length = 31 := by decide +kernel

/-- V-PD 1: x² + 2x + 3 = 1·(x² + 3x + 2) + (x + 1). -/
theorem test_witness_PolyremIsTheRemainder :
    (0x01 : Byte) ≠ 0 ∧ [0x01, 0x01].length = [(0x03 : Byte), 0x02].length ∧
      SamePoly [0x01, 0x02, 0x03] (polyAdd (polyMul [0x01] [0x01, 0x03, 0x02]) [0x01, 0x01]) := by
  refine ⟨by decide, by decide, ?_⟩
  unfold SamePoly
  decide +kernel

theorem test_witness_RemainderDependsOnThePolynomials :
    (0x03 : Byte) ≠ 0 ∧ (0xFF : Byte) ≠ 0 ∧ SamePoly [0, 0, 0x05] [0x05] := by
  refine ⟨by decide, by decide, ?_⟩
  unfold SamePoly
  decide +kernel

theorem test_witness_PdivRule :
    (opc 0x10000020#32 = 0x10 ∧ slice 0x10000020#32 23 5 ≠ 0) ∧ 31 < 32 ∧ 30 < 31 ∧
    (30 ≤ 30 ∧ 16384 < (16384#32).toNat + (1#32).toNat ∧ 16384 < (16354#32).toNat + 30 + 1 ∧
      16384 < (16383#32).toNat + 2) ∧
    bufByte (withOperands 0 3 16 32 16 [0, 1]) 16 = 0 ∧
    (bufByte (withOperands 0 3 16 16383 16 [2, 1]) 16 ≠ 0 ∧
      (0#32).toNat + (3#32).toNat ≤ 16384 ∧ (16#32).toNat + 1 + 1 ≤ 16384 ∧ (16383#32).toNat + 1 ≤ 16384) ∧
    [(0x05 : Byte)].length ≤ [(0x03 : Byte), 0x02].length := by decide +kernel

theorem test_witness_RsencRule :
    (opc 0x11000020#32 = 0x11 ∧ slice 0x11000020#32 23 5 ≠ 0) ∧ 31 < 32 ∧ 30 < 31 ∧
    (16384 < (16384#32).toNat + (1#32).toNat ∧ 16384 < (16355#32).toNat + 30) ∧
    ((16384#32).toNat + (0#32).toNat ≤ 16384 ∧ (16354#32).toNat + 30 ≤ 16384) := by decide

theorem test_witness_DataWithEccHasZeroRemainder : 30 ≤ 30 ∧ (rsenc [0x12, 0x34, 0x56] 4) = [0x37, 0xE6, 0x78, 0xD9] := by
  decide +kernel

theorem test_witness_RsencIsLinear : 30 ≤ 30 ∧ [(1 : Byte), 2].length = [(3 : Byte), 4].length := by decide

theorem test_witness_BsresetRule : opc 0x20000001#32 = 0x20 ∧ slice 0x20000001#32 23 0 ≠ 0 := by decide

/-- Each check at its boundary; the last line is an append that ends at the capacity and at the end of BUF. -/
theorem test_witness_BsappendRule :
    (opc 0x21000040#32 = 0x21 ∧ slice 0x21000040#32 23 6 ≠ 0) ∧ 63 < 64 ∧ 32 < 33 ∧
    (3 ≤ 32 ∧ 2 ^ 3 ≤ (8#32).toNat) ∧ (0 ≤ 32 ∧ 2 ^ 0 ≤ (1#32).toNat) ∧
    (32 ≤ 32 ∧ (0xFFFFFFFF#32).toNat < 2 ^ 32) ∧
    16384 < (16383#32).toNat + ((16#32).toNat + 7) / 8 ∧
    ((16382#32).toNat + ((16#32).toNat + 7) / 8 ≤ 16384 ∧ (16#32).toNat < (12#32).toNat + 5) ∧
    ((1#32).toNat < 2 ^ 4 ∧ (16382#32).toNat + ((16#32).toNat + 7) / 8 ≤ 16384 ∧
      (12#32).toNat + 4 ≤ (16#32).toNat) := by decide

theorem test_witness_BspadRule :
    (opc 0x22000001#32 = 0x22 ∧ slice 0x22000001#32 23 0 ≠ 0) ∧ (12#32).toNat % 8 ≠ 0 ∧
    ((16#32).toNat % 8 = 0 ∧ 16384 < (16383#32).toNat + (16#32).toNat / 8) ∧
    ((16382#32).toNat + (16#32).toNat / 8 ≤ 16384 ∧ (16#32).toNat < (17#32).toNat) ∧
    ((40#32).toNat % 8 = 0 ∧ (0#32).toNat + (40#32).toNat / 8 ≤ 16384 ∧ (8#32).toNat ≤ (40#32).toNat ∧
      8 * ((min ((8#32).toNat + 4) (40#32).toNat + 7) / 8) = 16 ∧ 2 < (40 - 16) / 8) := by decide

theorem test_witness_BsgetRule :
    (opc 0x23000040#32 = 0x23 ∧ slice 0x23000040#32 23 6 ≠ 0) ∧ 63 < 64 ∧ 32 < 33 ∧
    (32 ≤ 32 ∧ 16384 < (16383#32).toNat + ((9#32).toNat + 7) / 8) ∧
    ((16382#32).toNat + ((9#32).toNat + 7) / 8 ≤ 16384 ∧ (9#32).toNat < (6#32).toNat + 4) ∧
    (6#32).toNat + 3 ≤ (9#32).toNat := by decide

theorem test_witness_StreamReadsBackWhatWasAppended :
    after (exec .bsreset (withStream 0 16 0 0 0 []))
      (fun t => (appendAll [(3, 5), (0, 0), (5, 0x1F)] t).isSome) = true := by decide +kernel

theorem test_witness_AppendsConcatenate :
    3 + 5 ≤ 32 ∧ (appendAll [(3, 5), (5, 0x1F)] (withStream 0 16 3 0 0 [0xA0])).isSome = true ∧
      (appendAll [(3 + 5, BitVec.ofNat 32 (5 * 2 ^ 5 + 0x1F))] (withStream 0 16 3 0 0 [0xA0])).isSome = true := by
  decide +kernel

theorem test_witness_EccblkRule :
    (opc 0x12010402#32 = 0x12 ∧ slice 0x12010402#32 23 16 ≠ 0) ∧ 255 < 256 ∧
    ((22#32).toNat / 4 ≤ 5 ∧ 30 < 31) ∧
    (1 ≤ 4 ∧ 2 ≤ 30 ∧ 2 < (22#32).toNat / 4 ∧ 16384 < (0x3FF0#32).toNat + (22#32).toNat) ∧
    (16370 + ((22#32).toNat - 4 * 2) ≤ 16384 ∧ 16360 + 4 * ((22#32).toNat / 4 + 1) ≤ 16384 ∧
      16362 + (22#32).toNat ≤ 16384) := by decide

/-- V-EB 1: a work area with short and long blocks. -/
theorem test_witness_EccOutputOrder :
    1 ≤ 4 ∧ 2 ≤ 30 ∧ 2 < 22 / 4 ∧ [(1 : Byte), 2, 3, 4, 5, 6, 7, 8, 9, 10, 11, 12, 13, 14].length = 22 - 4 * 2 ∧
    WorkArea 4 2 22 [1, 2, 3, 4, 5, 6, 7, 8, 9, 10, 11, 12, 13, 14]
      [0x01, 0x02, 0x03, 0x00, 0x04, 0x04, 0x04, 0x05, 0x06, 0x00, 0x2D, 0x2A,
        0x07, 0x08, 0x09, 0x0A, 0x04, 0x08, 0x0B, 0x0C, 0x0D, 0x0E, 0xAC, 0xA8] ∧
    (3 < 4 ∧ 2 < 22 / 4 - 2) ∧ (4 - 22 % 4 ≤ 3 ∧ 1 < 2) := by
  refine ⟨by decide, by decide, by decide, by decide, ?_, by decide, by decide⟩
  unfold WorkArea
  decide +kernel

theorem test_witness_BlockGeometry : 1 ≤ 4 ∧ 2 < 22 / 4 ∧ blockStart 4 2 22 3 = 10 := by decide

theorem test_witness_PscoreRule :
    (opc 0x30000010#32 = 0x30 ∧ slice 0x30000010#32 23 4 ≠ 0) ∧ 15 < 16 ∧
    ((20#32).toNat < 21 ∧ 177 < (181#32).toNat ∧ (22#32).toNat % 4 ≠ 1) ∧
    (21 ≤ (177#32).toNat ∧ (177#32).toNat ≤ 177 ∧ (177#32).toNat % 4 = 1) ∧ 20 < 21 := by decide

theorem test_witness_RunScoreSumsMaximalRuns :
    MaximalRuns [(true, 6), (false, 4), (true, 1)] ∧ Square 21 (plain 21 false) := by
  refine ⟨by simp [MaximalRuns], ?_⟩
  unfold Square
  decide

theorem test_witness_FinderScoreByPosition : Square 21 (plain 21 true) := by
  unfold Square
  decide

/-- R196's table: 198 of 441 is in bucket 1, 199 is not. -/
theorem test_witness_RatioScoreIsTheExactBucket :
    0 < 21 ∧ ratioPoints 21 198 = 10 ∧ ratioPoints 21 199 = 0 ∧ 441 ≤ 21 * 21 ∧ Square 21 (plain 21 true) := by
  refine ⟨by decide, by decide, by decide, by decide, ?_⟩
  unfold Square
  decide

theorem test_witness_PenaltyBounds : 21 ≤ 177 ∧ 177 ≤ 177 ∧ Square 177 (plain 177 false) := by
  unfold Square
  decide +kernel

theorem test_witness_PenaltySymmetries : 0 < 2 ∧ Square 2 [[true, false], [false, false]] := by
  unfold Square
  decide

theorem test_witness_NopRule : opc 0x00000001#32 = 0x00 ∧ slice 0x00000001#32 23 0 ≠ 0 := by decide

theorem test_witness_SwrstRule : opc 0xF0000001#32 = 0xF0 ∧ slice 0xF0000001#32 23 0 ≠ 0 ∧
    after (exec .swrst State.reset) (fun t => irq t == false) = true ∧ decode 0xF0000001#32 ≠ .ok .swrst := by
  decide +kernel

/-- Every bound of the invariant met with equality, the last byte of each RAM written, and a step from there. -/
theorem test_witness_StepKeepsInvariant :
    let s : State := { withEvent (.write .w8 0x7FFE 1) with
      buf := [(16383, 0)], mat := [(4095, 0)], bslen := 131072, pen1 := 61950, pen2 := 92928, pen3 := 4899999,
      pen4 := 100 }
    Inv s ∧ after (step s) (fun t => decide (t.buf = [(16382, 1), (16383, 0)])) = true :=
  ⟨⟨by decide, by decide, by decide, by decide, by decide, by decide, by decide⟩, by decide +kernel⟩

end Sys2Proof.Tests
end

section
/-! SUPPORT. The proofs of the statements on the shape of the model (00_scope): a write to CMD runs its command
in one step, and the window of QRGF_BASE. -/

namespace Sys2Proof.Scope
open Sys2Proof Sys2Proof.Machine Sys2Proof.Spec

/-! ### A write to CMD is one step (R9, R24, R71) -/

/-- A 32-bit access at offset 0x000C is an access of CMD (R20, R67). -/
theorem target_cmd : target .w32 (0x000C#16).toNat = some (.reg .cmd) := by decide

/-- An accepted write to CMD is the run of its word. -/
theorem serveWrite_cmd (w : Word) (s : State) :
    serveWrite .w32 0x000C#16 w s = runCommand w { s with resp := .ack } := by
  unfold serveWrite
  rw [target_cmd]

/-- A word that decodes runs as the command it decodes to (R94). -/
theorem runCommand_of_decode {w : Word} {i : Instr} (h : decode w = .ok i) (s : State) :
    runCommand w s = exec i s := by
  unfold runCommand
  rw [h]

/-- A step on a CMD write is the run of the word written, at the accepted state. -/
theorem step_of_cmd_write {s : State} {rest : List HostEvent} {w : Word}
    (h : s.port = .write .w32 0x000C#16 w :: rest) : step s = runCommand w (accepted rest s) := by
  rw [step_of_port_cons h]
  exact serveWrite_cmd w { s with port := rest }

/-- Settles O6: the event served is a write to CMD, and its word decodes. -/
theorem stepRunsTheDecodedCommand : Obligations.StepRunsTheDecodedCommand := by
  intro s rest w i hport hdecode
  rw [step_of_cmd_write hport, runCommand_of_decode hdecode]

/-! ### The window of the block (R7, R60) -/

/-- QRGF_BASE is aligned to the window size (R7). -/
theorem qrgfBase_mod_windowSize : Config.qrgfBase % Config.windowSize = 0 :=
  Nat.mul_mod_right Config.windowSize Config.qrgfBaseIndex

/-- An offset is below the window size, so its system address is answered, and its distance from QRGF_BASE
gives the offset back. -/
theorem windowOffset_eq_some_iff (addr : Nat) (off : Offset) :
    windowOffset addr = some off ↔ sysAddr off = addr := by
  have hoff : off.toNat < Config.windowSize := off.isLt
  unfold windowOffset sysAddr
  split
  case isTrue h =>
    obtain ⟨hbase, hend⟩ := h
    have hfits : addr - Config.qrgfBase < 2 ^ 16 := Nat.sub_lt_left_of_lt_add hbase hend
    rw [Option.some.injEq, ← BitVec.toNat_inj, BitVec.toNat_ofNat, Nat.mod_eq_of_lt hfits]
    omega
  case isFalse h =>
    simp only [reduceCtorEq, false_iff]
    omega

/-- Settles O17: the two address maps say the same of an address and an offset, so they are inverse. -/
theorem windowFollowsTheBase : Obligations.WindowFollowsTheBase :=
  ⟨qrgfBase_mod_windowSize, fun off => (windowOffset_eq_some_iff _ off).mpr rfl,
    fun addr off => (windowOffset_eq_some_iff addr off).mp⟩

end Sys2Proof.Scope
end

section
/-! SUPPORT. The proofs of the statements on the registers (10_state): the register map as the host reads it, the
bits of STATUS and CTRL, and what a command leaves in the registers. -/

namespace Sys2Proof.Registers
open Sys2Proof Sys2Proof.Machine Sys2Proof.Spec

/-! ### The register map (R20, R21, R24) -/

/-- An aligned 32-bit access at a register's offset reaches that register (R20, R67). -/
theorem target_regOffset (r : Reg) : target .w32 (regOffset r).toNat = some (.reg r) := by
  cases r <;> decide

/-- The nineteen rows of the map are the registers in the order of their offsets. -/
theorem registerReads_eq_map (s : State) :
    registerReads s = regMap.map (fun r => (regOffset r, hostReadReg r s)) := rfl

/-- No register reads the pending events. -/
theorem hostReadReg_port (r : Reg) (s : State) (rest : List HostEvent) :
    hostReadReg r { s with port := rest } = hostReadReg r s := by
  cases r <;> rfl

/-- A read event at a register's offset returns the register. -/
theorem step_of_register_read {s : State} {rest : List HostEvent} {r : Reg}
    (h : s.port = .read .w32 (regOffset r) :: rest) :
    step s = .next { s with port := rest, resp := .data (hostReadReg r s) } := by
  rw [step_of_port_cons h, serve, serveRead, target_regOffset]
  simp only [readTarget, hostReadReg_port]

/-- Settles O12: a row of the map is a register at its offset. -/
theorem registerMapReads : Obligations.RegisterMapReads := by
  intro s rest p hp hport
  rw [registerReads_eq_map, List.mem_map] at hp
  obtain ⟨r, -, rfl⟩ := hp
  exact step_of_register_read hport

/-! ### The bits of STATUS and CTRL (R22, R23, R30) -/

/-- Each name of an error stands with its number in the table of R220. -/
theorem code_mem_errorCodes (e : ErrCode) : (e.code, e) ∈ errorCodes := by
  cases e <;> decide

theorem code_le_eight (e : ErrCode) : e.code ≤ 8 := by
  cases e <;> decide

theorem statusWord_toNat (s : State) : (statusWord s).toNat = s.errcode.code + 16 * s.sticky.toNat := by
  have hcode := code_le_eight s.errcode
  have hsticky := Bool.toNat_le s.sticky
  exact Nat.mod_eq_of_lt (by omega)

theorem ctrlWord_toNat (s : State) : (ctrlWord s).toNat = s.ie.toNat := by
  have hie := Bool.toNat_le s.ie
  exact Nat.mod_eq_of_lt (by omega)

theorem statusWord_mod_sixteen (s : State) : (statusWord s).toNat % 16 = s.errcode.code := by
  have hcode := code_le_eight s.errcode
  rw [statusWord_toNat]
  omega

theorem statusWord_getLsbD_four (s : State) : (statusWord s).getLsbD 4 = s.sticky := by
  have hcode := code_le_eight s.errcode
  have hbit : (s.errcode.code + 16 * s.sticky.toNat) / 2 ^ 4 = s.sticky.toNat := by omega
  rw [BitVec.getLsbD, statusWord_toNat, Nat.testBit_eq_decide_div_mod_eq, hbit]
  cases s.sticky <;> rfl

theorem statusWord_getLsbD_reserved (s : State) {k : Nat} (hk : 5 ≤ k) : (statusWord s).getLsbD k = false := by
  have hcode := code_le_eight s.errcode
  have hsticky := Bool.toNat_le s.sticky
  apply Nat.testBit_lt_two_pow
  calc (statusWord s).toNat < 2 ^ 5 := by rw [statusWord_toNat]; omega
    _ ≤ 2 ^ k := Nat.pow_le_pow_right (by decide) hk

theorem ctrlWord_getLsbD_zero (s : State) : (ctrlWord s).getLsbD 0 = s.ie := by
  rw [BitVec.getLsbD, ctrlWord_toNat]
  cases s.ie <;> rfl

theorem ctrlWord_getLsbD_reserved (s : State) {k : Nat} (hk : 1 ≤ k) : (ctrlWord s).getLsbD k = false := by
  apply Nat.testBit_lt_two_pow
  calc (ctrlWord s).toNat < 2 ^ 1 := by rw [ctrlWord_toNat]; exact Bool.toNat_lt s.ie
    _ ≤ 2 ^ k := Nat.pow_le_pow_right (by decide) hk

/-- Settles O14: each word as a number, and its bits from there. -/
theorem statusControlAndInterruptBits : Obligations.StatusControlAndInterruptBits := by
  intro s
  refine ⟨fun k => statusWord_getLsbD_reserved s, statusWord_getLsbD_four s, statusWord_mod_sixteen s,
    code_le_eight s.errcode, ?_, fun k => ctrlWord_getLsbD_reserved s, ctrlWord_getLsbD_zero s, ?_⟩
  · rw [statusWord_mod_sixteen]
    exact code_mem_errorCodes s.errcode
  · rw [statusWord_getLsbD_four, ctrlWord_getLsbD_zero, irq]

/-! ### The end of a command in CMDCNT and STICKY (R27, R222) -/

/-- What a write to CMD can do: reset the registers, fail, or do a command's effect and the common end. -/
theorem runCommand_cases {w : Word} {s t : State} (h : runCommand w s = .next t) :
    (decode w = .ok .swrst ∧ t = resetRegisters s) ∨
    (decode w ≠ .ok .swrst ∧ ∃ e, e ≠ .ok ∧ t = raiseError e s) ∨
    (∃ i, decode w = .ok i ∧ i ≠ .swrst ∧ t = finish (effectOf i s)) := by
  unfold runCommand at h
  split at h
  case h_1 i hdecode =>
    rcases exec_cases h with ⟨rfl, rfl⟩ | ⟨hi, e, he, rfl⟩ | ⟨hi, -, rfl⟩
    · exact .inl ⟨hdecode, rfl⟩
    · have hne : e ≠ .ok := by rintro rfl; exact checksOf_ne_ok i s _ he
      exact .inr (.inl ⟨by rw [hdecode]; simpa using hi, e, hne, rfl⟩)
    · exact .inr (.inr ⟨i, hdecode, hi, rfl⟩)
  case h_2 hdecode =>
    injection h with h
    exact .inr (.inl ⟨by rw [hdecode]; simp, .illcmd, by decide, h.symm⟩)

/-- Settles O21, by the three ways a write to CMD ends. -/
theorem commandsAreCounted : Obligations.CommandsAreCounted := by
  intro w s t h
  rcases runCommand_cases h with ⟨hdecode, rfl⟩ | ⟨hdecode, e, he, rfl⟩ | ⟨i, hdecode, hi, rfl⟩
  case inl => simp [hdecode]
  case inr.inl => simp [hdecode, he]
  case inr.inr =>
    obtain ⟨-, hsticky, -, -, -, -, -, hcmdcnt, -⟩ := effectOf_keeps hi s
    simp [hdecode, hi, hsticky, hcmdcnt]

/-! ### The registers each effect leaves alone (R25, R28, R29) -/

@[simp] theorem putBits_bsrd (bits : List Bool) (s : State) : (putBits bits s).bsrd = s.bsrd := by
  rw [putBits_frame]

@[simp] theorem putBits_result (bits : List Bool) (s : State) : (putBits bits s).result = s.result := by
  rw [putBits_frame]

theorem putBits_pens (bits : List Bool) (s : State) :
    (putBits bits s).pen1 = s.pen1 ∧ (putBits bits s).pen2 = s.pen2 ∧
    (putBits bits s).pen3 = s.pen3 ∧ (putBits bits s).pen4 = s.pen4 := by
  rw [putBits_frame]
  exact ⟨rfl, rfl, rfl, rfl⟩

/-- BSRD is written by BSRESET, BSGET and SWRST only (R28). -/
theorem effectOf_bsrd {i : Instr} (s : State) (hswrst : i ≠ .swrst) (hreset : i ≠ .bsreset)
    (hget : ∀ w, i ≠ .bsget w) : (effectOf i s).bsrd = s.bsrd := by
  cases i with
  | swrst => exact absurd rfl hswrst
  | bsreset => exact absurd rfl hreset
  | bsget w => exact absurd rfl (hget w)
  | bsappend | bspad => exact putBits_bsrd _ s
  | _ => rfl

/-- BSLEN is written by BSRESET, BSAPPEND, BSPAD and SWRST only (R28). -/
theorem effectOf_bslen {i : Instr} (s : State) (hswrst : i ≠ .swrst) (hreset : i ≠ .bsreset)
    (happend : ∀ w, i ≠ .bsappend w) (hpad : i ≠ .bspad) : (effectOf i s).bslen = s.bslen := by
  cases i with
  | swrst => exact absurd rfl hswrst
  | bsreset => exact absurd rfl hreset
  | bsappend w => exact absurd rfl (happend w)
  | bspad => exact absurd rfl hpad
  | _ => rfl

/-- PEN1 to PEN4 are written by PSCORE and SWRST only (R29). -/
theorem effectOf_pens {i : Instr} (s : State) (hswrst : i ≠ .swrst) (hpscore : ∀ m, i ≠ .pscore m) :
    (effectOf i s).pen1 = s.pen1 ∧ (effectOf i s).pen2 = s.pen2 ∧
    (effectOf i s).pen3 = s.pen3 ∧ (effectOf i s).pen4 = s.pen4 := by
  cases i with
  | swrst => exact absurd rfl hswrst
  | pscore m => exact absurd rfl (hpscore m)
  | bsappend | bspad => exact putBits_pens _ s
  | _ => exact ⟨rfl, rfl, rfl, rfl⟩

/-- Settles O22: a failing command and the common end write none of these registers, and each effect only those
its rule names. -/
theorem commandsWriteOnlyTheirRegisters : Obligations.CommandsWriteOnlyTheirRegisters := by
  intro i s t h
  obtain ⟨hmat, hport, hresp, hera, -⟩ := exec_keeps h
  refine ⟨hmat, hport, hresp, hera, ?_⟩
  rcases exec_cases h with ⟨rfl, rfl⟩ | ⟨hi, e, -, rfl⟩ | ⟨hi, -, rfl⟩
  case inl => simp
  case inr.inl => simp
  case inr.inr =>
    obtain ⟨-, -, hie, ha, hb, hc, hd, -, hbsbase, hbscap, hmsize, -⟩ := effectOf_keeps hi s
    exact ⟨fun _ => ⟨hie, ha, hb, hc, hd, hbsbase, hbscap, hmsize⟩, effectOf_bsrd s, effectOf_bslen s,
      effectOf_pens s⟩

/-! ### RESULT (R26) -/

/-- The number BSGET reads has at most its width in bits (R159). -/
theorem takeBits_lt (s : State) (w k : Nat) : takeBits s w k 0 < 2 ^ w := by
  obtain ⟨hquot, -⟩ := takeBits_spec s w k 0
  exact (Nat.div_eq_zero_iff_lt (Nat.two_pow_pos w)).mp hquot

/-- A byte in RESULT is zero-extended. -/
theorem zext32_lt (v : Byte) : (zext32 v).toNat < 256 := by
  rw [zext32_eq, BitVec.toNat_ofNat]
  exact (Nat.mod_le _ _).trans_lt v.isLt

/-- What each command leaves in RESULT when its checks hold: the value R26 gives it, in its range, or the value
before. -/
theorem resultOf_effectOf (i : Instr) (s : State) :
    match i with
    | .gfmul _ _ | .gfdiv _ _ | .gfexp _ | .gflog _ => (effectOf i s).result.toNat < 256
    | .bsget w => (effectOf i s).result.toNat < 2 ^ w
    | .pscore _ => (effectOf i s).result =
        (effectOf i s).pen1 + (effectOf i s).pen2 + (effectOf i s).pen3 + (effectOf i s).pen4
    | .swrst => (effectOf i s).result = 0
    | _ => (effectOf i s).result = s.result := by
  cases i with
  | gfmul | gfdiv | gfexp | gflog => exact zext32_lt _
  | bsget w => exact (Nat.mod_le _ _).trans_lt (takeBits_lt s w _)
  | pscore m => simp only [effectOf, pscoreEffect, BitVec.ofNat_add]
  | bsappend | bspad => exact putBits_result _ s
  | _ => rfl

/-- Settles O23: a failing command keeps RESULT, and the common end keeps what the effect left in it. -/
theorem resultRegisterWriters : Obligations.ResultRegisterWriters := by
  intro i s t h
  have heffect := resultOf_effectOf i s
  rcases exec_cases h with ⟨rfl, rfl⟩ | ⟨hi, e, he, rfl⟩ | ⟨hi, -, rfl⟩
  case inl => exact ⟨fun hne => absurd rfl hne, fun _ => rfl⟩
  case inr.inl =>
    refine ⟨fun _ => rfl, fun hok => ?_⟩
    have hok : e = .ok := hok
    exact absurd (hok ▸ he) (checksOf_ne_ok i s _)
  case inr.inr =>
    refine ⟨fun hne => absurd rfl hne, fun _ => ?_⟩
    cases i <;> exact heffect

end Sys2Proof.Registers
end

section
/-! SUPPORT. The proofs of the statements on the tables EXP and LOG and on gfmul (10_state section 3, 40_gf256).
Every nonzero byte is a power of α, so multiplication by it is multiplication by x, repeated. -/

namespace Sys2Proof.Field
open Sys2Proof Sys2Proof.Machine Sys2Proof.Spec

/-! ### EXP and LOG are inverse (R42, R43) -/

theorem expRom_ne_zero {i : Nat} (hi : i < 255) : expRom i ≠ 0 := (logRom_expRom i hi).2

theorem logRom_expRom_toNat {i : Nat} (hi : i < 255) : (logRom (expRom i)).toNat = i := (logRom_expRom i hi).1

theorem expRom_logRom {a : Byte} (ha : a ≠ 0) : (logRom a).toNat ≤ 254 ∧ expRom (logRom a).toNat = a := by
  have hne : a.toNat ≠ 0 := fun h => ha (BitVec.eq_of_toNat_eq h)
  simpa using expRom_logRom_num a.toNat a.isLt hne

/-- Every byte is 0 or a power of α. -/
theorem eq_zero_or_expRom (a : Byte) : a = 0 ∨ ∃ i, i < 255 ∧ a = expRom i := by
  by_cases ha : a = 0
  · exact .inl ha
  · obtain ⟨hlog, hexp⟩ := expRom_logRom ha
    exact .inr ⟨(logRom a).toNat, by omega, hexp.symm⟩

/-! ### gfmul on powers of α -/

@[simp] theorem zero_gfmul (a : Byte) : gfmul 0#8 a = 0#8 := if_pos (.inl rfl)

@[simp] theorem gfmul_zero (a : Byte) : gfmul a 0#8 = 0#8 := if_pos (.inr rfl)

theorem gfmul_comm (a b : Byte) : gfmul a b = gfmul b a := by
  simp only [gfmul, or_comm, Nat.add_comm]

/-- Products add exponents. -/
theorem gfmul_expRom_expRom {i j : Nat} (hi : i < 255) (hj : j < 255) :
    gfmul (expRom i) (expRom j) = expRom ((i + j) % 255) := by
  rw [gfmul, if_neg (not_or.mpr ⟨expRom_ne_zero hi, expRom_ne_zero hj⟩), logRom_expRom_toNat hi,
    logRom_expRom_toNat hj]

/-- Multiplication by α^i is multiplication by x, i times. -/
theorem gfmul_expRom {i : Nat} (hi : i < 255) (b : Byte) : gfmul (expRom i) b = xtime^[i] b := by
  obtain rfl | ⟨j, hj, rfl⟩ := eq_zero_or_expRom b
  · exact (gfmul_zero _).trans (xtime_iterate_zero i).symm
  · rw [gfmul_expRom_expRom hi hj, expRom_add i j hj]

/-- Settles O30: the recurrence and the inverse are the tables' own; the rest follows from them. -/
theorem expAndLogLaws : Obligations.ExpAndLogLaws := by
  refine ⟨rfl, rfl, ?_, fun a => expRom_logRom, fun i hi => logRom_expRom_toNat (by omega), ?_, ?_, ?_⟩
  · intro i hi
    rw [← expRom_succ i (by omega), Nat.mod_eq_of_lt (by omega)]
  · intro a ha
    refine ⟨(logRom a).toNat, expRom_logRom ha, ?_⟩
    rintro i ⟨hi, rfl⟩
    exact (logRom_expRom_toNat (by omega)).symm
  · exact fun i j hi hj => gfmul_expRom_expRom (by omega) (by omega)
  · intro a b ha hb
    rw [gfmul, if_neg (not_or.mpr ⟨ha, hb⟩)]
    exact logRom_expRom_toNat (Nat.mod_lt _ (by decide))

/-! ### The field laws (R40, R111) -/

theorem gfmul_assoc (a b c : Byte) : gfmul (gfmul a b) c = gfmul a (gfmul b c) := by
  obtain rfl | ⟨i, hi, rfl⟩ := eq_zero_or_expRom a
  · simp
  obtain rfl | ⟨j, hj, rfl⟩ := eq_zero_or_expRom b
  · simp
  obtain rfl | ⟨k, hk, rfl⟩ := eq_zero_or_expRom c
  · simp
  have hmod (n : Nat) : n % 255 < 255 := Nat.mod_lt _ (by decide)
  rw [gfmul_expRom_expRom hi hj, gfmul_expRom_expRom hj hk, gfmul_expRom_expRom (hmod _) hk,
    gfmul_expRom_expRom hi (hmod _), Nat.mod_add_mod, Nat.add_mod_mod, Nat.add_assoc]

/-- Multiplication by x is linear, so multiplication by a power of α is. -/
theorem gfmul_xor (a b c : Byte) : gfmul a (b ^^^ c) = gfmul a b ^^^ gfmul a c := by
  obtain rfl | ⟨i, hi, rfl⟩ := eq_zero_or_expRom a
  · simp
  · simp only [gfmul_expRom hi, xtime_iterate_xor]

theorem xor_gfmul (a b c : Byte) : gfmul (a ^^^ b) c = gfmul a c ^^^ gfmul b c := by
  rw [gfmul_comm, gfmul_xor, gfmul_comm c a, gfmul_comm c b]

@[simp] theorem one_gfmul (a : Byte) : gfmul 1#8 a = a := gfmul_expRom (i := 0) (by decide) a

theorem gfmul_eq_zero {a b : Byte} (h : gfmul a b = 0) : a = 0 ∨ b = 0 := by
  by_contra hne
  rw [gfmul, if_neg hne] at h
  exact expRom_ne_zero (Nat.mod_lt _ (by decide)) h

/-- Settles O32. -/
theorem gfmulFieldLaws : Obligations.GfmulFieldLaws :=
  ⟨gfmul_comm, gfmul_assoc, gfmul_xor, fun a => ⟨one_gfmul a, zero_gfmul a⟩, fun _ _ => gfmul_eq_zero⟩

/-! ### Reduction modulo 0x11D (R40) -/

theorem reduceTerms_succ (n : Nat) (p : BitVec 16) :
    reduceTerms (n + 1) p = reduceTerms n (if p.getLsbD (8 + n) then p ^^^ (0x11D#16 <<< n) else p) := rfl

theorem reduceTerms_zero (n : Nat) : reduceTerms n 0#16 = 0#16 := by
  induction n with
  | zero => rfl
  | succ n ih => simpa [reduceTerms_succ] using ih

theorem setWidth_reduceTerms_zero (n : Nat) : (reduceTerms n 0#16).setWidth 8 = 0#8 := by
  rw [reduceTerms_zero]
  rfl

/-- Reduction is linear: the terms to cancel are those of one of the two summands. -/
theorem reduceTerms_xor (n : Nat) (p q : BitVec 16) :
    reduceTerms n (p ^^^ q) = reduceTerms n p ^^^ reduceTerms n q := by
  induction n generalizing p q with
  | zero => rfl
  | succ n ih =>
    simp only [reduceTerms_succ, ← ih, BitVec.getLsbD_xor]
    congr 1
    generalize 0x11D#16 <<< n = m
    cases p.getLsbD (8 + n) <;> cases q.getLsbD (8 + n)
    · rfl
    · exact BitVec.xor_assoc p q m
    · show p ^^^ q ^^^ m = p ^^^ m ^^^ q
      ac_rfl
    · show p ^^^ q = p ^^^ m ^^^ (q ^^^ m)
      rw [show p ^^^ m ^^^ (q ^^^ m) = p ^^^ q ^^^ (m ^^^ m) by ac_rfl, BitVec.xor_self, BitVec.xor_zero]

/-- A byte has no terms to cancel. -/
theorem reduceTerms_byte (n : Nat) (a : Byte) : reduceTerms n (a.setWidth 16) = a.setWidth 16 := by
  induction n with
  | zero => rfl
  | succ n ih =>
    have hbit : (a.setWidth 16).getLsbD (8 + n) = false := by
      rw [BitVec.getLsbD_setWidth, BitVec.getLsbD_of_ge a _ (by omega), Bool.and_false]
    rw [reduceTerms_succ, hbit]
    exact ih

/-- To reduce x·p is to reduce p, multiply by x and cancel the term x^8. -/
theorem reduceTerms_succ_shiftLeft (n : Nat) (hn : n < 8) (p : BitVec 16) :
    reduceTerms (n + 1) (p <<< 1) = reduceTerms 1 (reduceTerms n p <<< 1) := by
  induction n generalizing p with
  | zero => rfl
  | succ n ih =>
    have hbit : (p <<< 1).getLsbD (8 + (n + 1)) = p.getLsbD (8 + n) := by
      rw [BitVec.getLsbD_shiftLeft, decide_eq_true (by omega), decide_eq_false (by omega)]
      rfl
    have hstep : (if p.getLsbD (8 + n) then p <<< 1 ^^^ (0x11D#16 <<< (n + 1)) else p <<< 1) =
        (if p.getLsbD (8 + n) then p ^^^ (0x11D#16 <<< n) else p) <<< 1 := by
      cases p.getLsbD (8 + n) <;> simp [BitVec.shiftLeft_xor_distrib, BitVec.shiftLeft_add]
    rw [reduceTerms_succ, hbit, hstep, ih (by omega), ← reduceTerms_succ]

/-- Cancelling the term x^8 of x·p is what multiplication by x does to the byte of p. -/
theorem setWidth_reduceTerms_one (p : BitVec 16) :
    (reduceTerms 1 (p <<< 1)).setWidth 8 = xtime (p.setWidth 8) := by
  have hbit : (p <<< 1).getLsbD 8 = (p.setWidth 8).getLsbD 7 := by
    simp
  have hshift : (p <<< 1).setWidth 8 = p.setWidth 8 <<< 1 := BitVec.setWidth_shiftLeft_of_le (by decide)
  rw [reduceTerms_succ, xtime, hbit]
  cases (p.setWidth 8).getLsbD 7
  · simp [reduceTerms, hshift]
  · simp [reduceTerms, BitVec.setWidth_xor, hshift]

/-- The reduction of a·x^k is multiplication of a by x, k times. -/
theorem setWidth_reduceTerms_shiftLeft {k n : Nat} (hkn : k ≤ n) (hn : n < 8) (a : Byte) :
    (reduceTerms n (a.setWidth 16 <<< k)).setWidth 8 = xtime^[k] a := by
  induction k generalizing n with
  | zero =>
    rw [BitVec.shiftLeft_zero, reduceTerms_byte]
    simp
  | succ k ih =>
    obtain ⟨n, rfl⟩ : ∃ m, n = m + 1 := ⟨n - 1, by omega⟩
    rw [BitVec.shiftLeft_add, reduceTerms_succ_shiftLeft n (by omega), setWidth_reduceTerms_one,
      ih (by omega) (by omega), Function.iterate_succ_apply']

/-! ### gfmul bit by bit -/

/-- The n low bits of a byte, as a byte. -/
def lowBits (b : Byte) (n : Nat) : Byte := (b.setWidth n).setWidth 8

theorem lowBits_zero (b : Byte) : lowBits b 0 = 0#8 := by
  rw [lowBits, BitVec.eq_nil (b.setWidth 0)]
  rfl

theorem lowBits_eight (b : Byte) : lowBits b 8 = b := by
  simp [lowBits]

theorem getLsbD_lowBits (b : Byte) (n : Nat) {i : Nat} (hi : i < 8) :
    (lowBits b n).getLsbD i = (decide (i < n) && b.getLsbD i) := by
  simp [lowBits, BitVec.getLsbD_setWidth, hi]

theorem expRom_eq_twoPow : ∀ n, n < 8 → expRom n = BitVec.twoPow 8 n := by decide

/-- One bit more is one power of α more. -/
theorem lowBits_succ (b : Byte) {n : Nat} (hn : n < 8) :
    lowBits b (n + 1) = lowBits b n ^^^ (if b.getLsbD n then expRom n else 0) := by
  have hpow (i : Nat) : (expRom n).getLsbD i = decide (n = i) := by
    rw [expRom_eq_twoPow n hn, BitVec.getLsbD_twoPow, decide_eq_true hn, Bool.true_and]
  apply BitVec.eq_of_getLsbD_eq
  intro i hi
  rw [BitVec.getLsbD_xor, getLsbD_lowBits b _ hi, getLsbD_lowBits b _ hi]
  by_cases hin : n = i
  · subst hin
    cases b.getLsbD n <;> simp [hpow]
  · have hlt : i < n + 1 ↔ i < n := by omega
    cases b.getLsbD n <;> simp [hpow, hin, hlt]

/-- The carry-less product by the n low bits of b, reduced, is gfmul by them. -/
theorem setWidth_reduceTerms_carrylessMul (a b : Byte) {n : Nat} (hn : n ≤ 8) :
    (reduceTerms 7 (carrylessMul a b n)).setWidth 8 = gfmul a (lowBits b n) := by
  induction n with
  | zero =>
    rw [lowBits_zero, gfmul_zero]
    exact setWidth_reduceTerms_zero 7
  | succ n ih =>
    rw [carrylessMul, reduceTerms_xor, BitVec.setWidth_xor, ih (by omega), lowBits_succ b (by omega), gfmul_xor]
    congr 1
    cases b.getLsbD n
    · exact (setWidth_reduceTerms_zero 7).trans (gfmul_zero a).symm
    · rw [if_pos rfl, if_pos rfl, setWidth_reduceTerms_shiftLeft (by omega) (by omega), gfmul_comm,
        gfmul_expRom (by omega)]

/-- Settles O31: the product by the whole of b. -/
theorem gfmulIsThePolynomialProduct : Obligations.GfmulIsThePolynomialProduct := by
  intro a b
  rw [polyProduct, setWidth_reduceTerms_carrylessMul a b le_rfl, lowBits_eight]

end Sys2Proof.Field
end

section
/-! SUPPORT. The proof of the statement on the generator polynomials (10_state section 3): a polynomial's value at
a point is compatible with sums, multiples and products, so a root of a factor is a root of the product. -/

namespace Sys2Proof.Generators
open Sys2Proof Sys2Proof.Machine Sys2Proof.Spec Sys2Proof.Field

/-! ### The value of a polynomial at a point (R15) -/

/-- Repeated multiplication by x is additive. -/
theorem iterate_gfmul_xor (x : Byte) (n : Nat) (a b : Byte) :
    (gfmul x)^[n] (a ^^^ b) = (gfmul x)^[n] a ^^^ (gfmul x)^[n] b := by
  induction n generalizing a b with
  | zero => rfl
  | succ n ih => simp only [Function.iterate_succ_apply, gfmul_xor, ih]

/-- Repeated multiplication by x commutes with multiplication by a constant. -/
theorem iterate_gfmul_gfmul (x : Byte) (n : Nat) (a b : Byte) :
    (gfmul x)^[n] (gfmul a b) = gfmul ((gfmul x)^[n] a) b := by
  induction n generalizing a with
  | zero => rfl
  | succ n ih => rw [Function.iterate_succ_apply, Function.iterate_succ_apply, ← gfmul_assoc, ih]

theorem iterate_gfmul_zero (x : Byte) (n : Nat) : (gfmul x)^[n] 0 = 0 :=
  Function.iterate_fixed (gfmul_zero x) n

@[simp] theorem polyEval_nil (x : Byte) : polyEval x [] = 0#8 := rfl

/-- One coefficient more at the end: the value so far is multiplied by x. -/
theorem polyEval_concat (x c : Byte) (p : List Byte) : polyEval x (p ++ [c]) = gfmul x (polyEval x p) ^^^ c := by
  rw [gfmul_comm, polyEval, List.foldl_append, List.foldl_cons, List.foldl_nil, polyEval]

/-- The leading coefficient counts with x to the number of coefficients after it. -/
theorem polyEval_cons (x c : Byte) (p : List Byte) :
    polyEval x (c :: p) = (gfmul x)^[p.length] c ^^^ polyEval x p := by
  induction p using List.reverseRecOn with
  | nil => simp [polyEval]
  | append_singleton p d ih =>
    rw [← List.cons_append, polyEval_concat, polyEval_concat, ih, gfmul_xor, List.length_append,
      List.length_singleton, Function.iterate_succ_apply', BitVec.xor_assoc]

theorem polyEval_append_zeros (x : Byte) (p : List Byte) (n : Nat) :
    polyEval x (p ++ List.replicate n 0) = (gfmul x)^[n] (polyEval x p) := by
  induction n with
  | zero => simp
  | succ n ih =>
    rw [List.replicate_succ', ← List.append_assoc, polyEval_concat, ih, Function.iterate_succ_apply']
    exact BitVec.xor_zero

theorem polyEval_zeros_append (x : Byte) (n : Nat) (p : List Byte) :
    polyEval x (List.replicate n 0 ++ p) = polyEval x p := by
  induction n with
  | zero => rfl
  | succ n ih =>
    rw [List.replicate_succ, List.cons_append, polyEval_cons, ih, iterate_gfmul_zero]
    exact BitVec.zero_xor

theorem polyEval_zipWith_xor (x : Byte) {p q : List Byte} (h : p.length = q.length) :
    polyEval x (List.zipWith (· ^^^ ·) p q) = polyEval x p ^^^ polyEval x q := by
  induction p generalizing q with
  | nil => simp [List.length_eq_zero_iff.mp h.symm]
  | cons c p ih =>
    obtain _ | ⟨d, q⟩ := q
    · simp at h
    have h : p.length = q.length := by simpa using h
    rw [List.zipWith_cons_cons, polyEval_cons, polyEval_cons, polyEval_cons, ih h, List.length_zipWith, h,
      Nat.min_self, iterate_gfmul_xor]
    ac_rfl

theorem polyEval_polyAdd (x : Byte) (p q : List Byte) :
    polyEval x (polyAdd p q) = polyEval x p ^^^ polyEval x q := by
  have hlength : (padTo q.length p).length = (padTo p.length q).length := by
    simp only [padTo, List.length_append, List.length_replicate]
    omega
  rw [polyAdd, polyEval_zipWith_xor x hlength, padTo, padTo, polyEval_zeros_append, polyEval_zeros_append]

theorem polyEval_polyScale (x c : Byte) (p : List Byte) : polyEval x (polyScale c p) = gfmul c (polyEval x p) := by
  induction p with
  | nil => exact (gfmul_zero c).symm
  | cons d p ih =>
    rw [polyScale, List.map_cons, polyEval_cons, polyEval_cons, gfmul_xor, ← ih, List.length_map,
      gfmul_comm c d, iterate_gfmul_gfmul, gfmul_comm, polyScale]

/-- The value of a product is the product of the values. -/
theorem polyEval_polyMul (x : Byte) (p q : List Byte) :
    polyEval x (polyMul p q) = gfmul (polyEval x p) (polyEval x q) := by
  induction p with
  | nil => exact (zero_gfmul _).symm
  | cons c p ih =>
    rw [polyMul, polyEval_polyAdd, polyEval_append_zeros, polyEval_polyScale, iterate_gfmul_gfmul, ih,
      polyEval_cons, xor_gfmul]

/-! ### The generator polynomials (R45, R46) -/

/-- Each GEN is the one before it times the next linear factor, as the ROM holds them. -/
theorem genRom_succ : ∀ n, n < 30 → genRom (n + 1) = polyMul (genRom n) [1, expRom n] := by decide +kernel

/-- The value of x − c at the root c. -/
theorem polyEval_linear (x c : Byte) : polyEval x [1, c] = x ^^^ c := by
  simp [polyEval]

/-- A root of GEN[n] is α^i with i < n, by the factor in which it was introduced. -/
theorem polyEval_genRom {n i : Nat} (hn : n ≤ 30) (hi : i < n) : polyEval (expRom i) (genRom n) = 0 := by
  induction n with
  | zero => omega
  | succ n ih =>
    rw [genRom_succ n (by omega), polyEval_polyMul, polyEval_linear]
    obtain rfl | hlt : i = n ∨ i < n := by omega
    · rw [BitVec.xor_self]
      exact gfmul_zero _
    · rw [ih (by omega) hlt]
      exact zero_gfmul _

/-- Settles O34: the products as the ROM holds them, and their roots from the factors. -/
theorem generatorPolynomials : Obligations.GeneratorPolynomials := by
  refine ⟨rfl, genRom_succ, fun n hn => ⟨length_genRom n hn, ?_⟩, fun n i => polyEval_genRom⟩
  rw [genRom_eq_cons n hn]
  rfl

end Sys2Proof.Generators
end

section
/-! SUPPORT. The proofs of the statements on the host's accesses (20_memory): which accesses get a bus error, what a
read and a write of a register or of a RAM window do, and which event a step takes. -/

namespace Sys2Proof.HostAccess
open Sys2Proof Sys2Proof.Machine Sys2Proof.Spec

/-! ### Which accesses are accepted (R63, R67, R68) -/

/-- The registers fill the offsets below 0x4C, one per word (R20). -/
theorem regMap_getElem?_ne_none {k : Nat} (hk : k < 19) : regMap[k]? ≠ none := by
  simpa [regMap] using hk

/-- The rejected accesses, with alignment told by the bytes an access moves (R68). -/
theorem rejected_iff (w : Width) (off : Nat) :
    Rejected w off ↔
      (0x4C ≤ off ∧ off < 0x4000) ∨ 0x9000 ≤ off ∨ (off < 0x4C ∧ (w ≠ .w32 ∨ off % 4 ≠ 0)) ∨
        (0x4000 ≤ off ∧ off < 0x9000 ∧ off % w.bytes ≠ 0) := by
  cases w <;> simp [Rejected, Width.bytes, Nat.mod_one]

/-- The accesses that reach nothing, range by range of the window. -/
theorem target_eq_none_iff (w : Width) (off : Nat) : target w off = none ↔ Rejected w off := by
  rw [rejected_iff, target]
  split_ifs with hreg hword hbuf halign hmat halign
  · obtain ⟨rfl, haligned⟩ := hword
    have hmap := regMap_getElem?_ne_none (k := off / 4) (by omega)
    simp only [Option.map_eq_none_iff, hmap, false_iff, ne_eq, not_true_eq_false, false_or]
    omega
  · exact iff_of_true rfl (.inr (.inr (.inl ⟨hreg, not_and_or.mp hword⟩)))
  · exact iff_of_false nofun (by simp [hreg, halign]; omega)
  · exact iff_of_true rfl (.inr (.inr (.inr ⟨hbuf.1, by omega, halign⟩)))
  · exact iff_of_false nofun (by simp [hreg, halign]; omega)
  · exact iff_of_true rfl (.inr (.inr (.inr ⟨by omega, hmat.2, halign⟩)))
  · exact iff_of_true rfl (by simp only [hreg]; omega)

/-! ### What serving an access can do (R65, R66, R69, R70) -/

/-- Every register but CMD takes a host write without a command. -/
theorem serveWrite_reg {w : Width} {off : Offset} {r : Reg} (v : Word) (s : State)
    (ht : target w off.toNat = some (.reg r)) (hr : r ≠ .cmd) :
    serveWrite w off v s = .next (hostWriteReg r v { s with resp := .ack }) := by
  unfold serveWrite
  rw [ht]
  cases r with
  | cmd => exact absurd rfl hr
  | _ => rfl

theorem serveWrite_buf {w : Width} {off : Offset} {i : Nat} (v : Word) (s : State)
    (ht : target w off.toNat = some (.buf i)) :
    serveWrite w off v s = .next (memWrite i (leBytes v w.bytes) { s with resp := .ack }) := by
  unfold serveWrite
  rw [ht]

theorem serveWrite_mat {w : Width} {off : Offset} {j : Nat} (v : Word) (s : State)
    (ht : target w off.toNat = some (.mat j)) :
    serveWrite w off v s = .next (matWrite j (leBytes v w.bytes) { s with resp := .ack }) := by
  unfold serveWrite
  rw [ht]

theorem serveWrite_rejected {w : Width} {off : Offset} (v : Word) (s : State)
    (ht : target w off.toNat = none) : serveWrite w off v s = .next { s with resp := .buserr } := by
  unfold serveWrite
  rw [ht]

/-- What a host write can do: get a bus error, run a command, or write a register or a RAM. -/
theorem serveWrite_cases {w : Width} {off : Offset} {v : Word} {s t : State} (h : serveWrite w off v s = .next t) :
    (target w off.toNat = none ∧ t = { s with resp := .buserr }) ∨
    (target w off.toNat = some (.reg .cmd) ∧ runCommand v { s with resp := .ack } = .next t) ∨
    (∃ r, target w off.toNat = some (.reg r) ∧ t = hostWriteReg r v { s with resp := .ack }) ∨
    (∃ i, target w off.toNat = some (.buf i) ∧ t = memWrite i (leBytes v w.bytes) { s with resp := .ack }) ∨
    (∃ j, target w off.toNat = some (.mat j) ∧ t = matWrite j (leBytes v w.bytes) { s with resp := .ack }) := by
  unfold serveWrite at h
  split at h
  case h_1 ht => exact .inr (.inl ⟨ht, h⟩)
  case h_2 r _ ht =>
    injection h with h
    exact .inr (.inr (.inl ⟨r, ht, h.symm⟩))
  case h_3 i ht =>
    injection h with h
    exact .inr (.inr (.inr (.inl ⟨i, ht, h.symm⟩)))
  case h_4 j ht =>
    injection h with h
    exact .inr (.inr (.inr (.inr ⟨j, ht, h.symm⟩)))
  case h_5 ht =>
    injection h with h
    exact .inl ⟨ht, h.symm⟩

theorem serveWrite_next (w : Width) (off : Offset) (v : Word) (s : State) : ∃ t, serveWrite w off v s = .next t := by
  unfold serveWrite
  split
  case h_1 => exact runCommand_next v _
  all_goals exact ⟨_, rfl⟩

/-- A write of STATUS clears STICKY when its bit 4 is set (R22). -/
theorem writeStatus_eq (v : Word) (s : State) :
    writeStatus v s = { s with sticky := s.sticky && !v.getLsbD 4 } := by
  unfold writeStatus clearSticky
  cases v.getLsbD 4 <;> simp

/-- A host write of a register leaves the model's own fields alone. -/
theorem hostWriteReg_keeps (r : Reg) (v : Word) (s : State) :
    (hostWriteReg r v s).port = s.port ∧ (hostWriteReg r v s).resp = s.resp := by
  cases r with
  | status =>
    rw [hostWriteReg, writeStatus_eq]
    exact ⟨rfl, rfl⟩
  | _ => exact ⟨rfl, rfl⟩

/-- A host write takes no event beyond its own. -/
theorem serveWrite_port {w : Width} {off : Offset} {v : Word} {s t : State} (h : serveWrite w off v s = .next t) :
    t.port = s.port := by
  rcases serveWrite_cases h with ⟨-, rfl⟩ | ⟨-, hrun⟩ | ⟨r, -, rfl⟩ | ⟨i, -, rfl⟩ | ⟨j, -, rfl⟩
  case inl => rfl
  case inr.inl =>
    obtain ⟨-, hport, -⟩ := runCommand_keeps hrun
    exact hport
  case inr.inr.inl => exact (hostWriteReg_keeps r v _).1
  case inr.inr.inr.inl => rfl
  case inr.inr.inr.inr => rfl

/-- An accepted write is acknowledged, a command's too, whether it fails or not (R71). -/
theorem serveWrite_resp {w : Width} {off : Offset} {v : Word} {s t : State} (h : serveWrite w off v s = .next t)
    (ht : target w off.toNat ≠ none) : t.resp = .ack := by
  rcases serveWrite_cases h with ⟨hnone, -⟩ | ⟨-, hrun⟩ | ⟨r, -, rfl⟩ | ⟨i, -, rfl⟩ | ⟨j, -, rfl⟩
  case inl => exact absurd hnone ht
  case inr.inl =>
    obtain ⟨-, -, hresp, -⟩ := runCommand_keeps hrun
    exact hresp
  case inr.inr.inl => exact (hostWriteReg_keeps r v _).2
  case inr.inr.inr.inl => rfl
  case inr.inr.inr.inr => rfl

theorem serveRead_accepted {w : Width} {off : Offset} {tgt : Target} (s : State)
    (ht : target w off.toNat = some tgt) :
    serveRead w off s = { s with resp := .data (readTarget w s tgt) } := by
  unfold serveRead
  rw [ht]

theorem serveRead_rejected {w : Width} {off : Offset} (s : State) (ht : target w off.toNat = none) :
    serveRead w off s = { s with resp := .buserr } := by
  unfold serveRead
  rw [ht]

/-- A read changes the response only (R69). -/
theorem serveRead_frame (w : Width) (off : Offset) (s : State) :
    serveRead w off s = { s with resp := (serveRead w off s).resp } := by
  cases ht : target w off.toNat with
  | none => rw [serveRead_rejected s ht]
  | some tgt => rw [serveRead_accepted s ht]

/-- What a read returns depends neither on the events pending nor on the last response. -/
theorem readTarget_port_resp (w : Width) (s : State) (p : List HostEvent) (r : BusResp) (tgt : Target) :
    readTarget w { s with port := p, resp := r } tgt = readTarget w s tgt := by
  cases tgt with
  | reg q => cases q <;> rfl
  | buf i => rfl
  | mat j => rfl

theorem serveRead_resp_congr (w : Width) (off : Offset) (s : State) (p : List HostEvent) (r : BusResp) :
    (serveRead w off { s with port := p, resp := r }).resp = (serveRead w off s).resp := by
  cases ht : target w off.toNat with
  | none => rw [serveRead_rejected _ ht, serveRead_rejected _ ht]
  | some tgt => rw [serveRead_accepted _ ht, serveRead_accepted _ ht, readTarget_port_resp]

/-! ### The step on an access (R66, R72, R236) -/

/-- Serving an event leaves the events after it. -/
theorem serve_port {ev : HostEvent} {s t : State} (h : serve ev s = .next t) : t.port = s.port := by
  cases ev with
  | read w off =>
    injection h with h
    rw [← h, serveRead_frame]
  | write w off v => exact serveWrite_port h
  | reset =>
    injection h with h
    rw [← h]
    rfl
  | abortedCmd w =>
    injection h with h
    rw [← h]
    rfl

/-- Settles O9: the event served is taken from the port, and its service leaves the rest. -/
theorem stepTakesTheOldestEvent : Obligations.StepTakesTheOldestEvent := by
  intro s t h
  refine ⟨fun ev rest hport => ?_, fun hport => ?_⟩
  · rw [step_of_port_cons hport] at h
    exact serve_port h
  · rw [step_of_port_nil hport] at h
    injection h with h
    exact h.symm

theorem step_of_read {s : State} {rest : List HostEvent} {w : Width} {off : Offset}
    (h : s.port = .read w off :: rest) :
    step s = .next { s with port := rest, resp := (serveRead w off s).resp } := by
  rw [step_of_port_cons h, serve, serveRead_frame, serveRead_resp_congr w off s rest s.resp]

theorem step_of_write {s : State} {rest : List HostEvent} {w : Width} {off : Offset} {v : Word}
    (h : s.port = .write w off v :: rest) : step s = serveWrite w off v { s with port := rest } := by
  rw [step_of_port_cons h, serve]

/-- A read gets BUSERR exactly when it is rejected. -/
theorem serveRead_resp_eq_buserr_iff (w : Width) (off : Offset) (s : State) :
    (serveRead w off s).resp = .buserr ↔ Rejected w off.toNat := by
  rw [← target_eq_none_iff]
  cases ht : target w off.toNat with
  | none => simp [serveRead_rejected s ht]
  | some tgt => simp [serveRead_accepted s ht]

/-- A write gets BUSERR exactly when it is rejected. -/
theorem serveWrite_resp_eq_buserr_iff {w : Width} {off : Offset} {v : Word} {s t : State}
    (h : serveWrite w off v s = .next t) : t.resp = .buserr ↔ Rejected w off.toNat := by
  rw [← target_eq_none_iff]
  by_cases ht : target w off.toNat = none
  · rw [serveWrite_rejected v s ht] at h
    injection h with h
    simp [← h, ht]
  · simp [serveWrite_resp h ht, ht]

/-- Settles O10: the rejected accesses are those that reach nothing. -/
theorem busErrorsAreThese : Obligations.BusErrorsAreThese := by
  rintro s rest w off v ev (rfl | rfl) hport
  case inl =>
    refine ⟨_, step_of_read hport, serveRead_resp_eq_buserr_iff w off s, fun hrej => ?_⟩
    rw [(serveRead_resp_eq_buserr_iff w off s).mpr hrej]
  case inr =>
    obtain ⟨t, ht⟩ := serveWrite_next w off v { s with port := rest }
    refine ⟨t, by rw [step_of_write hport, ht], serveWrite_resp_eq_buserr_iff ht, fun hrej => ?_⟩
    rw [serveWrite_rejected v _ ((target_eq_none_iff w off.toNat).mpr hrej)] at ht
    injection ht with ht
    exact ht.symm

/-- Settles O11: the second read finds the state of the first but for the port and the response, on which its
own response does not depend. -/
theorem hostReadsHaveNoSideEffect : Obligations.HostReadsHaveNoSideEffect := by
  intro s rest w off hport
  refine ⟨(serveRead w off s).resp, step_of_read hport, ?_⟩
  rw [step_of_read rfl, serveRead_resp_congr w off s (.read w off :: rest)]

/-! ### Writes of registers (R22, R23, R70) -/

/-- A write event at the offset of a register other than CMD is the host's write of that register. -/
theorem step_of_register_write {s : State} {rest : List HostEvent} {r : Reg} {v : Word} (hr : r ≠ .cmd)
    (h : s.port = .write .w32 (regOffset r) v :: rest) : step s = .next (hostWriteReg r v (accepted rest s)) := by
  rw [step_of_write h]
  exact serveWrite_reg v _ (Registers.target_regOffset r) hr

/-- The read-only registers (R20). -/
def readOnlyRegs : List Reg := [.id, .result, .cmdcnt, .bslen, .pen1, .pen2, .pen3, .pen4]

theorem readOnlyOffsets_eq_map :
    [0x0000#16, 0x0020#16, 0x0024#16, 0x0030#16, 0x003C#16, 0x0040#16, 0x0044#16, 0x0048#16] =
      readOnlyRegs.map regOffset := by decide

theorem hostWriteReg_readOnly {r : Reg} (hr : r ∈ readOnlyRegs) (v : Word) (s : State) :
    r ≠ .cmd ∧ hostWriteReg r v s = s := by
  simp only [readOnlyRegs, List.mem_cons, List.not_mem_nil, or_false] at hr
  rcases hr with rfl | rfl | rfl | rfl | rfl | rfl | rfl | rfl <;> exact ⟨nofun, rfl⟩

/-- Settles O13: each offset is that of a register, and the write is the host's write of it. -/
theorem hostRegisterWrites : Obligations.HostRegisterWrites := by
  intro s rest off v hport
  refine ⟨fun hro => ?_, ?status, ?ctrl, ?cmd, ?a, ?b, ?c, ?d, ?bsbase, ?bscap, ?bsrd, ?msize⟩
  · rw [readOnlyOffsets_eq_map, List.mem_map] at hro
    obtain ⟨r, hr, rfl⟩ := hro
    obtain ⟨hcmd, hsame⟩ := hostWriteReg_readOnly hr v (accepted rest s)
    rw [step_of_register_write hcmd hport, hsame]
  case status =>
    rintro rfl
    rw [step_of_register_write (r := .status) nofun hport, hostWriteReg, writeStatus_eq]
    rfl
  case cmd =>
    rintro rfl
    exact Scope.step_of_cmd_write hport
  case ctrl => rintro rfl; exact step_of_register_write (r := .ctrl) nofun hport
  case a => rintro rfl; exact step_of_register_write (r := .a) nofun hport
  case b => rintro rfl; exact step_of_register_write (r := .b) nofun hport
  case c => rintro rfl; exact step_of_register_write (r := .c) nofun hport
  case d => rintro rfl; exact step_of_register_write (r := .d) nofun hport
  case bsbase => rintro rfl; exact step_of_register_write (r := .bsbase) nofun hport
  case bscap => rintro rfl; exact step_of_register_write (r := .bscap) nofun hport
  case bsrd => rintro rfl; exact step_of_register_write (r := .bsrd) nofun hport
  case msize => rintro rfl; exact step_of_register_write (r := .msize) nofun hport

/-! ### The RAM windows (R61, R62, R65) -/

/-- Byte j of a value's little-endian bytes (R65). -/
theorem leBytes_getElem_toNat (v : Word) {n j : Nat} (hj : j < n) :
    ((leBytes v n)[j]'(by rwa [length_leBytes])).toNat = v.toNat / 2 ^ (8 * j) % 256 := by
  simp only [leBytes, List.getElem_map, List.getElem_range, byteOf_toNat]

/-- The bytes of an access fit a register value. -/
theorem leValue_range_lt (f : Nat → Byte) (w : Width) : leValue ((List.range w.bytes).map f) < 2 ^ 32 := by
  have h := leValue_lt ((List.range w.bytes).map f)
  rw [List.length_map, List.length_range] at h
  refine h.trans_le ?_
  cases w <;> decide

/-- What a window read returns is the sum of its bytes at their places (R65). -/
theorem ofNat_leValue_toNat (f : Nat → Byte) (w : Width) :
    (BitVec.ofNat 32 (leValue ((List.range w.bytes).map f))).toNat =
      ((List.range w.bytes).map (fun j => (f j).toNat * 2 ^ (8 * j))).sum := by
  rw [BitVec.toNat_ofNat, Nat.mod_eq_of_lt (leValue_range_lt f w), leValue_eq_sum]

/-- Settles O16: an aligned access of a window reaches its RAM at the offset from the window's start. -/
theorem windowAccessesAreLittleEndian : Obligations.WindowAccessesAreLittleEndian := by
  intro s rest w i v haligned
  refine ⟨fun hi hport => ?_, fun hi hport => ?_, fun hi hport => ?_, fun hi hport => ?_⟩
  · refine ⟨Memory.storeBytes s.buf i (leBytes v w.bytes), ?_, fun j hj => ?_, fun j hj => ?_⟩
    · rw [step_of_write hport]
      exact serveWrite_buf v _ (target_buf w i hi haligned)
    · rw [bufByte_storeBytes_in _ _ _ _ _ (by rwa [length_leBytes]), leBytes_getElem_toNat v hj]
    · exact bufByte_storeBytes_out _ _ _ _ _ (by rwa [length_leBytes])
  · refine ⟨_, ?_, ofNat_leValue_toNat (fun j => bufByte s (i + j)) w⟩
    rw [step_of_read hport, serveRead_accepted _ (target_buf w i hi haligned)]
    rfl
  · refine ⟨Memory.storeBytes s.mat i (leBytes v w.bytes), ?_, fun j hj => ?_, fun j hj => ?_⟩
    · rw [step_of_write hport]
      exact serveWrite_mat v _ (target_mat w i hi haligned)
    · rw [matByte_storeBytes_in _ _ _ _ _ (by rwa [length_leBytes]), leBytes_getElem_toNat v hj]
    · exact matByte_storeBytes_out _ _ _ _ _ (by rwa [length_leBytes])
  · refine ⟨_, ?_, ofNat_leValue_toNat (fun j => matByte s (i + j)) w⟩
    rw [step_of_read hport, serveRead_accepted _ (target_mat w i hi haligned)]
    rfl

end Sys2Proof.HostAccess
end

section
/-! SUPPORT. The proof of the statement on the output regions (20_memory R79): how many bytes each command writes,
and that they are those of its regions, which lie in BUF. -/

namespace Sys2Proof.Regions
open Sys2Proof Sys2Proof.Machine Sys2Proof.Spec

/-! ### How many bytes ECCBLK's output has (R173, R174) -/

/-- Of k blocks the first q are skipped. -/
theorem sum_range_skip (k q : Nat) : ((List.range k).map (fun b => if b < q then 0 else 1)).sum = k - q := by
  induction k with
  | zero => simp
  | succ k ih =>
    rw [List.range_succ, List.map_append, List.sum_append, ih, List.map_singleton, List.sum_singleton]
    split <;> omega

/-- One of n positions counts a, every other c. -/
theorem sum_range_exception (n p a c : Nat) (hp : p < n) :
    ((List.range n).map (fun i => if i = p then a else c)).sum = (n - 1) * c + a := by
  induction n with
  | zero => omega
  | succ n ih =>
    rw [List.range_succ, List.map_append, List.sum_append, List.map_singleton, List.sum_singleton,
      Nat.add_sub_cancel]
    obtain rfl | hlt : p = n ∨ p < n := by omega
    · have hconst : ∀ i ∈ List.range p, (if i = p then a else c) = c := fun i hi =>
        if_neg (List.mem_range.mp hi).ne
      rw [List.map_congr_left hconst]
      simp
    · obtain ⟨n, rfl⟩ : ∃ n', n = n' + 1 := ⟨n - 1, by omega⟩
      rw [ih hlt, if_neg hlt.ne', Nat.add_sub_cancel, Nat.succ_mul]
      omega

/-- A position emits one byte of every block, at the padding index one of every long block (R173). -/
theorem length_emitAt_eccSlots (pad i k e t : Nat) (src : List Byte) (hk : 1 ≤ k) :
    (emitAt pad i (eccSlots k e t src)).length = if i = pad then t % k else k := by
  rw [eccSlots, emitAt_map, List.length_flatMap]
  split
  case isTrue hi =>
    have hmod : t % k < k := Nat.mod_lt t hk
    simp only [hi, and_true, apply_ite List.length, List.length_nil, List.length_singleton]
    rw [sum_range_skip]
    omega
  case isFalse hi => simp [hi]

/-- The output has T bytes (R174). -/
theorem length_interleave_eccSlots (k e t : Nat) (src : List Byte) (hk : 1 ≤ k) :
    (interleave (shortLen k t) e (eccSlots k e t src)).length = t := by
  have hdiv : k * shortLen k t + t % k = t := Nat.div_add_mod t k
  rw [interleave, List.length_flatMap, List.map_congr_left fun i _ =>
      length_emitAt_eccSlots (shortLen k t - e) i k e t src hk,
    sum_range_exception _ _ _ _ (by omega), Nat.add_sub_cancel, Nat.mul_comm, hdiv]

/-! ### The bytes each command writes -/

theorem length_pdivBytes (n : Nat) (s : State) :
    (polyrem (memRead s (polyAddr s) (polyLen s)) (memRead s (divisorAddr s) (n + 1))).length = n := by
  rw [length_polyrem, memRead_length, Nat.add_sub_cancel]

/-- The slots of ECCBLK, from the input it reads (R173). -/
def eccblkSlots (k e : Nat) (s : State) : List Slot :=
  eccSlots k e (eccTotal s) (memRead s (eccSource s) (dataTotal k e (eccTotal s)))

/-- Both writes of ECCBLK have the length of their regions. -/
theorem eccblk_lengths {s : State} {k e : Nat} (h : firstFailed (checksOf (.eccblk k e) s) = none) :
    (workBytes (eccblkSlots k e s)).length = k * (shortLen k (eccTotal s) + 1) ∧
      (interleave (shortLen k (eccTotal s)) e (eccblkSlots k e s)).length = eccTotal s := by
  obtain ⟨hk, he, hshort, -⟩ := eccblk_bounds h
  exact ⟨length_workBytes k e _ _ hk he hshort (memRead_length s _ _), length_interleave_eccSlots k e _ _ hk⟩

theorem effectOf_eccblk (k e : Nat) (s : State) :
    effectOf (.eccblk k e) s = memWrite (eccOut s) (interleave (shortLen k (eccTotal s)) e (eccblkSlots k e s))
      (memWrite (eccWork s) (workBytes (eccblkSlots k e s)) s) := rfl

/-! ### The regions a command's rule names -/

/-- The regions a command writes when its checks hold (R132, R135, R152, R173). -/
def ruleRegions : Instr → State → List (Nat × Nat)
  | .pdiv n, s | .rsenc n, s => [(remainderAddr s, n)]
  | .eccblk k _, s => [(eccWork s, k * (shortLen k (eccTotal s) + 1)), (eccOut s, eccTotal s)]
  | .bsappend w, s => streamRegion w s
  | .bspad, s => streamRegion (streamCap s - streamLen s) s
  | _, _ => []

/-- A command has its rule's regions when its checks hold, and none when it fails (R251). -/
theorem outputRegions_eq (i : Instr) (s : State) :
    outputRegions i s = if firstFailed (checksOf i s) = none then ruleRegions i s else [] := by
  cases i with
  | pdiv | rsenc | eccblk | bsappend | bspad => rfl
  | _ => exact (ite_self _).symm

/-- The bytes of an append that the capacity holds lie in BUF. -/
theorem streamRegion_inside {s : State} {n : Nat} (hbase : streamBase s + (streamCap s + 7) / 8 ≤ 16384)
    (hcap : streamLen s + n ≤ streamCap s) : ∀ p ∈ streamRegion n s, p.1 + p.2 ≤ 16384 := by
  intro p hp
  unfold streamRegion at hp
  split at hp
  case isTrue => exact absurd hp List.not_mem_nil
  case isFalse =>
    obtain rfl := List.mem_singleton.mp hp
    simp only [ceil8]
    omega

/-- The checks put the rule's regions inside BUF (R78, R155, R157). -/
theorem ruleRegions_inside {i : Instr} {s : State} (hchecks : firstFailed (checksOf i s) = none) :
    ∀ p ∈ ruleRegions i s, p.1 + p.2 ≤ 16384 := by
  cases i with
  | pdiv n => exact List.forall_mem_singleton.mpr (pdiv_bounds hchecks).2
  | rsenc n => exact List.forall_mem_singleton.mpr (rsenc_bounds hchecks).2
  | eccblk k e =>
    obtain ⟨-, -, -, hwork, hout⟩ := eccblk_bounds hchecks
    exact List.forall_mem_cons.mpr ⟨hwork, List.forall_mem_singleton.mpr hout⟩
  | bsappend w =>
    obtain ⟨-, -, hbase, hcap⟩ := bsappend_bounds hchecks
    exact streamRegion_inside hbase hcap
  | bspad =>
    obtain ⟨hmod, hbase, hcap⟩ := bspad_bounds hchecks
    exact streamRegion_inside (by omega) (by omega)
  | _ => exact fun p hp => absurd hp List.not_mem_nil

theorem outputRegions_inside (i : Instr) (s : State) : ∀ p ∈ outputRegions i s, p.1 + p.2 ≤ 16384 := by
  rw [outputRegions_eq]
  split
  case isTrue hchecks => exact ruleRegions_inside hchecks
  case isFalse => exact fun p hp => absurd hp List.not_mem_nil

/-- The regions of a command word lie in BUF. -/
theorem wordRegions_inside (w : Word) (s : State) : ∀ p ∈ wordRegions w s, p.1 + p.2 ≤ 16384 := by
  unfold wordRegions
  split
  case h_1 i _ => exact outputRegions_inside i s
  case h_2 => exact fun p hp => absurd hp List.not_mem_nil

/-! ### BUF outside the regions (R79, R221) -/

/-- A write of a byte sequence leaves every byte outside its range. -/
theorem bufByte_memWrite_out {addr a : Nat} {bytes : List Byte} {s : State}
    (h : a < addr ∨ addr + bytes.length ≤ a) : bufByte (memWrite addr bytes s) a = bufByte s a :=
  bufByte_storeBytes_out s s.buf addr bytes a h

/-- An append within the capacity leaves every byte outside the bytes that hold its bits. -/
theorem bufByte_putBits_out {bits : List Bool} {s : State} {n a : Nat} (hn : bits.length = n)
    (hcap : streamLen s + n ≤ streamCap s) (h : ∀ p ∈ streamRegion n s, a < p.1 ∨ p.1 + p.2 ≤ a) :
    bufByte (putBits bits s) a = bufByte s a := by
  subst hn
  exact bufByte_outside_streamRegion bits s (hcap.trans_lt s.bscap.isLt) a h

/-- The effect of a command whose checks hold leaves every byte outside its regions. -/
theorem bufByte_effectOf {i : Instr} {s : State} {a : Nat} (hchecks : firstFailed (checksOf i s) = none)
    (h : ∀ p ∈ ruleRegions i s, a < p.1 ∨ p.1 + p.2 ≤ a) : bufByte (effectOf i s) a = bufByte s a := by
  cases i with
  | pdiv n =>
    have hout := List.forall_mem_singleton.mp h
    exact bufByte_memWrite_out (by rwa [length_pdivBytes])
  | rsenc n =>
    have hout := List.forall_mem_singleton.mp h
    exact bufByte_memWrite_out (by rwa [length_rsenc _ _ (rsenc_bounds hchecks).1])
  | eccblk k e =>
    obtain ⟨hwork, hout⟩ := List.forall_mem_cons.mp h
    have hout := List.forall_mem_singleton.mp hout
    obtain ⟨hworkLen, houtLen⟩ := eccblk_lengths hchecks
    rw [effectOf_eccblk]
    exact (bufByte_memWrite_out (by rwa [houtLen])).trans (bufByte_memWrite_out (by rwa [hworkLen]))
  | bsappend w =>
    obtain ⟨-, -, -, hcap⟩ := bsappend_bounds hchecks
    exact bufByte_putBits_out (msbFirst_length _ w) hcap h
  | bspad =>
    obtain ⟨hmod, -, hcap⟩ := bspad_bounds hchecks
    exact bufByte_putBits_out (padBits_length hmod hcap) (by omega) h
  | _ => rfl

/-- Settles O25: only the effect of a command that succeeds writes BUF. -/
theorem commandsWriteOnlyTheirOutputRegions : Obligations.CommandsWriteOnlyTheirOutputRegions := by
  intro i s t a h hout
  rcases exec_cases h with ⟨-, rfl⟩ | ⟨-, e, -, rfl⟩ | ⟨-, hchecks, rfl⟩
  case inl => rfl
  case inr.inl => rfl
  case inr.inr =>
    rw [outputRegions_eq, if_pos hchecks] at hout
    exact bufByte_effectOf hchecks hout

end Sys2Proof.Regions
end

section
/-! SUPPORT. What the penalty of a matrix is at most, rule by rule (44_penalty section 2, R197). -/

namespace Sys2Proof.PenaltyBounds
open Sys2Proof Sys2Proof.Machine Sys2Proof.Spec

/-- A line of one run scores most (R193). -/
theorem lineRuns_le (l : List Bool) : lineRuns l ≤ l.length - 2 := by
  cases l with
  | nil => exact Nat.zero_le _
  | cons x xs =>
    have h := runsFrom_le x 1 xs le_rfl
    rw [lineRuns, List.length_cons]
    omega

/-- A score of at most c on every line is at most c on each of the 2n lines (R192). -/
theorem linesSum_le {n c : Nat} {m : List (List Bool)} (hm : Square n m) (f : List Bool → Nat)
    (hf : ∀ l : List Bool, l.length = n → f l ≤ c) : ((matrixLines n m).map f).sum ≤ 2 * n * c := by
  obtain ⟨hcount, hlengths⟩ := matrixLines_lengths n m hm
  have h := sum_le_length_mul ((matrixLines n m).map f) c (by
    intro x hx
    obtain ⟨l, hl, rfl⟩ := List.mem_map.mp hx
    exact hf l (hlengths l hl))
  rwa [List.length_map, hcount] at h

theorem penalty1_le {n : Nat} {m : List (List Bool)} (hm : Square n m) : penalty1 n m ≤ 2 * n * (n - 2) :=
  linesSum_le hm lineRuns fun l hl => hl ▸ lineRuns_le l

/-- At most every one of the (n - 1)² blocks is of one colour (R194). -/
theorem penalty2_le (n : Nat) (m : List (List Bool)) : penalty2 n m ≤ 3 * (n - 1) ^ 2 := by
  have h := sum_le_length_mul
    ((List.range (n - 1)).map fun r => (List.range (n - 1)).countP (uniformBlock m r)) (n - 1) (by
      intro x hx
      obtain ⟨r, -, rfl⟩ := List.mem_map.mp hx
      simpa using List.countP_le_length (p := uniformBlock m r) (l := List.range (n - 1)))
  rw [List.length_map, List.length_range] at h
  rw [penalty2, sq]
  exact Nat.mul_le_mul_left 3 h

theorem penalty3_le {n : Nat} {m : List (List Bool)} (hm : Square n m) :
    penalty3 n m ≤ 2 * n * ((n - 6) * 80) :=
  linesSum_le hm lineFinders fun l hl => hl ▸ lineFinders_le l

/-- A matrix has at most n² dark modules. -/
theorem darkCount_le {n : Nat} {m : List (List Bool)} (hm : Square n m) : darkCount m ≤ n * n := by
  obtain ⟨hrows, hcols⟩ := hm
  have h := sum_le_length_mul (m.map (List.count true)) n (by
    intro x hx
    obtain ⟨row, hrow, rfl⟩ := List.mem_map.mp hx
    exact (hcols row hrow) ▸ List.count_le_length)
  rwa [List.length_map, hrows] at h

/-- The dark count lies between 0 and T, so it is at most half of T away from half of T (R196). -/
theorem ratioPoints_le {n dark : Nat} (h : dark ≤ n * n) : ratioPoints n dark ≤ 100 := by
  have hdist : ((20 * dark : Int) - 10 * (n * n : Nat)).natAbs ≤ 10 * (n * n) := by omega
  have hquot := Nat.div_le_of_le_mul (hdist.trans_eq (Nat.mul_comm _ _))
  rw [ratioPoints]
  omega

theorem penalty4_le {n : Nat} {m : List (List Bool)} (hm : Square n m) : penalty4 n m ≤ 100 :=
  ratioPoints_le (darkCount_le hm)

end Sys2Proof.PenaltyBounds
end

section
/-! SUPPORT. The proof that every step keeps the invariant: the RAMs stay in canonical form because every write lies
in its RAM, the stream stays in BUF, and PSCORE's results stay below their bounds. The
invariant speaks of the RAMs, of BSLEN and of PEN1 to PEN4 only, so `{ h with }` is its proof for a state that differs
from that of `h` in other fields. -/

namespace Sys2Proof.Invariant
open Sys2Proof Sys2Proof.Machine Sys2Proof.Spec

/-! ### The operations that touch the invariant -/

/-- Registers at their reset values leave the RAMs to be in canonical form. -/
theorem inv_resetRegisters {s : State} (hbuf : Memory.wf Config.bufSize s.buf)
    (hmat : Memory.wf Config.matBytes s.mat) : Inv (resetRegisters s) :=
  ⟨hbuf, hmat, by simp, by simp, by simp, by simp, by simp⟩

/-- A write inside BUF. -/
theorem inv_memWrite {addr : Nat} {bytes : List Byte} {s : State} (h : Inv s)
    (hin : addr + bytes.length ≤ Config.bufSize) : Inv (memWrite addr bytes s) :=
  { h with buf := Memory.wf_storeBytes h.buf hin }

/-- A write inside MAT. -/
theorem inv_matWrite {addr : Nat} {bytes : List Byte} {s : State} (h : Inv s)
    (hin : addr + bytes.length ≤ Config.matBytes) : Inv (matWrite addr bytes s) :=
  { h with mat := Memory.wf_storeBytes h.mat hin }

/-- An append that a capacity inside BUF holds (R152). -/
theorem inv_putBits {bits : List Bool} {s : State} (h : Inv s)
    (hbase : streamBase s + (streamCap s + 7) / 8 ≤ 16384) (hcap : streamLen s + bits.length ≤ streamCap s) :
    Inv (putBits bits s) := by
  have hfits : streamLen s + bits.length < 2 ^ 32 := hcap.trans_lt s.bscap.isLt
  have hbuf := wf_putBits bits s h.buf hfits (by omega)
  have hlen : (putBits bits s).bslen.toNat = streamLen s + bits.length := streamLen_putBits bits s hfits
  have hbslen : (putBits bits s).bslen.toNat ≤ 8 * 16384 := by omega
  rw [putBits_frame]
  exact { h with buf := hbuf, bslen := hbslen }

/-- A penalty in its register is at most the penalty, and 0 when its rule is disabled (R198). -/
theorem penalty_register_le {p bound : Nat} (enabled : Bool) (h : p ≤ bound) :
    (BitVec.ofNat 32 (if enabled then p else 0)).toNat ≤ bound := by
  rw [BitVec.toNat_ofNat]
  refine (Nat.mod_le _ _).trans ?_
  split
  · exact h
  · exact Nat.zero_le bound

/-- A matrix of at most 177 rows scores within the bounds of R197. -/
theorem inv_pscoreEffect {m : Nat} {s : State} (h : Inv s) (hside : matrixSide s ≤ 177) :
    Inv (pscoreEffect m s) := by
  have hsquare := scoredMatrix_square (matrixSide s) s
  have hproduct {c k : Nat} : 2 * matrixSide s * ((matrixSide s - k) * c) ≤ 2 * 177 * ((177 - k) * c) := by gcongr
  have hblocks : 3 * (matrixSide s - 1) ^ 2 ≤ 3 * (177 - 1) ^ 2 := by gcongr
  have hp1 := PenaltyBounds.penalty1_le hsquare
  have hp2 := PenaltyBounds.penalty2_le (matrixSide s) (scoredMatrix (matrixSide s) s)
  have hp3 := PenaltyBounds.penalty3_le hsquare
  exact { h with
    pen1 := penalty_register_le _ (hp1.trans (by simpa using hproduct (c := 1) (k := 2)))
    pen2 := penalty_register_le _ (hp2.trans hblocks)
    pen3 := (penalty_register_le _ (hp3.trans hproduct)).trans_lt (by decide)
    pen4 := penalty_register_le _ (PenaltyBounds.penalty4_le hsquare) }

/-! ### Commands -/

/-- PSCORE's side when its check holds (R198). -/
theorem pscore_bounds {s : State} {m : Nat} (h : firstFailed (checksOf (.pscore m) s) = none) :
    matrixSide s ≤ 177 := by
  have hcheck := holds_of_mem h (List.mem_singleton_self _)
  simp only [Bool.and_eq_true, decide_eq_true_eq] at hcheck
  obtain ⟨⟨-, hside⟩, -⟩ := hcheck
  exact hside

/-- The effect of a command whose checks hold. -/
theorem inv_effectOf {i : Instr} {s : State} (h : Inv s) (hchecks : firstFailed (checksOf i s) = none) :
    Inv (effectOf i s) := by
  have hregions := Regions.ruleRegions_inside hchecks
  cases i with
  | swrst => exact inv_resetRegisters h.buf h.mat
  | bsreset => exact { h with bslen := Nat.zero_le _ }
  | pdiv n =>
    have hin := List.forall_mem_singleton.mp hregions
    exact inv_memWrite h (by rwa [Regions.length_pdivBytes])
  | rsenc n =>
    have hin := List.forall_mem_singleton.mp hregions
    exact inv_memWrite h (by rwa [length_rsenc _ _ (rsenc_bounds hchecks).1])
  | eccblk k e =>
    obtain ⟨hwork, hout⟩ := List.forall_mem_cons.mp hregions
    have hout := List.forall_mem_singleton.mp hout
    obtain ⟨hworkLen, houtLen⟩ := Regions.eccblk_lengths hchecks
    rw [Regions.effectOf_eccblk]
    exact inv_memWrite (inv_memWrite h (by rwa [hworkLen])) (by rwa [houtLen])
  | bsappend w =>
    obtain ⟨-, -, hbase, hcap⟩ := bsappend_bounds hchecks
    exact inv_putBits h hbase (by rwa [msbFirst_length])
  | bspad =>
    obtain ⟨hmod, hbase, hcap⟩ := bspad_bounds hchecks
    exact inv_putBits h (by omega) (by rw [padBits_length hmod hcap]; omega)
  | pscore m => exact inv_pscoreEffect h (pscore_bounds hchecks)
  | _ => exact { h with }

/-- A command, in each of its ends. -/
theorem inv_exec {i : Instr} {s t : State} (h : Inv s) (hexec : exec i s = .next t) : Inv t := by
  rcases exec_cases hexec with ⟨-, rfl⟩ | ⟨-, e, -, rfl⟩ | ⟨-, hchecks, rfl⟩
  case inl => exact inv_resetRegisters h.buf h.mat
  case inr.inl => exact { h with }
  case inr.inr => exact { inv_effectOf h hchecks with }

/-- A word written to CMD. -/
theorem inv_runCommand {w : Word} {s t : State} (h : Inv s) (hrun : runCommand w s = .next t) : Inv t := by
  unfold runCommand at hrun
  split at hrun
  case h_1 i _ => exact inv_exec h hrun
  case h_2 =>
    injection hrun with hrun
    subst hrun
    exact { h with }

/-! ### Host accesses and resets -/

/-- No host write of a register reaches BSLEN or PEN1 to PEN4 (R20). -/
theorem inv_hostWriteReg (r : Reg) (v : Word) {s : State} (h : Inv s) : Inv (hostWriteReg r v s) := by
  cases r with
  | status =>
    rw [hostWriteReg, HostAccess.writeStatus_eq]
    exact { h with }
  | _ => exact { h with }

/-- A host write, wherever it leads. -/
theorem inv_serveWrite {w : Width} {off : Offset} {v : Word} {s t : State} (h : Inv s)
    (hserve : serveWrite w off v s = .next t) : Inv t := by
  obtain ⟨hbuf, hmat⟩ := target_inside w off.toNat
  have hresp (r : BusResp) : Inv { s with resp := r } := { h with }
  rcases HostAccess.serveWrite_cases hserve with
    ⟨-, rfl⟩ | ⟨-, hrun⟩ | ⟨r, -, rfl⟩ | ⟨i, ht, rfl⟩ | ⟨j, ht, rfl⟩
  case inl => exact hresp .buserr
  case inr.inl => exact inv_runCommand (hresp .ack) hrun
  case inr.inr.inl => exact inv_hostWriteReg r v (hresp .ack)
  case inr.inr.inr.inl => exact inv_memWrite (hresp .ack) (by rw [length_leBytes]; exact hbuf i ht)
  case inr.inr.inr.inr => exact inv_matWrite (hresp .ack) (by rw [length_leBytes]; exact hmat j ht)

/-- One event. -/
theorem inv_serve {ev : HostEvent} {s t : State} (h : Inv s) (hserve : serve ev s = .next t) : Inv t := by
  cases ev with
  | read w off =>
    injection hserve with hserve
    rw [← hserve, HostAccess.serveRead_frame]
    exact { h with }
  | write w off v => exact inv_serveWrite h hserve
  | reset =>
    injection hserve with hserve
    subst hserve
    exact { inv_resetRegisters (s := State.reset) wf_reset.1 wf_reset.2 with }
  | abortedCmd w =>
    injection hserve with hserve
    subst hserve
    have hbuf := wf_scramble s.aborts (wordRegions w s) s.buf h.buf (Regions.wordRegions_inside w s)
    exact { inv_resetRegisters h.buf h.mat with buf := hbuf }

/-- Settles O60: an idle step changes nothing, and every event keeps the invariant. -/
theorem stepKeepsInvariant : Obligations.StepKeepsInvariant := by
  intro s t h hstep
  cases hport : s.port with
  | nil =>
    rw [step_of_port_nil hport] at hstep
    injection hstep with hstep
    exact hstep ▸ h
  | cons ev rest =>
    rw [step_of_port_cons hport] at hstep
    have htaken : Inv { s with port := rest } := { h with }
    exact inv_serve htaken hstep

end Sys2Proof.Invariant
end

section
/-! SUPPORT. The proofs of the statements on the encoding (30_encoding): a word that selects a row is OPC · 2^24 plus
the value of its fields, so decoder and encoder are inverse; which words are no command; the lines of the assembler;
which command a word runs. -/

namespace Sys2Proof.Encoding
open Sys2Proof Sys2Proof.Machine Sys2Proof.Spec

/-! ### The number of a word that selects a row (R91, R93) -/

@[simp] theorem rowOf_mnemonic (m : Mnemonic) : (rowOf m).mnemonic = m := by cases m <;> rfl

/-- Every row leaves the eight bits of OPC and more to the pattern. -/
theorem fieldBits_le_twentyFour (m : Mnemonic) : fieldBits m ≤ 24 := by cases m <;> decide

/-- A word that selects a row is OPC · 2^24 plus its field bits. -/
theorem toNat_of_row {w : Word} {m : Mnemonic} (h : rowMatches w (rowOf m) = true) :
    w.toNat = opcNumber m * 2 ^ 24 + w.toNat % 2 ^ fieldBits m := by
  rw [rowMatches_rowOf] at h
  calc w.toNat
      = w.toNat / 2 ^ fieldBits m * 2 ^ fieldBits m + w.toNat % 2 ^ fieldBits m := (Nat.div_add_mod' _ _).symm
    _ = opcNumber m * 2 ^ 24 + w.toNat % 2 ^ fieldBits m := by
        rw [h, Nat.mul_assoc, pow_sub_mul_pow 2 (fieldBits_le_twentyFour m)]

/-! ### The fields of a word (R11, R92) -/

theorem slice_zero (w : Word) (hi : Nat) : slice w hi 0 = w.toNat % 2 ^ (hi + 1) := by
  rw [slice, Nat.pow_zero, Nat.div_one, Nat.sub_zero]

/-- The fields a row gives a word are, taken together, the word's field bits. -/
theorem fieldValue_withFields (m : Mnemonic) (w : Word) :
    fieldValue (withFields m w) = w.toNat % 2 ^ fieldBits m := by
  cases m with
  | nop | bsreset | bspad | swrst => exact (Nat.mod_one _).symm
  | gfmul | gfdiv | gfexp | gflog =>
    simp only [withFields, fieldValue, fieldBits, byteOf_toNat]
    omega
  | eccblk =>
    simp only [withFields, fieldValue, fieldBits, slice]
    omega
  | pdiv | rsenc | bsappend | bsget | pscore => exact slice_zero w _

/-- The field element of a one-element format. -/
theorem byteOf_zero_eq {w : Word} {x : Byte} (h : x.toNat = w.toNat % 2 ^ 8) : byteOf w 0 = x := by
  apply BitVec.eq_of_toNat_eq
  rw [byteOf_toNat, h]
  simp

/-- The field elements of a two-element format. -/
theorem byteOf_eq_pair {w : Word} {a b : Byte} (h : a.toNat * 256 + b.toNat = w.toNat % 2 ^ 16) :
    byteOf w 1 = a ∧ byteOf w 0 = b := by
  have ha := a.isLt
  have hb := b.isLt
  simp only [← BitVec.toNat_inj, byteOf_toNat]
  omega

/-- A well-formed command is the one its row reads from any word with the command's field bits. -/
theorem withFields_eq_of_fieldValue {i : Instr} {w : Word} (hwf : i.wf = true)
    (h : fieldValue i = w.toNat % 2 ^ fieldBits i.mnemonic) : withFields i.mnemonic w = i := by
  cases i with
  | nop | bsreset | bspad | swrst => rfl
  | gfmul a b =>
    obtain ⟨ha, hb⟩ := byteOf_eq_pair h
    exact congrArg₂ Instr.gfmul ha hb
  | gfdiv a b =>
    obtain ⟨ha, hb⟩ := byteOf_eq_pair h
    exact congrArg₂ Instr.gfdiv ha hb
  | gfexp x => exact congrArg Instr.gfexp (byteOf_zero_eq h)
  | gflog x => exact congrArg Instr.gflog (byteOf_zero_eq h)
  | eccblk k e =>
    simp only [Instr.wf, Bool.and_eq_true, decide_eq_true_eq] at hwf
    simp only [Instr.mnemonic, fieldValue, fieldBits] at h
    simp only [Instr.mnemonic, withFields, Instr.eccblk.injEq, slice]
    omega
  | pdiv n => exact congrArg Instr.pdiv ((slice_zero w _).trans h.symm)
  | rsenc n => exact congrArg Instr.rsenc ((slice_zero w _).trans h.symm)
  | bsappend n => exact congrArg Instr.bsappend ((slice_zero w _).trans h.symm)
  | bsget n => exact congrArg Instr.bsget ((slice_zero w _).trans h.symm)
  | pscore n => exact congrArg Instr.pscore ((slice_zero w _).trans h.symm)

@[simp] theorem mnemonic_withFields (m : Mnemonic) (w : Word) : (withFields m w).mnemonic = m := by
  cases m <;> rfl

theorem slice_lt (w : Word) (hi lo : Nat) : slice w hi lo < 2 ^ (hi + 1 - lo) := Nat.mod_lt _ (Nat.two_pow_pos _)

/-- The fields read from a word fit the bits they are read from. -/
theorem wf_withFields (m : Mnemonic) (w : Word) : (withFields m w).wf = true := by
  cases m with
  | pdiv | rsenc | bsappend | bsget | pscore => exact decide_eq_true (slice_lt w _ 0)
  | eccblk => exact Bool.and_eq_true_iff.mpr ⟨decide_eq_true (slice_lt w 15 8), decide_eq_true (slice_lt w 7 0)⟩
  | _ => rfl

/-! ### Decoder and encoder are inverse (R93, R94, R97) -/

/-- A well-formed command's word selects the row of its mnemonic. -/
theorem rowMatches_encode {i : Instr} (h : i.wf = true) : rowMatches (encode i) (rowOf i.mnemonic) = true := by
  revert h
  cases i with
  | nop => exact Laws.EncodeRow.nop
  | gfmul a b => exact Laws.EncodeRow.gfmul a b
  | gfdiv a b => exact Laws.EncodeRow.gfdiv a b
  | gfexp x => exact Laws.EncodeRow.gfexp x
  | gflog x => exact Laws.EncodeRow.gflog x
  | pdiv n => exact Laws.EncodeRow.pdiv n
  | rsenc n => exact Laws.EncodeRow.rsenc n
  | eccblk k e => exact Laws.EncodeRow.eccblk k e
  | bsreset => exact Laws.EncodeRow.bsreset
  | bsappend w6 => exact Laws.EncodeRow.bsappend w6
  | bspad => exact Laws.EncodeRow.bspad
  | bsget w6 => exact Laws.EncodeRow.bsget w6
  | pscore m => exact Laws.EncodeRow.pscore m
  | swrst => exact Laws.EncodeRow.swrst

/-- The field bits of an encoding are the value of the command's fields. -/
theorem fieldValue_eq_encode {i : Instr} (h : i.wf = true) :
    fieldValue i = (encode i).toNat % 2 ^ fieldBits i.mnemonic := by
  have hrow := toNat_of_row (rowMatches_encode h)
  have hencode := encode_toNat i h
  omega

/-- Settles O1: the encoding selects the command's row, and its field bits are the command's fields. -/
theorem decodeOfEncodeIsTheCommand : Obligations.DecodeOfEncodeIsTheCommand := by
  intro i h
  rw [decode_of_row (rowMatches_encode h), withFields_eq_of_fieldValue h (fieldValue_eq_encode h)]

/-- A word is the encoding of the command its row reads from it. -/
theorem encode_withFields {w : Word} {m : Mnemonic} (h : rowMatches w (rowOf m) = true) :
    encode (withFields m w) = w := by
  apply BitVec.eq_of_toNat_eq
  rw [encode_toNat _ (wf_withFields m w), mnemonic_withFields, fieldValue_withFields]
  exact (toNat_of_row h).symm

/-- Settles O2: a word that decodes selects the row its command is read by. -/
theorem encodeOfDecodeIsTheWord : Obligations.EncodeOfDecodeIsTheWord := by
  intro w i h
  obtain ⟨m, hrow, rfl⟩ := row_of_decode h
  exact ⟨wf_withFields m w, encode_withFields hrow⟩

/-- Settles O4: each word is the encoding of its command, bit for bit. -/
theorem wordsOfTheSpecDecode : Obligations.WordsOfTheSpecDecode :=
  have roundTrip := decodeOfEncodeIsTheCommand
  ⟨roundTrip .nop rfl, roundTrip (.gfmul 0x53 0xCA) rfl, roundTrip (.gfdiv 0xB6 0x53) rfl,
    roundTrip (.gfexp 0xFE) rfl, roundTrip (.gflog 0x1D) rfl, roundTrip (.pdiv 31) rfl, roundTrip (.rsenc 10) rfl,
    roundTrip (.eccblk 4 2) rfl, roundTrip (.bsappend 33) rfl, roundTrip (.bsget 3) rfl,
    roundTrip (.pscore 15) rfl, roundTrip .swrst rfl⟩

/-! ### The words that are no command (R94, R96) -/

/-- The assigned OPC values are those of the mnemonics. -/
theorem mem_assignedOpcs_iff (n : Nat) : n ∈ assignedOpcs ↔ ∃ m, n = opcNumber m := by
  have hmap : assignedOpcs = opcodeMap.map fun r => opcNumber r.mnemonic := rfl
  rw [hmap, List.mem_map]
  constructor
  · rintro ⟨r, -, rfl⟩
    exact ⟨r.mnemonic, rfl⟩
  · rintro ⟨m, rfl⟩
    exact ⟨rowOf m, rowOf_mem m, by rw [rowOf_mnemonic]⟩

/-- The decoder's own test of OPC. -/
theorem opcAssigned_iff (w : Word) : opcAssigned w = true ↔ opc w ∈ assignedOpcs := by
  have hmap : assignedOpcs = opcodeMap.map fun r => opc r.pattern := by decide
  simp only [opcAssigned, hmap, List.any_eq_true, List.mem_map, beq_iff_eq]

/-- The reserved bits of a word whose OPC is that of a row are those between OPC and the row's fields. -/
theorem reservedBits_of_opc {w : Word} {m : Mnemonic} (h : opc w = opcNumber m) :
    reservedBits w = slice w 23 (fieldBits m) := by
  unfold reservedBits
  rw [h]
  cases m <;> rfl

/-- A word selects a row exactly when it has the row's OPC and no reserved bit set. -/
theorem rowMatches_iff_opc {w : Word} {m : Mnemonic} :
    rowMatches w (rowOf m) = true ↔ opc w = opcNumber m ∧ reservedBits w = 0 := by
  have hopc : opc w = w.toNat / 2 ^ 24 % 2 ^ 8 := rfl
  have hword : w.toNat < 2 ^ 32 := w.isLt
  have hrow : rowMatches w (rowOf m) = true ↔ opc w = opcNumber m ∧ slice w 23 (fieldBits m) = 0 := by
    rw [rowMatches_rowOf, hopc, slice]
    cases m <;> simp only [fieldBits, opcNumber] <;> omega
  rw [hrow]
  exact and_congr_right fun h => by rw [reservedBits_of_opc h]

/-- A word selects no row exactly when its OPC is unassigned or a reserved bit is set. -/
theorem findRow_eq_none_iff (w : Word) :
    findRow w = none ↔ (opc w ∈ assignedOpcs → reservedBits w ≠ 0) := by
  rw [mem_assignedOpcs_iff]
  constructor
  · rintro hnone ⟨m, hopc⟩ hreserved
    rw [(findRow_eq_some w m).mpr (rowMatches_iff_opc.mpr ⟨hopc, hreserved⟩)] at hnone
    exact absurd hnone (Option.some_ne_none _)
  · intro h
    refine findRow_eq_none fun m => Bool.eq_false_iff.mpr fun hrow => ?_
    obtain ⟨hopc, hreserved⟩ := rowMatches_iff_opc.mp hrow
    exact h ⟨m, hopc⟩ hreserved

/-- The error of a word that selects no row. -/
theorem decode_of_findRow_none {w : Word} (h : findRow w = none) :
    decode w = .error (if opc w ∈ assignedOpcs then .reservedBitSet else .unassignedOpcode) := by
  simp only [decode, h, opcAssigned_iff]
  split <;> rfl

/-- A word is rejected exactly when it selects no row, and its OPC says why. -/
theorem decode_eq_error_iff (w : Word) (e : DecodeError) :
    decode w = .error e ↔
      findRow w = none ∧ (if opc w ∈ assignedOpcs then .reservedBitSet else .unassignedOpcode) = e := by
  cases hrow : findRow w with
  | none => simp only [decode_of_findRow_none hrow, Except.error.injEq, true_and]
  | some r => simp only [decode, hrow, reduceCtorEq, false_and]

/-- Settles O3: a rejected word selects no row, and the error goes by whether its OPC is assigned. -/
theorem illegalWordsAreThese : Obligations.IllegalWordsAreThese := by
  intro w
  simp only [decode_eq_error_iff, findRow_eq_none_iff]
  by_cases hopc : opc w ∈ assignedOpcs <;> simp [hopc]

/-! ### The lines of the assembler (R97, R98) -/

/-- A line that stands for a command is assembled when the command's fields fit. -/
theorem assemble_of_asmInstr {name : AsmName} {fields : List Nat} {i : Instr} (h : asmInstr name fields = some i) :
    assemble name fields = if i.wf then some (encode i) else none := by
  simp only [assemble, h]

/-- An assembled line stands for a well-formed command, whose encoding is the line's word. -/
theorem asmInstr_of_assemble {name : AsmName} {fields : List Nat} {w : Word} (h : assemble name fields = some w) :
    ∃ i, asmInstr name fields = some i ∧ i.wf = true ∧ encode i = w := by
  cases hline : asmInstr name fields with
  | none => simp [assemble, hline] at h
  | some i =>
    rw [assemble_of_asmInstr hline, Option.ite_none_right_eq_some, Option.some.injEq] at h
    exact ⟨i, rfl, h⟩

/-- A line that stands for a command has one of the shapes of R97 and R98. -/
theorem mem_lineShapes_of_asmInstr {name : AsmName} {fields : List Nat} {i : Instr}
    (h : asmInstr name fields = some i) : (name, fields.length) ∈ lineShapes := by
  unfold asmInstr at h
  split at h
  case h_19 => cases h
  all_goals
    simp only [List.length]
    decide

theorem asmByte_of_lt {v : Nat} (h : v < 256) : asmByte v = some (BitVec.ofNat 8 v) := if_pos h

theorem asmByte_of_not_lt {v : Nat} (h : ¬v < 256) : asmByte v = none := if_neg h

theorem zext32_ofNat {v : Nat} (h : v < 256) : zext32 (BitVec.ofNat 8 v) = BitVec.ofNat 32 v := by
  rw [zext32_eq, BitVec.toNat_ofNat, Nat.mod_eq_of_lt h]

/-- A line with one numeric field of the given bound. -/
theorem assemble_numberLine {name : AsmName} (mk : Nat → Instr) (bound : Nat)
    (hline : ∀ n, asmInstr name [n] = some (mk n)) (hwf : ∀ n, (mk n).wf = decide (n < bound)) (n : Nat) :
    assemble name [n] = if n < bound then some (encode (mk n)) else none := by
  simp only [assemble_of_asmInstr (hline n), hwf, decide_eq_true_eq]

/-- A line with one field element; `word` is the encoding as a function of the element. -/
theorem assemble_byteLine {name : AsmName} (mk : Byte → Instr) (word : Word → Word)
    (hline : ∀ x, asmInstr name [x] = do return mk (← asmByte x)) (hwf : ∀ b, (mk b).wf = true)
    (hword : ∀ b, encode (mk b) = word (zext32 b)) (x : Nat) :
    assemble name [x] = if x < 256 then some (word (BitVec.ofNat 32 x)) else none := by
  by_cases hx : x < 256
  · have hinstr : asmInstr name [x] = some (mk (BitVec.ofNat 8 x)) := by rw [hline, asmByte_of_lt hx]; rfl
    rw [assemble_of_asmInstr hinstr, if_pos (hwf _), if_pos hx, hword, zext32_ofNat hx]
  · have hinstr : asmInstr name [x] = none := by rw [hline, asmByte_of_not_lt hx]; rfl
    simp only [assemble, hinstr, if_neg hx]

/-- A line with two field elements. -/
theorem assemble_twoByteLine {name : AsmName} (mk : Byte → Byte → Instr) (word : Word → Word → Word)
    (hline : ∀ a b, asmInstr name [a, b] = do return mk (← asmByte a) (← asmByte b))
    (hwf : ∀ a b, (mk a b).wf = true) (hword : ∀ a b, encode (mk a b) = word (zext32 a) (zext32 b)) (a b : Nat) :
    assemble name [a, b] =
      if a < 256 ∧ b < 256 then some (word (BitVec.ofNat 32 a) (BitVec.ofNat 32 b)) else none := by
  by_cases hab : a < 256 ∧ b < 256
  · obtain ⟨ha, hb⟩ := hab
    have hinstr : asmInstr name [a, b] = some (mk (BitVec.ofNat 8 a) (BitVec.ofNat 8 b)) := by
      rw [hline, asmByte_of_lt ha, asmByte_of_lt hb]; rfl
    rw [assemble_of_asmInstr hinstr, if_pos (hwf _ _), if_pos ⟨ha, hb⟩, hword, zext32_ofNat ha, zext32_ofNat hb]
  · have hinstr : asmInstr name [a, b] = none := by
      rw [hline]
      by_cases ha : a < 256
      · rw [asmByte_of_lt ha, asmByte_of_not_lt fun hb => hab ⟨ha, hb⟩]; rfl
      · rw [asmByte_of_not_lt ha]; rfl
    simp only [assemble, hinstr, if_neg hab]

/-- The ECCBLK line. -/
theorem assemble_eccblk (k e : Nat) :
    assemble (.cmd .eccblk) [k, e] = if k < 256 ∧ e < 256 then some (encode (.eccblk k e)) else none := by
  simp only [assemble, asmInstr, Instr.wf, Bool.and_eq_true, decide_eq_true_eq]

/-- An assembled word decodes to the command its line is read as. -/
theorem decode_of_assemble {name : AsmName} {fields : List Nat} {w : Word} (h : assemble name fields = some w) :
    ∃ i, asmInstr name fields = some i ∧ decode w = .ok i := by
  obtain ⟨i, hline, hwf, rfl⟩ := asmInstr_of_assemble h
  exact ⟨i, hline, decodeOfEncodeIsTheCommand i hwf⟩

/-- Settles O5: the lines go by the kind of their fields, and the round trip gives the last clause. -/
theorem assemblerAcceptsFittingFields : Obligations.AssemblerAcceptsFittingFields := by
  refine ⟨rfl, ?gfmul, ?gfdiv, ?gfexp, ?gflog, ?pdiv, ?rsenc, assemble_eccblk, rfl, ?bsappend, rfl, ?bsget,
    ?pscore, rfl, ?gfinv, ?gfsqr, rfl, rfl, ?assembled⟩
  case gfmul =>
    exact assemble_twoByteLine .gfmul (0x01000000#32 ||| · <<< 8 ||| ·) (fun _ _ => rfl) (fun _ _ => rfl)
      fun _ _ => rfl
  case gfdiv =>
    exact assemble_twoByteLine .gfdiv (0x02000000#32 ||| · <<< 8 ||| ·) (fun _ _ => rfl) (fun _ _ => rfl)
      fun _ _ => rfl
  case gfexp => exact assemble_byteLine .gfexp (0x03000000#32 ||| ·) (fun _ => rfl) (fun _ => rfl) fun _ => rfl
  case gflog => exact assemble_byteLine .gflog (0x04000000#32 ||| ·) (fun _ => rfl) (fun _ => rfl) fun _ => rfl
  case pdiv => exact assemble_numberLine .pdiv 32 (fun _ => rfl) fun _ => rfl
  case rsenc => exact assemble_numberLine .rsenc 32 (fun _ => rfl) fun _ => rfl
  case bsappend => exact assemble_numberLine .bsappend 64 (fun _ => rfl) fun _ => rfl
  case bsget => exact assemble_numberLine .bsget 64 (fun _ => rfl) fun _ => rfl
  case pscore => exact assemble_numberLine .pscore 16 (fun _ => rfl) fun _ => rfl
  case gfinv =>
    exact assemble_byteLine (.gfdiv 1#8) (0x02000000#32 ||| 1#32 <<< 8 ||| ·) (fun _ => rfl) (fun _ => rfl)
      fun _ => rfl
  case gfsqr =>
    exact assemble_byteLine (fun a => .gfmul a a) (fun a => 0x01000000#32 ||| a <<< 8 ||| a) (fun _ => rfl)
      (fun _ => rfl) fun _ => rfl
  case assembled =>
    intro name fields w h
    obtain ⟨i, hline, hdecode⟩ := decode_of_assemble h
    exact ⟨mem_lineShapes_of_asmInstr hline, i, hline, hdecode⟩

/-! ### What a word written to CMD runs (R94) -/

/-- A row of the opcode map that a word selects, by its mnemonic. -/
theorem rowMatches_of_mem {w : Word} {r : OpcodeRow} (hr : r ∈ opcodeMap) (h : w &&& r.mask = r.pattern) :
    rowMatches w (rowOf r.mnemonic) = true := by
  rw [← mem_opcodeMap r hr]
  exact beq_iff_eq.mpr h

/-- A word that selects no row fails with ILLCMD. -/
theorem runCommand_of_findRow_none {w : Word} (h : findRow w = none) (s : State) :
    runCommand w s = .next (failed .illcmd s) := by
  simp only [runCommand, decode_of_findRow_none h]
  rfl

/-- Settles O7: the selected row gives the command, two selected rows have one mnemonic, and a word that selects
none is found none. -/
theorem wordRunsItsRowOrRaisesIllcmd : Obligations.WordRunsItsRowOrRaisesIllcmd := by
  intro w s
  constructor
  · intro r hr hsel
    have hrow := rowMatches_of_mem hr hsel
    refine ⟨Scope.runCommand_of_decode (decode_of_row hrow) s, fun q hq hqsel => ?_⟩
    have hmnemonic := rowMatches_unique w _ _ (rowMatches_of_mem hq hqsel) hrow
    rw [mem_opcodeMap q hq, hmnemonic, ← mem_opcodeMap r hr]
  · intro hnone
    have hfind : findRow w = none :=
      findRow_eq_none fun m => Bool.eq_false_iff.mpr fun hrow => hnone _ (rowOf_mem m) (beq_iff_eq.mp hrow)
    exact runCommand_of_findRow_none hfind s

end Sys2Proof.Encoding
end

section
/-! SUPPORT. How a command written to CMD runs (30_encoding): a word with the OPC of a row and a reserved bit set fails
with ILLCMD, and the encoding of a command runs the command. What every command's own rule opens with. -/

namespace Sys2Proof.CommandWords
open Sys2Proof Sys2Proof.Machine Sys2Proof.Spec

/-- A reserved bit, between OPC and the fields of the OPC's row, makes a word no command (R94, R96). -/
theorem runCommand_of_reserved {w : Word} (m : Mnemonic) (hopc : opc w = opcNumber m)
    (hreserved : slice w 23 (fieldBits m) ≠ 0) (s : State) : runCommand w s = .next (failed .illcmd s) := by
  refine Encoding.runCommand_of_findRow_none ((Encoding.findRow_eq_none_iff w).mpr fun _ => ?_) s
  rwa [Encoding.reservedBits_of_opc hopc]

/-- The word of a well-formed command runs the command (R94, R97). -/
theorem runCommand_encode {i : Instr} (hwf : i.wf = true) (s : State) : runCommand (encode i) s = exec i s :=
  Scope.runCommand_of_decode (Encoding.decodeOfEncodeIsTheCommand i hwf) s

end Sys2Proof.CommandWords
end

section
/-! SUPPORT. The proofs of the statements on gfdiv and on the commands GFMUL, GFDIV, GFEXP and GFLOG (40_gf256).
Division by b is multiplication by b's inverse, so the laws of gfdiv are those of gfmul. -/

namespace Sys2Proof.FieldCommands
open Sys2Proof Sys2Proof.Machine Sys2Proof.Spec Sys2Proof.Field Sys2Proof.CommandWords

/-! ### gfdiv is multiplication by the inverse (R114) -/

theorem zero_gfdiv {b : Byte} (hb : b ≠ 0) : gfdiv 0 b = 0 := by
  rw [gfdiv, if_neg hb, if_pos rfl]

/-- Quotients subtract exponents: α^254 is the inverse of α. -/
theorem gfdiv_expRom_expRom {i j : Nat} (hi : i < 255) (hj : j < 255) :
    gfdiv (expRom i) (expRom j) = expRom ((i + j * 254) % 255) := by
  rw [gfdiv, if_neg (expRom_ne_zero hj), if_neg (expRom_ne_zero hi), logRom_expRom_toNat hi, logRom_expRom_toNat hj]

theorem one_gfdiv_expRom {j : Nat} (hj : j < 255) : gfdiv 1 (expRom j) = expRom (j * 254 % 255) := by
  have hquotient := gfdiv_expRom_expRom (i := 0) (by decide) hj
  rwa [Nat.zero_add] at hquotient

theorem gfdiv_eq_gfmul_inverse (a : Byte) {b : Byte} (hb : b ≠ 0) : gfdiv a b = gfmul a (gfdiv 1 b) := by
  obtain rfl | ⟨j, hj, rfl⟩ := eq_zero_or_expRom b
  · exact absurd rfl hb
  obtain rfl | ⟨i, hi, rfl⟩ := eq_zero_or_expRom a
  · rw [zero_gfdiv hb]
    exact (zero_gfmul _).symm
  · rw [gfdiv_expRom_expRom hi hj, one_gfdiv_expRom hj, gfmul_expRom_expRom hi (Nat.mod_lt _ (by decide)),
      Nat.add_mod_mod]

theorem inverse_gfmul {b : Byte} (hb : b ≠ 0) : gfmul (gfdiv 1 b) b = 1 := by
  obtain rfl | ⟨j, hj, rfl⟩ := eq_zero_or_expRom b
  · exact absurd rfl hb
  have hcycle : (j * 254 % 255 + j) % 255 = 0 := by omega
  rw [one_gfdiv_expRom hj, gfmul_expRom_expRom (Nat.mod_lt _ (by decide)) hj, hcycle]
  rfl

theorem gfmul_one (a : Byte) : gfmul a 1 = a := (gfmul_comm a 1).trans (one_gfmul a)

theorem gfdiv_one (a : Byte) : gfdiv a 1 = a := by
  have hinverse : gfdiv 1 1 = 1 := (gfmul_one _).symm.trans (inverse_gfmul (by decide))
  rw [gfdiv_eq_gfmul_inverse a (by decide), hinverse, gfmul_one]

theorem gfdiv_self {b : Byte} (hb : b ≠ 0) : gfdiv b b = 1 := by
  rw [gfdiv_eq_gfmul_inverse b hb, gfmul_comm, inverse_gfmul hb]

theorem gfdiv_gfmul (a : Byte) {b : Byte} (hb : b ≠ 0) : gfdiv (gfmul a b) b = a := by
  rw [gfdiv_eq_gfmul_inverse _ hb, gfmul_assoc, gfmul_comm b, inverse_gfmul hb, gfmul_one]

theorem gfmul_gfdiv (a : Byte) {b : Byte} (hb : b ≠ 0) : gfmul (gfdiv a b) b = a := by
  rw [gfdiv_eq_gfmul_inverse a hb, gfmul_assoc, inverse_gfmul hb, gfmul_one]

/-- Settles O33. -/
theorem gfdivLaws : Obligations.GfdivLaws := fun a _ hb =>
  ⟨gfdiv_gfmul a hb, gfmul_gfdiv a hb, gfdiv_one a, gfdiv_self hb, gfdiv_eq_gfmul_inverse a hb⟩

/-! ### EXP as powers of α (R42, R117) -/

theorem expRom_eq_alphaPow {i : Nat} (hi : i < 255) : expRom i = alphaPow i := by
  induction i with
  | zero => rfl
  | succ i ih => rw [alphaPow, ← ih (by omega), ← expRom_succ i (by omega), Nat.mod_eq_of_lt hi]

/-- The last entry of EXP repeats the first. -/
theorem expRom_mod {n : Nat} (hn : n < 256) : expRom n = expRom (n % 255) := by
  by_cases hlast : n = 255
  · subst hlast
    rfl
  · rw [Nat.mod_eq_of_lt (by omega)]

/-! ### The commands (R112, R115, R117, R119) -/

theorem exec_gfmul (a b : Byte) (s : State) :
    exec (.gfmul a b) s = .next (done { s with result := zext32 (gfmul a b) }) :=
  exec_done (i := .gfmul a b) (by simp) rfl

theorem exec_gfdiv_zero (a : Byte) (s : State) : exec (.gfdiv a 0) s = .next (failed .div0 s) :=
  exec_failed (i := .gfdiv a 0) (by simp) rfl

theorem exec_gfdiv {b : Byte} (hb : b ≠ 0) (a : Byte) (s : State) :
    exec (.gfdiv a b) s = .next (done { s with result := zext32 (gfdiv a b) }) :=
  exec_done (i := .gfdiv a b) (by simp) (firstFailed_of_true (decide_eq_true hb))

theorem exec_gfexp (x : Byte) (s : State) :
    exec (.gfexp x) s = .next (done { s with result := zext32 (expRom x.toNat) }) :=
  exec_done (i := .gfexp x) (by simp) rfl

theorem exec_gflog_zero (s : State) : exec (.gflog 0) s = .next (failed .log0 s) :=
  exec_failed (i := .gflog 0) (by simp) rfl

theorem exec_gflog {x : Byte} (hx : x ≠ 0) (s : State) :
    exec (.gflog x) s = .next (done { s with result := zext32 (logRom x) }) :=
  exec_done (i := .gflog x) (by simp) (firstFailed_of_true (decide_eq_true hx))

/-- Settles O26: GFMUL has no check of its own. -/
theorem gfmulRule : Obligations.GfmulRule := fun s =>
  ⟨fun _ hopc hreserved => runCommand_of_reserved .gfmul hopc hreserved s,
    fun a b => runCommand_encode (i := .gfmul a b) rfl s,
    fun a b => exec_gfmul a b s,
    fun a => ⟨gfmul_zero a, zero_gfmul a, one_gfmul a⟩, gfmul_comm, rfl⟩

/-- Settles O27: the check of b comes before the quotient. -/
theorem gfdivRule : Obligations.GfdivRule := fun s =>
  ⟨fun _ hopc hreserved => runCommand_of_reserved .gfdiv hopc hreserved s,
    fun a b => runCommand_encode (i := .gfdiv a b) rfl s,
    fun a => exec_gfdiv_zero a s,
    fun a _ hb => exec_gfdiv hb a s,
    fun _ hb => ⟨zero_gfdiv hb, gfdiv_self hb, inverse_gfmul hb⟩, gfdiv_one,
    one_gfdiv_expRom (j := 1) (by decide)⟩

/-- Settles O28: the exponent is taken modulo the order of α. -/
theorem gfexpRule : Obligations.GfexpRule := by
  refine fun s => ⟨fun _ hopc hreserved => runCommand_of_reserved .gfexp hopc hreserved s,
    fun x => runCommand_encode (i := .gfexp x) rfl s, fun x => exec_gfexp x s, fun x => ?_, rfl⟩
  have hexponent : x.toNat % 255 < 255 := Nat.mod_lt _ (by decide)
  rw [expRom_mod x.isLt]
  exact ⟨expRom_eq_alphaPow hexponent, expRom_ne_zero hexponent⟩

/-- Settles O29: the check of x leaves the bytes that have a logarithm. -/
theorem gflogRule : Obligations.GflogRule := fun s =>
  ⟨fun _ hopc hreserved => runCommand_of_reserved .gflog hopc hreserved s,
    fun x => runCommand_encode (i := .gflog x) rfl s,
    exec_gflog_zero s,
    fun _ hx => exec_gflog hx s,
    fun _ hx => (expRom_logRom hx).1, rfl, rfl, rfl⟩

end Sys2Proof.FieldCommands
end

section
/-! SUPPORT. The proofs of the statements on the remainder (41_polydiv sections 1 to 3). Synthetic division is linear
in the dividend, does not see leading zeros, and leaves nothing of a multiple of the divisor; the laws of polyrem and
of rsenc follow from these three facts. -/

namespace Sys2Proof.Division
open Sys2Proof Sys2Proof.Machine Sys2Proof.Spec Sys2Proof.Field Sys2Proof.FieldCommands

/-! ### Bytewise sums of sequences of one length -/

theorem zipWith_xor_assoc (p q r : List Byte) :
    List.zipWith (· ^^^ ·) (List.zipWith (· ^^^ ·) p q) r =
      List.zipWith (· ^^^ ·) p (List.zipWith (· ^^^ ·) q r) := by
  simp only [List.zipWith_zipWith_left, List.zipWith_zipWith_right, BitVec.xor_assoc]

theorem zipWith_xor_self (p : List Byte) : List.zipWith (· ^^^ ·) p p = List.replicate p.length 0 := by
  simp only [List.zipWith_self, BitVec.xor_self]
  exact List.map_const'

theorem zipWith_xor_zeros {p : List Byte} {n : Nat} (h : p.length = n) :
    List.zipWith (· ^^^ ·) p (List.replicate n 0) = p := by
  subst h
  exact List.ext_getElem (by simp) (by simp)

theorem zeros_zipWith_xor {p : List Byte} {n : Nat} (h : p.length = n) :
    List.zipWith (· ^^^ ·) (List.replicate n 0) p = p := by
  rw [List.zipWith_comm_of_comm BitVec.xor_comm, zipWith_xor_zeros h]

theorem zeros_zipWith_xor_zeros (n : Nat) :
    List.zipWith (· ^^^ ·) (List.replicate n (0 : Byte)) (List.replicate n 0) = List.replicate n 0 :=
  zipWith_xor_zeros List.length_replicate

/-- A sequence added twice cancels. -/
theorem zipWith_xor_cancel {p q : List Byte} (h : p.length = q.length) :
    List.zipWith (· ^^^ ·) p (List.zipWith (· ^^^ ·) p q) = q := by
  rw [← zipWith_xor_assoc, zipWith_xor_self, zeros_zipWith_xor h.symm]

/-! ### Leading zeros (R15) -/

@[simp] theorem length_padTo (n : Nat) (p : List Byte) : (padTo n p).length = max n p.length := by
  simp only [padTo, List.length_append, List.length_replicate]
  omega

theorem padTo_of_le {n : Nat} {p : List Byte} (h : n ≤ p.length) : padTo n p = p := by
  rw [padTo, Nat.sub_eq_zero_of_le h]
  rfl

theorem padTo_padTo {m n : Nat} (h : m ≤ n) (p : List Byte) : padTo n (padTo m p) = padTo n p := by
  have hcount : n - max m p.length + (m - p.length) = n - p.length := by omega
  rw [padTo, length_padTo, padTo, ← List.append_assoc, List.replicate_append_replicate, hcount, padTo]

/-- Padding a sequence to a length that another shares. -/
theorem padTo_zipWith_xor (n : Nat) {p q : List Byte} (h : p.length = q.length) :
    padTo n (List.zipWith (· ^^^ ·) p q) = List.zipWith (· ^^^ ·) (padTo n p) (padTo n q) := by
  simp only [padTo, List.length_zipWith, h, Nat.min_self]
  rw [List.zipWith_append (by simp), zeros_zipWith_xor_zeros]

theorem padTo_succ_length {p : List Byte} {n : Nat} (h : n = p.length + 1) : padTo n p = 0 :: p := by
  rw [padTo, h, Nat.add_sub_cancel_left]
  rfl

theorem padTo_map_gfmul (n : Nat) (c : Byte) (p : List Byte) :
    padTo n (p.map (gfmul c)) = (padTo n p).map (gfmul c) := by
  rw [padTo, padTo, List.map_append, List.map_replicate, List.length_map]
  congr 2
  exact (gfmul_zero c).symm

theorem samePoly_zero_cons (p : List Byte) : SamePoly p (0 :: p) := rfl

theorem samePoly_padTo (n : Nat) (p : List Byte) : SamePoly p (padTo n p) := by
  rw [padTo]
  induction n - p.length with
  | zero => rfl
  | succ k ih => exact ih.trans (samePoly_zero_cons _)

/-! ### Sums of polynomials (R15) -/

theorem length_polyAdd (p q : List Byte) : (polyAdd p q).length = max p.length q.length := by
  rw [polyAdd, List.length_zipWith, length_padTo, length_padTo]
  omega

/-- A sum may be taken at any common length. -/
theorem padTo_polyAdd {n : Nat} {p q : List Byte} (hp : p.length ≤ n) (hq : q.length ≤ n) :
    padTo n (polyAdd p q) = List.zipWith (· ^^^ ·) (padTo n p) (padTo n q) := by
  have hlength : (padTo q.length p).length = (padTo p.length q).length := by
    rw [length_padTo, length_padTo, Nat.max_comm]
  rw [polyAdd, padTo_zipWith_xor n hlength, padTo_padTo hq, padTo_padTo hp]

theorem polyAdd_of_length_eq {p q : List Byte} (h : p.length = q.length) :
    polyAdd p q = List.zipWith (· ^^^ ·) p q := by
  rw [polyAdd, padTo_of_le h.ge, padTo_of_le h.le]

theorem polyAdd_assoc (p q r : List Byte) : polyAdd (polyAdd p q) r = polyAdd p (polyAdd q r) := by
  obtain ⟨n, hn⟩ : ∃ n, n = max (max p.length q.length) r.length := ⟨_, rfl⟩
  have hleft := length_polyAdd p q
  have hright := length_polyAdd q r
  have hsum : padTo n (polyAdd (polyAdd p q) r) = padTo n (polyAdd p (polyAdd q r)) := by
    rw [padTo_polyAdd (by omega) (by omega), padTo_polyAdd (by omega) (by omega),
      padTo_polyAdd (by omega) (by omega), padTo_polyAdd (by omega) (by omega), zipWith_xor_assoc]
  rwa [padTo_of_le (by rw [length_polyAdd]; omega), padTo_of_le (by rw [length_polyAdd]; omega)] at hsum

/-- The leading coefficient of the longer summand is that of the sum. -/
theorem polyAdd_cons_of_length_eq (c : Byte) {p q : List Byte} (h : p.length = q.length) :
    polyAdd (c :: p) q = c :: List.zipWith (· ^^^ ·) p q := by
  rw [polyAdd, List.length_cons, padTo_succ_length (congrArg (· + 1) h),
    padTo_of_le (h.ge.trans (Nat.le_succ _)), List.zipWith_cons_cons]
  exact congrArg (· :: _) BitVec.xor_zero

/-! ### One step of the division (R131) -/

/-- A step adds a multiple of the divisor, aligned with the leading coefficients. -/
theorem xorScaled_eq_zipWith (f : Byte) {tail ws : List Byte} (h : tail.length ≤ ws.length) :
    xorScaled f tail ws =
      List.zipWith (· ^^^ ·) (tail.map (gfmul f) ++ List.replicate (ws.length - tail.length) 0) ws := by
  induction tail generalizing ws with
  | nil => exact (zeros_zipWith_xor rfl).symm
  | cons d tail ih =>
    obtain _ | ⟨w, ws⟩ := ws
    · simp at h
    · rw [xorScaled, ih (Nat.le_of_succ_le_succ h), BitVec.xor_comm]
      simp

theorem xorScaled_xor (f g : Byte) (tail : List Byte) {ws vs : List Byte} (h : ws.length = vs.length) :
    xorScaled (f ^^^ g) tail (List.zipWith (· ^^^ ·) ws vs) =
      List.zipWith (· ^^^ ·) (xorScaled f tail ws) (xorScaled g tail vs) := by
  induction tail generalizing ws vs with
  | nil => rfl
  | cons d tail ih =>
    obtain _ | ⟨w, ws⟩ := ws <;> obtain _ | ⟨v, vs⟩ := vs
    · rfl
    · simp at h
    · simp at h
    · simp only [xorScaled, List.zipWith_cons_cons, ih (Nat.succ.inj h), xor_gfmul]
      congr 1
      ac_rfl

theorem xorScaled_gfmul (c f : Byte) (tail ws : List Byte) :
    xorScaled (gfmul c f) tail (ws.map (gfmul c)) = (xorScaled f tail ws).map (gfmul c) := by
  induction tail generalizing ws with
  | nil => rfl
  | cons d tail ih =>
    cases ws with
    | nil => rfl
    | cons w ws => simp only [xorScaled, List.map_cons, ih, gfmul_xor, gfmul_assoc]

/-- Only the products of the factor with the divisor's coefficients matter. -/
theorem xorScaled_map_gfmul (c f : Byte) (tail ws : List Byte) :
    xorScaled f (tail.map (gfmul c)) ws = xorScaled (gfmul f c) tail ws := by
  induction tail generalizing ws with
  | nil => rfl
  | cons d tail ih =>
    cases ws with
    | nil => rfl
    | cons w ws => simp only [xorScaled, List.map_cons, ih, gfmul_assoc]

theorem xorScaled_zero (tail ws : List Byte) : xorScaled 0 tail ws = ws := by
  induction tail generalizing ws with
  | nil => rfl
  | cons d tail ih =>
    cases ws with
    | nil => rfl
    | cons w ws =>
      rw [xorScaled, ih]
      exact congrArg (· :: ws) ((congrArg (w ^^^ ·) (zero_gfmul d)).trans BitVec.xor_zero)

/-! ### The factor of a step (R114, R131) -/

theorem gfdiv_xor (a b : Byte) {c : Byte} (hc : c ≠ 0) : gfdiv (a ^^^ b) c = gfdiv a c ^^^ gfdiv b c := by
  rw [gfdiv_eq_gfmul_inverse (a ^^^ b) hc, xor_gfmul, ← gfdiv_eq_gfmul_inverse a hc, ← gfdiv_eq_gfmul_inverse b hc]

theorem gfdiv_gfmul_left (c a : Byte) {b : Byte} (hb : b ≠ 0) : gfdiv (gfmul c a) b = gfmul c (gfdiv a b) := by
  rw [gfdiv_eq_gfmul_inverse (gfmul c a) hb, gfmul_assoc, ← gfdiv_eq_gfmul_inverse a hb]

theorem gfmul_ne_zero {a b : Byte} (ha : a ≠ 0) (hb : b ≠ 0) : gfmul a b ≠ 0 := fun h =>
  (gfmul_eq_zero h).elim ha hb

/-- A divisor scaled by c has a factor smaller by c. -/
theorem gfmul_gfdiv_gfmul (w : Byte) {c lead : Byte} (hc : c ≠ 0) (hlead : lead ≠ 0) :
    gfmul (gfdiv w (gfmul c lead)) c = gfdiv w lead := by
  rw [← gfdiv_gfmul (gfmul _ c) hlead, gfmul_assoc, gfmul_gfdiv w (gfmul_ne_zero hc hlead)]

/-! ### Synthetic division is linear (R131) -/

theorem divSteps_xor {lead : Byte} (hlead : lead ≠ 0) (tail : List Byte) (k : Nat) {p q : List Byte}
    (h : p.length = q.length) :
    divSteps lead tail k (List.zipWith (· ^^^ ·) p q) =
      List.zipWith (· ^^^ ·) (divSteps lead tail k p) (divSteps lead tail k q) := by
  induction k generalizing p q with
  | zero => rfl
  | succ k ih =>
    obtain _ | ⟨w, ws⟩ := p <;> obtain _ | ⟨v, vs⟩ := q
    · rfl
    · simp at h
    · simp at h
    · have hrest : ws.length = vs.length := Nat.succ.inj h
      simp only [divSteps, List.zipWith_cons_cons, gfdiv_xor w v hlead, xorScaled_xor _ _ tail hrest]
      exact ih (by rw [xorScaled_length, xorScaled_length, hrest])

theorem divSteps_map_gfmul {lead : Byte} (hlead : lead ≠ 0) (tail : List Byte) (c : Byte) (k : Nat) (p : List Byte) :
    divSteps lead tail k (p.map (gfmul c)) = (divSteps lead tail k p).map (gfmul c) := by
  induction k generalizing p with
  | zero => rfl
  | succ k ih =>
    cases p with
    | nil => rfl
    | cons w ws => simp only [divSteps, List.map_cons, gfdiv_gfmul_left c w hlead, xorScaled_gfmul, ih]

theorem divSteps_polyScale {lead c : Byte} (hc : c ≠ 0) (hlead : lead ≠ 0) (tail : List Byte) (k : Nat)
    (p : List Byte) : divSteps (gfmul c lead) (tail.map (gfmul c)) k p = divSteps lead tail k p := by
  induction k generalizing p with
  | zero => rfl
  | succ k ih =>
    cases p with
    | nil => rfl
    | cons w ws => simp only [divSteps, xorScaled_map_gfmul, gfmul_gfdiv_gfmul w hc hlead, ih]

/-! ### The remainder function (R131) -/

theorem polyrem_eq (p tail : List Byte) (lead : Byte) :
    polyrem p (lead :: tail) = divSteps lead tail (p.length - tail.length) (padTo tail.length p) := rfl

/-- No step runs on a dividend that is no longer than the remainder. -/
theorem polyrem_of_length_le {p tail : List Byte} (lead : Byte) (h : p.length ≤ tail.length) :
    polyrem p (lead :: tail) = padTo tail.length p := by
  rw [polyrem_eq, Nat.sub_eq_zero_of_le h]
  rfl

/-- The first step on a longer dividend. -/
theorem polyrem_cons (w lead : Byte) {ws tail : List Byte} (h : tail.length ≤ ws.length) :
    polyrem (w :: ws) (lead :: tail) = polyrem (xorScaled (gfdiv w lead) tail ws) (lead :: tail) := by
  rw [polyrem_eq_divSteps _ _ _ (h.trans (Nat.le_succ _)), polyrem_eq_divSteps _ _ _ (by rwa [xorScaled_length]),
    xorScaled_length, List.length_cons, Nat.succ_sub h]
  rfl

theorem polyrem_zipWith_xor {lead : Byte} (hlead : lead ≠ 0) (tail : List Byte) {p q : List Byte}
    (h : p.length = q.length) :
    polyrem (List.zipWith (· ^^^ ·) p q) (lead :: tail) =
      List.zipWith (· ^^^ ·) (polyrem p (lead :: tail)) (polyrem q (lead :: tail)) := by
  have hpadded : (padTo tail.length p).length = (padTo tail.length q).length := by
    rw [length_padTo, length_padTo, h]
  simp only [polyrem_eq, List.length_zipWith, h, Nat.min_self]
  rw [padTo_zipWith_xor _ h, divSteps_xor hlead tail _ hpadded]

theorem polyrem_map_gfmul {lead : Byte} (hlead : lead ≠ 0) (tail : List Byte) (c : Byte) (p : List Byte) :
    polyrem (p.map (gfmul c)) (lead :: tail) = (polyrem p (lead :: tail)).map (gfmul c) := by
  rw [polyrem_eq, padTo_map_gfmul, divSteps_map_gfmul hlead, List.length_map, polyrem_eq]

/-- A leading zero of the dividend is dropped by the first step, or is one of the remainder's own. -/
theorem polyrem_zero_cons {lead : Byte} (hlead : lead ≠ 0) (tail p : List Byte) :
    polyrem (0 :: p) (lead :: tail) = polyrem p (lead :: tail) := by
  obtain h | h : tail.length ≤ p.length ∨ p.length + 1 ≤ tail.length := by omega
  · rw [polyrem_cons 0 lead h, zero_gfdiv hlead, xorScaled_zero]
  · rw [polyrem_of_length_le lead (p := 0 :: p) h, polyrem_of_length_le lead (Nat.le_of_succ_le h),
      ← padTo_padTo h p, padTo_succ_length rfl]

theorem polyrem_dropWhile {lead : Byte} (hlead : lead ≠ 0) (tail p : List Byte) :
    polyrem (p.dropWhile (· == 0)) (lead :: tail) = polyrem p (lead :: tail) := by
  induction p with
  | nil => rfl
  | cons w p ih =>
    by_cases hw : w = 0
    · subst hw
      rw [polyrem_zero_cons hlead, ← ih]
      rfl
    · rw [List.dropWhile_cons_of_neg (by simpa using hw)]

/-- The remainder depends on the polynomial only. -/
theorem polyrem_congr {lead : Byte} (hlead : lead ≠ 0) (tail : List Byte) {p q : List Byte} (h : SamePoly p q) :
    polyrem p (lead :: tail) = polyrem q (lead :: tail) := by
  rw [← polyrem_dropWhile hlead tail p, h, polyrem_dropWhile hlead]

theorem polyrem_padTo {lead : Byte} (hlead : lead ≠ 0) (tail : List Byte) (n : Nat) (p : List Byte) :
    polyrem (padTo n p) (lead :: tail) = polyrem p (lead :: tail) :=
  (polyrem_congr hlead tail (samePoly_padTo n p)).symm

theorem polyrem_polyAdd {lead : Byte} (hlead : lead ≠ 0) (tail p q : List Byte) :
    polyrem (polyAdd p q) (lead :: tail) =
      List.zipWith (· ^^^ ·) (polyrem p (lead :: tail)) (polyrem q (lead :: tail)) := by
  rw [polyAdd, polyrem_zipWith_xor hlead tail (by rw [length_padTo, length_padTo, Nat.max_comm]),
    polyrem_padTo hlead, polyrem_padTo hlead]

theorem polyrem_zeros {lead : Byte} (hlead : lead ≠ 0) (tail : List Byte) (k : Nat) :
    polyrem (List.replicate k 0) (lead :: tail) = List.replicate tail.length 0 := by
  induction k with
  | zero =>
    rw [List.replicate_zero, polyrem_of_length_le lead (Nat.zero_le _), padTo, List.append_nil]
    rfl
  | succ k ih => rw [List.replicate_succ, polyrem_zero_cons hlead, ih]

/-- What has the remainder's length is its own remainder. -/
theorem polyrem_self {r tail : List Byte} (lead : Byte) (h : r.length = tail.length) :
    polyrem r (lead :: tail) = r := by
  rw [polyrem_of_length_le lead h.le, padTo_of_le h.ge]

/-! ### Multiples of the divisor (R130) -/

/-- A multiple of the divisor by a monomial is cancelled by one step. -/
theorem polyrem_polyScale_append_zeros {lead : Byte} (hlead : lead ≠ 0) (tail : List Byte) (c : Byte) (k : Nat) :
    polyrem (polyScale c (lead :: tail) ++ List.replicate k 0) (lead :: tail) = List.replicate tail.length 0 := by
  have hlength : (tail.map (gfmul c) ++ List.replicate k 0).length - tail.length = k := by simp
  rw [polyScale, List.map_cons, List.cons_append, polyrem_cons _ _ (by simp), gfdiv_gfmul c hlead,
    xorScaled_eq_zipWith c (by simp), hlength, zipWith_xor_self, polyrem_zeros hlead]

theorem polyrem_polyMul {lead : Byte} (hlead : lead ≠ 0) (q tail : List Byte) :
    polyrem (polyMul q (lead :: tail)) (lead :: tail) = List.replicate tail.length 0 := by
  induction q with
  | nil => exact polyrem_zeros hlead tail 0
  | cons c q ih =>
    rw [polyMul, polyrem_polyAdd hlead, polyrem_polyScale_append_zeros hlead, ih, zeros_zipWith_xor_zeros]

/-- Only one sequence of the remainder's length differs from p by a multiple of the divisor. -/
theorem eq_polyrem {lead : Byte} (hlead : lead ≠ 0) {p q r tail : List Byte} (hr : r.length = tail.length)
    (h : SamePoly p (polyAdd (polyMul q (lead :: tail)) r)) : r = polyrem p (lead :: tail) := by
  rw [polyrem_congr hlead tail h, polyrem_polyAdd hlead, polyrem_polyMul hlead, polyrem_self lead hr,
    zeros_zipWith_xor hr]

/-- The factors of the steps are the quotient: undoing the first step adds its multiple of the divisor again. -/
theorem exists_quotient {lead : Byte} (hlead : lead ≠ 0) (tail : List Byte) (k : Nat) {p : List Byte}
    (hp : p.length = tail.length + k) :
    ∃ q, q.length = k ∧ p = polyAdd (polyMul q (lead :: tail)) (polyrem p (lead :: tail)) := by
  induction k generalizing p with
  | zero =>
    refine ⟨[], rfl, ?_⟩
    rw [polyrem_self lead hp, polyMul, polyAdd, List.length_nil, padTo_of_le (Nat.zero_le _), padTo, List.append_nil]
    exact (zeros_zipWith_xor rfl).symm
  | succ k ih =>
    obtain _ | ⟨w, ws⟩ := p
    · simp at hp
    have hws : ws.length = tail.length + k := Nat.succ.inj hp
    have hle : tail.length ≤ ws.length := by omega
    obtain ⟨q, hq, hquotient⟩ := ih (p := xorScaled (gfdiv w lead) tail ws) (by rw [xorScaled_length, hws])
    refine ⟨gfdiv w lead :: q, congrArg (· + 1) hq, ?_⟩
    have hmultiple : (tail.map (gfmul (gfdiv w lead)) ++ List.replicate k 0).length = ws.length := by
      simp [hws]
    rw [polyMul, polyAdd_assoc, polyrem_cons w lead hle, ← hquotient, hq, polyScale, List.map_cons,
      List.cons_append, gfmul_gfdiv w hlead,
      polyAdd_cons_of_length_eq w (hmultiple.trans (xorScaled_length _ _ _).symm), xorScaled_eq_zipWith _ hle, hws,
      Nat.add_sub_cancel_left, zipWith_xor_cancel hmultiple]

/-- Settles O35: the quotient is that of the dividend with the leading zeros the rule adds. -/
theorem polyremIsTheRemainder : Obligations.PolyremIsTheRemainder := by
  refine fun p tail lead hlead => ⟨length_polyrem p _, ?_, fun q r => eq_polyrem hlead⟩
  have hlength : (padTo tail.length p).length = tail.length + (p.length - tail.length) := by
    rw [length_padTo]
    omega
  obtain ⟨q, -, hquotient⟩ := exists_quotient hlead tail _ hlength
  rw [polyrem_padTo hlead] at hquotient
  exact ⟨q, hquotient ▸ samePoly_padTo _ p⟩

/-- Settles O36: a scaled divisor has the same multiples at every step. -/
theorem remainderDependsOnThePolynomials : Obligations.RemainderDependsOnThePolynomials := by
  refine fun p p' d lead c hlead hc => ⟨polyrem_congr hlead d, ?_⟩
  rw [polyScale, List.map_cons, polyrem_eq, divSteps_polyScale hc hlead, List.length_map, polyrem_eq]

/-! ### RSENC's remainder (R134) -/

theorem rsenc_eq (m : List Byte) {n : Nat} (hn : n ≤ 30) :
    rsenc m n = polyrem (m ++ List.replicate n 0) (1 :: (genRom n).tail) := by
  rw [rsenc, ← genRom_eq_cons n hn]

theorem length_genRom_tail {n : Nat} (hn : n ≤ 30) : (genRom n).tail.length = n := by
  rw [List.length_tail, length_genRom n hn, Nat.add_sub_cancel]

theorem one_ne_zero_byte : (1 : Byte) ≠ 0 := by decide

/-- Settles O39: the block is the data followed by zeros, plus the ECC, which is its own remainder. -/
theorem dataWithEccHasZeroRemainder : Obligations.DataWithEccHasZeroRemainder := by
  intro m n hn
  have htail := length_genRom_tail hn
  have hecc : (rsenc m n).length = n := length_rsenc m n hn
  have hblock : m ++ rsenc m n = polyAdd (m ++ List.replicate n 0) (rsenc m n) := by
    rw [polyAdd, padTo_of_le (by simp [hecc]), padTo, List.length_append, List.length_replicate, hecc,
      Nat.add_sub_cancel, List.zipWith_append (by simp), zipWith_xor_zeros rfl, zeros_zipWith_xor hecc]
  rw [hblock, genRom_eq_cons n hn, polyrem_polyAdd one_ne_zero_byte, ← rsenc_eq m hn,
    polyrem_self 1 (hecc.trans htail.symm), zipWith_xor_self, hecc]

/-- Settles O40: appending zeros to the data commutes with sums and with scaling, and so does the remainder. -/
theorem rsencIsLinear : Obligations.RsencIsLinear := by
  intro m m' n c hn hlength
  have hsum : List.zipWith (· ^^^ ·) m m' ++ List.replicate n 0 =
      List.zipWith (· ^^^ ·) (m ++ List.replicate n 0) (m' ++ List.replicate n 0) := by
    rw [List.zipWith_append hlength, zeros_zipWith_xor_zeros]
  have hscaled : m.map (gfmul c) ++ List.replicate n 0 = (m ++ List.replicate n 0).map (gfmul c) := by
    rw [List.map_append, List.map_replicate]
    exact congrArg (fun z => _ ++ List.replicate n z) (gfmul_zero c).symm
  simp only [rsenc_eq _ hn, hsum, hscaled]
  exact ⟨polyrem_zipWith_xor one_ne_zero_byte _ (by simp [hlength]), polyrem_map_gfmul one_ne_zero_byte _ c _⟩

end Sys2Proof.Division
end

section
/-! SUPPORT. The proofs of the statements on the commands PDIV and RSENC (41_polydiv): their checks as arithmetic, and
the one write of BUF in which both end. -/

namespace Sys2Proof.PolyCommands
open Sys2Proof Sys2Proof.Machine Sys2Proof.Spec Sys2Proof.Field Sys2Proof.FieldCommands Sys2Proof.CommandWords
open Sys2Proof.Division

/-! ### A command whose effect is one write of BUF (R79, R80) -/

/-- It completes with the bytes at their address and every other byte of BUF unchanged. -/
theorem exec_of_memWrite {i : Instr} (hi : i ≠ .swrst) {s : State} {addr n : Nat} {bytes : List Byte}
    (hchecks : firstFailed (checksOf i s) = none) (heffect : effectOf i s = memWrite addr bytes s)
    (hlength : bytes.length = n) :
    ∃ m, exec i s = .next (done { s with buf := m }) ∧ memRead { s with buf := m } addr n = bytes ∧
      ∀ a, a < addr ∨ addr + n ≤ a → bufByte { s with buf := m } a = bufByte s a := by
  subst hlength
  refine ⟨Memory.storeBytes s.buf addr bytes, ?_, memRead_storeBytes s s.buf addr bytes,
    fun a ha => bufByte_storeBytes_out s s.buf addr bytes a ha⟩
  rw [exec_done hi hchecks, heffect]
  rfl

/-! ### The checks (R132, R135) -/

/-- The degree check, which both commands make first, when it fails. -/
theorem firstFailed_degree {n : Nat} (h : 30 < n) (rest : List (Bool × ErrCode)) :
    firstFailed ((decide (n ≤ Config.maxEcc), .badarg) :: rest) = some .badarg :=
  firstFailed_of_false (decide_eq_false (Nat.not_le.mpr h))

/-- The degree check when it holds. -/
theorem firstFailed_after_degree {n : Nat} (h : n ≤ 30) (rest : List (Bool × ErrCode)) :
    firstFailed ((decide (n ≤ Config.maxEcc), .badarg) :: rest) = firstFailed rest :=
  firstFailed_of_true (decide_eq_true h)

/-- PDIV's region check, as arithmetic. -/
theorem pdivRegions_iff (n : Nat) (s : State) :
    (inBuf (polyAddr s) (polyLen s) && inBuf (divisorAddr s) (n + 1) && inBuf (remainderAddr s) n) = true ↔
      s.a.toNat + s.b.toNat ≤ 16384 ∧ s.c.toNat + n + 1 ≤ 16384 ∧ s.d.toNat + n ≤ 16384 := by
  rw [Bool.and_eq_true, Bool.and_eq_true, inBuf_eq_true, inBuf_eq_true, inBuf_eq_true, and_assoc]
  rfl

/-- RSENC's region check, as arithmetic. -/
theorem rsencRegions_iff (n : Nat) (s : State) :
    (inBuf (polyAddr s) (polyLen s) && inBuf (remainderAddr s) n) = true ↔
      s.a.toNat + s.b.toNat ≤ 16384 ∧ s.d.toNat + n ≤ 16384 := by
  rw [Bool.and_eq_true, inBuf_eq_true, inBuf_eq_true]
  rfl

theorem exec_pdiv_badarg {n : Nat} (hn : 30 < n) (s : State) : exec (.pdiv n) s = .next (failed .badarg s) :=
  exec_failed (i := .pdiv n) (by simp) (firstFailed_degree hn _)

theorem exec_pdiv_range {s : State} {n : Nat} (hn : n ≤ 30)
    (h : 16384 < s.a.toNat + s.b.toNat ∨ 16384 < s.c.toNat + n + 1 ∨ 16384 < s.d.toNat + n) :
    exec (.pdiv n) s = .next (failed .range s) :=
  exec_failed (i := .pdiv n) (by simp) <| (firstFailed_after_degree hn _).trans <|
    firstFailed_of_false <| Bool.eq_false_iff.mpr fun hregions => by
      have hinside := (pdivRegions_iff n s).mp hregions
      omega

/-- PDIV's checks up to the divisor's leading byte hold. -/
theorem firstFailed_pdiv_of_inside {s : State} {n : Nat} (hn : n ≤ 30) (hp : s.a.toNat + s.b.toNat ≤ 16384)
    (hd : s.c.toNat + n + 1 ≤ 16384) (hr : s.d.toNat + n ≤ 16384) :
    firstFailed (checksOf (.pdiv n) s) = firstFailed [(decide (bufByte s s.c.toNat ≠ 0), .div0)] :=
  (firstFailed_after_degree hn _).trans (firstFailed_of_true ((pdivRegions_iff n s).mpr ⟨hp, hd, hr⟩))

theorem exec_rsenc_badarg {n : Nat} (hn : 30 < n) (s : State) : exec (.rsenc n) s = .next (failed .badarg s) :=
  exec_failed (i := .rsenc n) (by simp) (firstFailed_degree hn _)

theorem exec_rsenc_range {s : State} {n : Nat} (hn : n ≤ 30)
    (h : 16384 < s.a.toNat + s.b.toNat ∨ 16384 < s.d.toNat + n) :
    exec (.rsenc n) s = .next (failed .range s) :=
  exec_failed (i := .rsenc n) (by simp) <| (firstFailed_after_degree hn _).trans <|
    firstFailed_of_false <| Bool.eq_false_iff.mpr fun hregions => by
      have hinside := (rsencRegions_iff n s).mp hregions
      omega

theorem firstFailed_rsenc_of_inside {s : State} {n : Nat} (hn : n ≤ 30) (hm : s.a.toNat + s.b.toNat ≤ 16384)
    (hr : s.d.toNat + n ≤ 16384) : firstFailed (checksOf (.rsenc n) s) = none :=
  (firstFailed_after_degree hn _).trans (firstFailed_of_true ((rsencRegions_iff n s).mpr ⟨hm, hr⟩))

/-! ### The rules of the two commands -/

/-- Settles O37: the checks in order, then the one write. -/
theorem pdivRule : Obligations.PdivRule := by
  refine fun s n => ⟨fun _ hopc hreserved => runCommand_of_reserved .pdiv hopc hreserved s,
    fun hn => runCommand_encode (i := .pdiv n) (decide_eq_true hn) s, fun hn => exec_pdiv_badarg hn s,
    exec_pdiv_range, fun hn hp hd hr hlead => ?_, fun hn hp hd hr hlead => ?_,
    fun _ _ lead hlength => polyrem_of_length_le lead hlength, by decide +kernel⟩
  · exact exec_failed (i := .pdiv n) (by simp)
      ((firstFailed_pdiv_of_inside hn hp hd hr).trans (firstFailed_of_false (decide_eq_false (not_not.mpr hlead))))
  · exact exec_of_memWrite (i := .pdiv n) (by simp)
      ((firstFailed_pdiv_of_inside hn hp hd hr).trans (firstFailed_of_true (decide_eq_true hlead))) rfl
      (Regions.length_pdivBytes n s)

theorem rsenc_zeros {n : Nat} (hn : n ≤ 30) (k : Nat) : rsenc (List.replicate k 0) n = List.replicate n 0 := by
  rw [rsenc_eq _ hn, List.replicate_append_replicate, polyrem_zeros one_ne_zero_byte, length_genRom_tail hn]

/-- The one step subtracts GEN[n] from x^n. -/
theorem rsenc_one {n : Nat} (hn : n ≤ 30) : rsenc [1] n = (genRom n).tail := by
  have htail := length_genRom_tail hn
  have hscaled : (genRom n).tail.map (gfmul 1) = (genRom n).tail :=
    (List.map_congr_left fun d _ => one_gfmul d).trans (List.map_id' _)
  rw [rsenc_eq _ hn, List.singleton_append, polyrem_cons _ _ (by simp [htail]), gfdiv_one,
    polyrem_self _ (by rw [xorScaled_length, List.length_replicate, htail]),
    xorScaled_eq_zipWith _ (by simp [htail]), hscaled, List.length_replicate, htail, Nat.sub_self,
    List.replicate_zero, List.append_nil, zipWith_xor_zeros htail]

/-- Settles O38: no division fails, because GEN[n] is monic. -/
theorem rsencRule : Obligations.RsencRule := by
  refine fun s n => ⟨fun _ hopc hreserved => runCommand_of_reserved .rsenc hopc hreserved s,
    fun hn => runCommand_encode (i := .rsenc n) (decide_eq_true hn) s, fun hn => exec_rsenc_badarg hn s,
    exec_rsenc_range, fun hn hm hr => ?_, rsenc_zeros, rsenc_one, by decide +kernel⟩
  exact exec_of_memWrite (i := .rsenc n) (by simp) (firstFailed_rsenc_of_inside hn hm hr) rfl (length_rsenc _ n hn)

end Sys2Proof.PolyCommands
end

section
/-! SUPPORT. Runs of stream bits as lists: what PutBits leaves in the stream and BSGET reads from it, the bits of a
value that is two values one after the other, and the bits and bytes of BSPAD's padding (42_bitstream section 1). -/

namespace Sys2Proof.StreamBits
open Sys2Proof Sys2Proof.Machine

/-! ### The bits of a value (R151) -/

/-- A value that fits its width is known from its bits. -/
theorem msbFirst_inj {w v v' : Nat} (hv : v < 2 ^ w) (hv' : v' < 2 ^ w) (h : msbFirst v w = msbFirst v' w) :
    v = v' := by
  refine Nat.eq_of_testBit_eq fun i => ?_
  by_cases hi : i < w
  case pos =>
    have hplace : w - 1 - (w - 1 - i) = i := by omega
    have hbit := msbFirst_getElem v w (w - 1 - i) (by omega)
    have hbit' := msbFirst_getElem v' w (w - 1 - i) (by omega)
    rw [hplace] at hbit hbit'
    rw [← hbit, ← hbit']
    simp only [h]
  case neg =>
    have hpow : 2 ^ w ≤ 2 ^ i := Nat.pow_le_pow_right (by decide) (Nat.not_lt.mp hi)
    rw [Nat.testBit_lt_two_pow (hv.trans_le hpow), Nat.testBit_lt_two_pow (hv'.trans_le hpow)]

/-- The bits of v₁·2^w₂ + v₂ are those of v₁, then those of v₂. -/
theorem msbFirst_concat (v₁ w₁ : Nat) {v₂ w₂ : Nat} (hv₂ : v₂ < 2 ^ w₂) :
    msbFirst (v₁ * 2 ^ w₂ + v₂) (w₁ + w₂) = msbFirst v₁ w₁ ++ msbFirst v₂ w₂ := by
  refine List.ext_getElem (by simp) fun j hj _ => ?_
  rw [msbFirst_length] at hj
  rw [msbFirst_getElem _ _ j hj, Nat.mul_comm v₁, Nat.testBit_two_pow_mul_add _ hv₂, List.getElem_append]
  simp only [msbFirst_length]
  rcases Nat.lt_or_ge j w₁ with hleft | hright
  · rw [if_neg (by omega), dif_pos hleft, msbFirst_getElem _ _ _ hleft]
    congr 1
    omega
  · rw [if_pos (by omega), dif_neg (by omega), msbFirst_getElem _ _ _ (by omega)]
    congr 1
    omega

/-! ### Runs of stream bits -/

/-- The n stream bits from bit k on. -/
def streamBits (s : State) (k n : Nat) : List Bool :=
  (List.range n).map fun j => streamBit s (streamBase s) (k + j)

@[simp] theorem streamBits_length (s : State) (k n : Nat) : (streamBits s k n).length = n := by simp [streamBits]

theorem streamBits_getElem (s : State) (k : Nat) {n j : Nat} (hj : j < n) :
    (streamBits s k n)[j]'(by simpa using hj) = streamBit s (streamBase s) (k + j) := by simp [streamBits]

theorem streamBits_add (s : State) (k m n : Nat) :
    streamBits s k (m + n) = streamBits s k m ++ streamBits s (k + m) n := by
  simp [streamBits, List.range_add, Nat.add_assoc]

/-- PutBits leaves its bits from the old length on (R152). -/
theorem streamBits_putBits {bits : List Bool} {s : State} (h : streamLen s + bits.length < 2 ^ 32) :
    streamBits (putBits bits s) (streamLen s) bits.length = bits := by
  refine List.ext_getElem (streamBits_length _ _ _) fun j _ hj => ?_
  rw [streamBits_getElem _ _ hj, streamBase_putBits, streamBit_putBits bits s h, dif_pos (by omega)]
  simp

/-- The number BSGET reads has the stream bits it reads as its bits (R159). -/
theorem msbFirst_takeBits (s : State) (w k : Nat) : msbFirst (takeBits s w k 0) w = streamBits s k w := by
  refine List.ext_getElem (by simp) fun j hj _ => ?_
  rw [msbFirst_length] at hj
  obtain ⟨-, hbits⟩ := takeBits_spec s w k 0
  rw [msbFirst_getElem _ _ j hj, streamBits_getElem _ _ hj, hbits j hj]

/-- A byte of BUF is known from its stream bits (R151). -/
theorem bufByte_eq_of_streamBit {s : State} {base m : Nat} {v : Byte}
    (h : ∀ b, b < 8 → streamBit s base (8 * m + b) = v.getLsbD (7 - b)) : bufByte s (base + m) = v := by
  refine BitVec.eq_of_getLsbD_eq fun i hi => ?_
  have hbit := h (7 - i) (by omega)
  have hbyte : (8 * m + (7 - i)) / 8 = m := by omega
  have hplace : 7 - (8 * m + (7 - i)) % 8 = i := by omega
  rwa [streamBit, hbyte, hplace, (by omega : 7 - (7 - i) = i)] at hbit

/-! ### BSPAD's padding (R157, R158) -/

/-- Zeros up to the start of the pad codewords, then the codewords: body is the length after terminator and
alignment. -/
theorem padBits_eq {len cap body : Nat} (h : len ≤ cap) (hbody : body = 8 * ((min (len + 4) cap + 7) / 8)) :
    padBits len cap = List.replicate (body - len) false ++ padCodewords ((cap - body) / 8) 0 := by
  have hzeros : terminatorLen len cap + alignLen (len + terminatorLen len cap) = body - len := by
    simp only [terminatorLen, alignLen]
    omega
  have hstart : len + (body - len) = body := by omega
  simp only [padBits, Nat.add_assoc, hzeros, hstart]

/-- The bits of the j-th codeword. -/
theorem padCodewords_getElem {count j b : Nat} (i : Nat) (hj : j < count) (hb : b < 8) :
    (padCodewords count i)[8 * j + b]'(by rw [padCodewords_length]; omega) =
      (if (i + j) % 2 = 0 then 0xEC else 0x11 : Byte).getLsbD (7 - b) := by
  induction count generalizing i j with
  | zero => omega
  | succ count ih =>
    simp only [padCodewords, List.getElem_append, msbFirst_length]
    cases j with
    | zero =>
      rw [dif_pos (by omega), msbFirst_getElem _ _ _ (by omega), Nat.mul_zero, Nat.zero_add, Nat.add_zero]
      split <;> rfl
    | succ j =>
      have hplace : 8 * (j + 1) + b - 8 = 8 * j + b := by omega
      rw [dif_neg (by omega)]
      simp only [hplace]
      rw [ih (i + 1) (by omega), Nat.add_right_comm i 1 j, Nat.add_assoc i j 1]

end Sys2Proof.StreamBits
end

section
/-! SUPPORT. The proofs of the statements on BSRESET, BSAPPEND, BSPAD and BSGET (42_bitstream section 2): their checks
as arithmetic, the run of PutBits in which BSAPPEND and BSPAD end, and the two laws of appends. -/

namespace Sys2Proof.StreamCommands
open Sys2Proof Sys2Proof.Machine Sys2Proof.Spec Sys2Proof.CommandWords Sys2Proof.StreamBits

/-! ### A command whose effect is a run of PutBits (R152) -/

theorem putBits_era (bits : List Bool) (s : State) : (putBits bits s).era = s.era := by rw [putBits_frame]

theorem streamCap_putBits (bits : List Bool) (s : State) : streamCap (putBits bits s) = streamCap s := by
  rw [putBits_frame]
  rfl

/-- A byte of BUF does not depend on BSLEN. -/
theorem bufByte_putBits_buf (bits : List Bool) (s : State) (i : Nat) :
    bufByte { s with buf := (putBits bits s).buf } i = bufByte (putBits bits s) i := by
  simp only [bufByte, putBits_era]

theorem streamBit_putBits_buf (bits : List Bool) (s : State) (base k : Nat) :
    streamBit { s with buf := (putBits bits s).buf } base k = streamBit (putBits bits s) base k := by
  rw [streamBit, streamBit, bufByte_putBits_buf]

/-- What a run of PutBits within the capacity leaves in BUF: the bits before it, its own bits, the rest of its last
byte, and every other byte. -/
theorem exec_of_putBits {i : Instr} (hi : i ≠ .swrst) {s : State} {bits : List Bool} {n : Nat}
    (hchecks : firstFailed (checksOf i s) = none) (heffect : effectOf i s = putBits bits s)
    (hlength : streamLen s + bits.length = n) (hcap : n ≤ streamCap s) :
    ∃ m, exec i s = .next (done { s with buf := m, bslen := BitVec.ofNat 32 n }) ∧
      (∀ k, k < streamLen s →
        streamBit { s with buf := m } (streamBase s) k = streamBit s (streamBase s) k) ∧
      (∀ j (hj : j < bits.length), streamBit { s with buf := m } (streamBase s) (streamLen s + j) = bits[j]) ∧
      (∀ k, n ≤ k → k < 8 * ((n + 7) / 8) → streamBit { s with buf := m } (streamBase s) k =
        if streamLen s % 8 ≠ 0 ∧ k / 8 = streamLen s / 8 then streamBit s (streamBase s) k else false) ∧
      (∀ a, a < streamBase s + streamLen s / 8 ∨ streamBase s + (n + 7) / 8 ≤ a →
        bufByte { s with buf := m } a = bufByte s a) := by
  subst hlength
  have hfits : streamLen s + bits.length < 2 ^ 32 := hcap.trans_lt s.bscap.isLt
  refine ⟨(putBits bits s).buf, ?_, fun k hk => ?_, fun j hj => ?_, fun k hn hk => ?_, fun a ha => ?_⟩
  · rw [exec_done hi hchecks, heffect, putBits_frame, bslen_putBits bits s hfits]
    rfl
  · rw [streamBit_putBits_buf, streamBit_putBits bits s hfits, dif_neg (by omega), if_neg (by omega)]
  · rw [streamBit_putBits_buf, streamBit_putBits bits s hfits, dif_pos (by omega)]
    simp
  · rw [streamBit_putBits_buf, streamBit_putBits bits s hfits, dif_neg (by omega)]
    by_cases hstarted : streamLen s % 8 ≠ 0 ∧ k / 8 = streamLen s / 8
    · rw [if_neg fun ⟨_, _, hnew⟩ => hnew hstarted, if_pos hstarted]
    · rw [if_pos ⟨hn, hk, hstarted⟩, if_neg hstarted]
  · rw [bufByte_putBits_buf, bufByte_putBits bits s hfits a ha]

/-! ### The checks (R155, R157, R159) -/

/-- The width check, which BSAPPEND and BSGET make first, when it fails. -/
theorem firstFailed_wide {w : Nat} (h : 32 < w) (rest : List (Bool × ErrCode)) :
    firstFailed ((decide (w ≤ 32), .badarg) :: rest) = some .badarg :=
  firstFailed_of_false (decide_eq_false (Nat.not_le.mpr h))

/-- The width check when it holds. -/
theorem firstFailed_after_width {w : Nat} (h : w ≤ 32) (rest : List (Bool × ErrCode)) :
    firstFailed ((decide (w ≤ 32), .badarg) :: rest) = firstFailed rest :=
  firstFailed_of_true (decide_eq_true h)

/-- BSAPPEND's check of the value, as arithmetic: 32 bits hold every register value. -/
theorem valueFits_iff (w : Nat) (v : Word) :
    (decide (w = 32) || decide (v.toNat < 2 ^ w)) = true ↔ v.toNat < 2 ^ w := by
  rw [Bool.or_eq_true, decide_eq_true_iff, decide_eq_true_iff, or_iff_right_iff_imp]
  rintro rfl
  exact v.isLt

/-- The checks of BSAPPEND after the first two. -/
theorem firstFailed_bsappend {w : Nat} {s : State} (hw : w ≤ 32) (hv : s.a.toNat < 2 ^ w) :
    firstFailed (checksOf (.bsappend w) s) =
      firstFailed [(inBuf (streamBase s) (ceil8 (streamCap s)), .range),
        (decide (streamLen s + w ≤ streamCap s), .ovf)] :=
  (firstFailed_after_width hw _).trans (firstFailed_of_true ((valueFits_iff w s.a).mpr hv))

/-- The checks of BSPAD after the first. -/
theorem firstFailed_bspad {s : State} (hcap : streamCap s % 8 = 0) :
    firstFailed (checksOf .bspad s) =
      firstFailed [(inBuf (streamBase s) (streamCap s / 8), .range),
        (decide (streamLen s ≤ streamCap s), .ovf)] :=
  firstFailed_of_true (decide_eq_true hcap)

/-- A region check and a length check, the region outside BUF. -/
theorem firstFailed_range {addr len : Nat} (h : 16384 < addr + len) (rest : List (Bool × ErrCode)) :
    firstFailed ((inBuf addr len, .range) :: rest) = some .range :=
  firstFailed_of_false (inBuf_eq_false.mpr h)

theorem firstFailed_after_range {addr len : Nat} (h : addr + len ≤ 16384) (rest : List (Bool × ErrCode)) :
    firstFailed ((inBuf addr len, .range) :: rest) = firstFailed rest :=
  firstFailed_of_true (inBuf_eq_true.mpr h)

/-- The last check, of a length against a bound. -/
theorem firstFailed_past {l bound : Nat} (h : bound < l) (e : ErrCode) :
    firstFailed [(decide (l ≤ bound), e)] = some e :=
  firstFailed_of_false (decide_eq_false (Nat.not_le.mpr h))

theorem firstFailed_within {l bound : Nat} (h : l ≤ bound) (e : ErrCode) :
    firstFailed [(decide (l ≤ bound), e)] = none :=
  firstFailed_of_true (decide_eq_true h)

theorem exec_bsappend_failed {w : Nat} {s : State} {e : ErrCode}
    (h : firstFailed (checksOf (.bsappend w) s) = some e) : exec (.bsappend w) s = .next (failed e s) :=
  exec_failed (i := .bsappend w) nofun h

theorem exec_bspad_failed {s : State} {e : ErrCode} (h : firstFailed (checksOf .bspad s) = some e) :
    exec .bspad s = .next (failed e s) :=
  exec_failed (i := .bspad) nofun h

theorem exec_bsget_failed {w : Nat} {s : State} {e : ErrCode}
    (h : firstFailed (checksOf (.bsget w) s) = some e) : exec (.bsget w) s = .next (failed e s) :=
  exec_failed (i := .bsget w) nofun h

/-! ### The rules of the four commands -/

/-- Settles O41: BSRESET makes no check. -/
theorem bsresetRule : Obligations.BsresetRule := fun s =>
  ⟨fun _ hopc hreserved => runCommand_of_reserved .bsreset hopc hreserved s,
    runCommand_encode (i := .bsreset) rfl s, rfl⟩

/-- Settles O42: the checks in order, then PutBits of the value. -/
theorem bsappendRule : Obligations.BsappendRule := by
  intro s w base len cap hbase hlen hcap
  obtain rfl : base = streamBase s := hbase
  obtain rfl : len = streamLen s := hlen
  obtain rfl : cap = streamCap s := hcap
  refine ⟨fun _ hopc hreserved => runCommand_of_reserved .bsappend hopc hreserved s,
    fun hw => runCommand_encode (i := .bsappend w) (decide_eq_true hw) s,
    fun hw => exec_bsappend_failed (firstFailed_wide hw _), fun hw hv => exec_bsappend_failed ?width,
    fun hw hv hrange => exec_bsappend_failed ?range,
    fun hw hv hrange hfull => exec_bsappend_failed ?ovf, fun hw hv hrange hfits => ?done⟩
  case width =>
    refine (firstFailed_after_width hw _).trans (firstFailed_of_false ?_)
    exact Bool.eq_false_iff.mpr fun hfits => Nat.not_lt.mpr hv ((valueFits_iff w s.a).mp hfits)
  case range => exact (firstFailed_bsappend hw hv).trans (firstFailed_range hrange _)
  case ovf =>
    exact (firstFailed_bsappend hw hv).trans ((firstFailed_after_range hrange _).trans (firstFailed_past hfull _))
  case done =>
    have hchecks := (firstFailed_bsappend hw hv).trans
      ((firstFailed_after_range hrange _).trans (firstFailed_within hfits .ovf))
    obtain ⟨m, hexec, hbefore, happended, hafter, hbytes⟩ := exec_of_putBits (i := .bsappend w) nofun hchecks rfl
      (congrArg (streamLen s + ·) (msbFirst_length s.a.toNat w)) hfits
    refine ⟨m, hexec, hbefore, fun j hj => ?_, hafter, hbytes⟩
    exact (happended j (by rwa [msbFirst_length])).trans (msbFirst_getElem s.a.toNat w j hj)

/-- Settles O43: the checks in order, then PutBits of the zeros and of the pad codewords. -/
theorem bspadRule : Obligations.BspadRule := by
  intro s base len cap body hbase hlen hcap hbody
  obtain rfl : base = streamBase s := hbase
  obtain rfl : len = streamLen s := hlen
  obtain rfl : cap = streamCap s := hcap
  refine ⟨fun _ hopc hreserved => runCommand_of_reserved .bspad hopc hreserved s,
    runCommand_encode (i := .bspad) rfl s,
    fun hcap => exec_bspad_failed (firstFailed_of_false (decide_eq_false hcap)),
    fun hcap hrange => exec_bspad_failed ?range, fun hcap hrange hfull => exec_bspad_failed ?ovf,
    fun hcap hrange hfits => ?done⟩
  case range => exact (firstFailed_bspad hcap).trans (firstFailed_range hrange _)
  case ovf =>
    exact (firstFailed_bspad hcap).trans ((firstFailed_after_range hrange _).trans (firstFailed_past hfull _))
  case done =>
    have hchecks := (firstFailed_bspad hcap).trans
      ((firstFailed_after_range hrange _).trans (firstFailed_within hfits .ovf))
    have hpad := padBits_eq hfits hbody
    have hlength := padBits_length hcap hfits
    rw [hpad] at hlength
    have hbodyCap : body ≤ streamCap s := by omega
    obtain ⟨m, hexec, hbefore, happended, -, hbytes⟩ := exec_of_putBits (i := .bspad) nofun hchecks
      (congrArg (putBits · s) hpad) (by rw [hlength, Nat.add_sub_cancel' hfits]) le_rfl
    refine ⟨m, ?_, hbefore, fun k hlen hk => ?_, fun j hj => ?_, fun a ha => hbytes a (by omega)⟩
    · rw [hexec, streamCap, BitVec.ofNat_toNat, BitVec.setWidth_eq]
    · have hzero := happended (k - streamLen s) (by omega)
      rwa [Nat.add_sub_cancel' hlen, List.getElem_append_left (by simpa using by omega),
        List.getElem_replicate] at hzero
    · rw [Nat.add_assoc]
      refine bufByte_eq_of_streamBit fun b hb => ?_
      have hcodeword := happended (body - streamLen s + (8 * j + b)) (by omega)
      rw [List.getElem_append_right (by simp)] at hcodeword
      simp only [List.length_replicate, Nat.add_sub_cancel_left] at hcodeword
      rw [padCodewords_getElem 0 hj hb, Nat.zero_add] at hcodeword
      rw [← hcodeword]
      congr 1
      omega

/-- BSGET when its checks hold. -/
theorem exec_bsget {w : Nat} {s : State} (hw : w ≤ 32) (hrange : streamBase s + (streamLen s + 7) / 8 ≤ 16384)
    (hread : streamCursor s + w ≤ streamLen s) :
    exec (.bsget w) s = .next (done { s with
      result := BitVec.ofNat 32 (takeBits s w (streamCursor s) 0),
      bsrd := BitVec.ofNat 32 (streamCursor s + w) }) :=
  exec_done (i := .bsget w) nofun ((firstFailed_after_width hw _).trans
    ((firstFailed_after_range hrange _).trans (firstFailed_within hread _)))

/-- Settles O44: the checks in order, then the number read and the cursor. -/
theorem bsgetRule : Obligations.BsgetRule := by
  intro s w base len rd hbase hlen hrd
  obtain rfl : base = streamBase s := hbase
  obtain rfl : len = streamLen s := hlen
  obtain rfl : rd = streamCursor s := hrd
  refine ⟨fun _ hopc hreserved => runCommand_of_reserved .bsget hopc hreserved s,
    fun hw => runCommand_encode (i := .bsget w) (decide_eq_true hw) s,
    fun hw => exec_bsget_failed (firstFailed_wide hw _), fun hw hrange => exec_bsget_failed ?range,
    fun hw hrange hshort => exec_bsget_failed ?underrun,
    fun hw hrange hread => ⟨_, exec_bsget hw hrange hread, ?below, fun j hj => ?bit⟩⟩
  case range => exact (firstFailed_after_width hw _).trans (firstFailed_range hrange _)
  case underrun =>
    exact (firstFailed_after_width hw _).trans
      ((firstFailed_after_range hrange _).trans (firstFailed_past hshort _))
  case below => exact (Nat.mod_le _ _).trans_lt (Registers.takeBits_lt s w _)
  case bit =>
    obtain ⟨-, hbits⟩ := takeBits_spec s w (streamCursor s) 0
    rw [BitVec.getLsbD_ofNat, hbits j hj, decide_eq_true (by omega), Bool.true_and]

/-! ### A list of appends (R155) -/

/-- The bits that appends of these widths and values put into the stream. -/
def valueBits (vals : List (Nat × Word)) : List Bool := vals.flatMap fun p => msbFirst p.2.toNat p.1

@[simp] theorem valueBits_nil : valueBits [] = [] := rfl

@[simp] theorem valueBits_cons (w : Nat) (v : Word) (rest : List (Nat × Word)) :
    valueBits ((w, v) :: rest) = msbFirst v.toNat w ++ valueBits rest := rfl

/-- A successful append passes its checks, and the rest go on from its state. -/
theorem appendAll_cons {w : Nat} {v : Word} {rest : List (Nat × Word)} {s u : State}
    (h : appendAll ((w, v) :: rest) s = some u) :
    w ≤ 32 ∧ v.toNat < 2 ^ w ∧ streamBase s + (streamCap s + 7) / 8 ≤ 16384 ∧
      streamLen s + w ≤ streamCap s ∧
      appendAll rest (done (putBits (msbFirst v.toNat w) { s with a := v })) = some u := by
  obtain ⟨t, ht⟩ := exec_next (.bsappend w) { s with a := v }
  simp only [appendAll, ht] at h
  rcases exec_cases ht with ⟨hswrst, -⟩ | ⟨-, e, he, rfl⟩ | ⟨-, hchecks, rfl⟩
  case inl => exact absurd hswrst nofun
  case inr.inl =>
    have hne : e ≠ .ok := fun hok => checksOf_ne_ok _ _ _ (hok ▸ he)
    simp [hne] at h
  case inr.inr =>
    simp only [finish_errcode, if_true] at h
    obtain ⟨hw, hv, hbase, hcap⟩ := bsappend_bounds hchecks
    exact ⟨hw, hv, hbase, hcap, h⟩

/-- PutBits does not read the registers in which appends of other values may differ. -/
theorem putBits_update (bits : List Bool) (s : State) (x : Word) (e : ErrCode) (c : Word) :
    putBits bits { s with a := x, errcode := e, cmdcnt := c } =
      { putBits bits s with a := x, errcode := e, cmdcnt := c } := by
  induction bits generalizing s with
  | nil => rfl
  | cons b bits ih => exact ih (putBit b s)

/-- Successful appends leave what one run of PutBits of all their bits leaves, but for A and the common ends. -/
theorem appendAll_eq {vals : List (Nat × Word)} {s u : State} (h : appendAll vals s = some u) :
    ∃ x e c, u = { putBits (valueBits vals) s with a := x, errcode := e, cmdcnt := c } := by
  induction vals generalizing s with
  | nil =>
    obtain rfl : s = u := Option.some.inj h
    exact ⟨s.a, s.errcode, s.cmdcnt, rfl⟩
  | cons p rest ih =>
    obtain ⟨w, v⟩ := p
    obtain ⟨-, -, -, -, hrest⟩ := appendAll_cons h
    obtain ⟨x, e, c, rfl⟩ := ih hrest
    have hfirst := putBits_update (msbFirst v.toNat w) s v s.errcode s.cmdcnt
    refine ⟨x, e, c, ?_⟩
    rw [valueBits_cons, putBits_append, hfirst]
    simp only [done, putBits_update]

/-- Every value appended fits its width, and the appends end within the capacity. -/
theorem appendAll_bounds {vals : List (Nat × Word)} {s u : State} (h : appendAll vals s = some u)
    (hcap : streamLen s ≤ streamCap s) :
    (∀ p ∈ vals, p.1 ≤ 32 ∧ p.2.toNat < 2 ^ p.1) ∧
      streamLen s + (valueBits vals).length ≤ streamCap s := by
  induction vals generalizing s with
  | nil => exact ⟨nofun, hcap⟩
  | cons p rest ih =>
    obtain ⟨w, v⟩ := p
    obtain ⟨hw, hv, -, hfits, hrest⟩ := appendAll_cons h
    have hfits32 : streamLen s + (msbFirst v.toNat w).length < 2 ^ 32 := by
      rw [msbFirst_length]
      exact hfits.trans_lt s.bscap.isLt
    have hlen := streamLen_putBits (msbFirst v.toNat w) { s with a := v } hfits32
    have hcap' := streamCap_putBits (msbFirst v.toNat w) { s with a := v }
    rw [msbFirst_length] at hlen
    obtain ⟨hvals, hend⟩ := ih hrest (hlen.trans_le hfits |>.trans_eq hcap'.symm)
    refine ⟨List.forall_mem_cons.mpr ⟨⟨hw, hv⟩, hvals⟩, ?_⟩
    rw [valueBits_cons, List.length_append, msbFirst_length, ← Nat.add_assoc]
    exact hlen ▸ hcap' ▸ hend

/-- BSGET of the widths returns the values whose bits stand in the stream from the cursor on (R159). -/
theorem getAll_of_streamBits {vals : List (Nat × Word)} {s : State} {k : Nat} (hk : streamCursor s = k)
    (hvals : ∀ p ∈ vals, p.1 ≤ 32 ∧ p.2.toNat < 2 ^ p.1)
    (hrange : streamBase s + (streamLen s + 7) / 8 ≤ 16384)
    (hread : k + (valueBits vals).length ≤ streamLen s)
    (hbits : streamBits s k (valueBits vals).length = valueBits vals) :
    getAll (vals.map Prod.fst) s = some (vals.map Prod.snd) := by
  induction vals generalizing s k with
  | nil => rfl
  | cons p rest ih =>
    obtain ⟨w, v⟩ := p
    obtain ⟨⟨hw, hv⟩, hrest⟩ := List.forall_mem_cons.mp hvals
    rw [valueBits_cons, List.length_append, msbFirst_length] at hread hbits
    rw [streamBits_add] at hbits
    obtain ⟨hfirst, hnext⟩ := List.append_inj hbits (by simp)
    have hvalue : takeBits s w k 0 = v.toNat :=
      msbFirst_inj (Registers.takeBits_lt s w k) hv ((msbFirst_takeBits s w k).trans hfirst)
    have hcursor : (BitVec.ofNat 32 (k + w)).toNat = k + w :=
      Nat.mod_eq_of_lt ((by omega : k + w ≤ streamLen s).trans_lt s.bslen.isLt)
    have hget := exec_bsget hw hrange (by omega)
    rw [hk, hvalue, BitVec.ofNat_toNat, BitVec.setWidth_eq] at hget
    have hread' : k + w + (valueBits rest).length ≤ streamLen s := by omega
    have htail := ih (s := done { s with result := v, bsrd := BitVec.ofNat 32 (k + w) }) hcursor hrest hrange
      hread' hnext
    simp only [List.map_cons, getAll, hget, htail]
    rfl

/-- The appends put the bits of the values into an empty stream from bit 0 on, where BSGET reads them. -/
theorem getAll_of_appendAll {vals : List (Nat × Word)} {t u : State} (hempty : streamLen t = 0)
    (hrewound : streamCursor t = 0) (h : appendAll vals t = some u) :
    getAll (vals.map Prod.fst) u = some (vals.map Prod.snd) := by
  obtain ⟨hvals, hcap⟩ := appendAll_bounds h (hempty ▸ Nat.zero_le _)
  have hfits : streamLen t + (valueBits vals).length < 2 ^ 32 := hcap.trans_lt t.bscap.isLt
  have hlen := streamLen_putBits (valueBits vals) t hfits
  have hbits := streamBits_putBits hfits
  have hcursor : streamCursor (putBits (valueBits vals) t) = 0 :=
    (congrArg BitVec.toNat (Registers.putBits_bsrd (valueBits vals) t)).trans hrewound
  rw [hempty, Nat.zero_add] at hlen hcap
  rw [hempty] at hbits
  obtain ⟨x, e, c, rfl⟩ := appendAll_eq h
  cases vals with
  | nil => rfl
  | cons p rest =>
    obtain ⟨-, -, hregion, -⟩ := appendAll_cons h
    have hrange : streamBase (putBits (valueBits (p :: rest)) t) +
        (streamLen (putBits (valueBits (p :: rest)) t) + 7) / 8 ≤ 16384 := by
      rw [streamBase_putBits, hlen]
      omega
    exact getAll_of_streamBits hcursor hvals hrange (Nat.zero_add _ ▸ hlen.ge) hbits

/-- Settles O45: BSRESET empties the stream and rewinds the cursor. -/
theorem streamReadsBackWhatWasAppended : Obligations.StreamReadsBackWhatWasAppended := by
  intro vals s t u hreset happend
  obtain rfl := Host.Outcome.next.inj hreset
  exact getAll_of_appendAll rfl rfl happend

/-- Settles O46: the bits of the concatenated value are those of the two values. -/
theorem appendsConcatenate : Obligations.AppendsConcatenate := by
  intro s t u w₁ w₂ v₁ v₂ hw htwo hone
  obtain ⟨-, hv₁, -, -, hsecond⟩ := appendAll_cons htwo
  obtain ⟨-, hv₂, -, -, -⟩ := appendAll_cons hsecond
  have hconcat : v₁.toNat * 2 ^ w₂ + v₂.toNat < 2 ^ (w₁ + w₂) :=
    calc v₁.toNat * 2 ^ w₂ + v₂.toNat < v₁.toNat * 2 ^ w₂ + 2 ^ w₂ := Nat.add_lt_add_left hv₂ _
      _ = (v₁.toNat + 1) * 2 ^ w₂ := (Nat.succ_mul _ _).symm
      _ ≤ 2 ^ w₁ * 2 ^ w₂ := Nat.mul_le_mul_right _ hv₁
      _ = 2 ^ (w₁ + w₂) := (Nat.pow_add 2 w₁ w₂).symm
  have hvalue : (BitVec.ofNat 32 (v₁.toNat * 2 ^ w₂ + v₂.toNat)).toNat = v₁.toNat * 2 ^ w₂ + v₂.toNat :=
    Nat.mod_eq_of_lt (hconcat.trans_le (Nat.pow_le_pow_right (by decide) hw))
  have hbits : valueBits [(w₁ + w₂, BitVec.ofNat 32 (v₁.toNat * 2 ^ w₂ + v₂.toNat))] =
      valueBits [(w₁, v₁), (w₂, v₂)] := by
    simp only [valueBits_cons, valueBits_nil, List.append_nil, hvalue, msbFirst_concat _ _ hv₂]
  obtain ⟨x, e, c, rfl⟩ := appendAll_eq htwo
  obtain ⟨x', e', c', rfl⟩ := appendAll_eq hone
  rw [hbits]
  exact ⟨rfl, fun _ => rfl⟩

end Sys2Proof.StreamCommands
end

section
/-! SUPPORT. The proofs of the statements on the ECC block coder (43_eccblock): the geometry of the blocks, the bytes
of a slot and of the work area, the output as rows of one byte per block, and the command. -/

namespace Sys2Proof.EccBlocks
open Sys2Proof Sys2Proof.Machine Sys2Proof.Spec Sys2Proof.CommandWords Sys2Proof.PolyCommands

/-! ### Geometry (R171) -/

theorem shortCount_pos {k : Nat} (t : Nat) (hk : 1 ≤ k) : 1 ≤ shortCount k t :=
  Nat.sub_pos_of_lt (Nat.mod_lt t hk)

theorem shortCount_add_mod {k : Nat} (t : Nat) (hk : 1 ≤ k) : shortCount k t + t % k = k :=
  Nat.sub_add_cancel (Nat.mod_lt t hk).le

theorem blockData_of_long {k e t b : Nat} (h : shortCount k t ≤ b) : blockData k e t b = t / k - e + 1 :=
  if_neg (Nat.not_lt.mpr h)

/-- Every block has Ks data codewords. -/
theorem le_blockData (k e t b : Nat) : t / k - e ≤ blockData k e t b := by
  rw [blockData, shortLen]
  split <;> omega

theorem blockStart_zero (k e t : Nat) : blockStart k e t 0 = 0 := by
  rw [blockStart, Nat.zero_mul, Nat.zero_sub]

theorem blockStart_succ (k e t b : Nat) : blockStart k e t (b + 1) = blockStart k e t b + blockData k e t b := by
  simp only [blockStart, blockData, Nat.succ_mul]
  split <;> omega

/-- The data codewords in all: Ks of every block and one more of each long block. -/
theorem dataTotal_eq {k e t : Nat} (he : e < t / k) : dataTotal k e t = (t / k - e) * k + t % k := by
  have htotal : t / k * k + t % k = t := Nat.div_add_mod' t k
  have hecc : e * k ≤ t / k * k := Nat.mul_le_mul_right k he.le
  rw [dataTotal, Nat.sub_mul, Nat.mul_comm k e]
  omega

theorem blockStart_blocks {k e t : Nat} (hk : 1 ≤ k) (he : e < t / k) : blockStart k e t k = dataTotal k e t := by
  have hcount := shortCount_add_mod t hk
  rw [dataTotal_eq he, blockStart, shortLen, Nat.mul_comm]
  omega

theorem dataTotal_add_ecc {k e t : Nat} (he : e < t / k) : dataTotal k e t + k * e = t := by
  refine Nat.sub_add_cancel ?_
  calc k * e ≤ k * (t / k) := Nat.mul_le_mul_left k he.le
    _ ≤ t := Nat.mul_div_le t k

/-- Settles O49: a block's start counts the data codewords of the blocks before it. -/
theorem blockGeometry : Obligations.BlockGeometry := fun k e t hk he =>
  ⟨blockStart_zero k e t, fun b _ => blockStart_succ k e t b, blockStart_blocks hk he, dataTotal_add_ecc he,
    shortCount_pos t hk, Nat.sub_le k _⟩

/-! ### Reading parts of a list -/

theorem getD_take_drop {α : Type} (l : List α) (d : α) (a : Nat) {n i : Nat} (hi : i < n) :
    ((l.drop a).take n).getD i d = l.getD (a + i) d := by
  rw [List.getD_eq_getElem?_getD, List.getElem?_take_of_lt hi, List.getElem?_drop, List.getD_eq_getElem?_getD]

/-- Element i of chunk b, in a list of chunks of c elements each. -/
theorem getD_flatMap_chunk {α β : Type} {f : α → List β} {c : Nat} {l : List α} (h : ∀ a ∈ l, (f a).length = c)
    {b i : Nat} (hb : b < l.length) (hi : i < c) (d : β) : (l.flatMap f).getD (b * c + i) d = (f l[b]).getD i d := by
  rw [← getD_take_drop _ d (b * c) hi, take_drop_flatMap f c l h b hb]

theorem getD_map_range {α : Type} (f : Nat → α) {n i : Nat} (hi : i < n) (d : α) :
    ((List.range n).map f).getD i d = f i := by
  rw [List.getD_eq_getElem _ d (by simpa using hi), List.getElem_map, List.getElem_range]

/-! ### The bytes of a slot (R172) -/

/-- A slot without its ECC codewords: a block's data and, in a short block, the padding byte. -/
def slotData (k e t : Nat) (src : List Byte) (b : Nat) : List Byte :=
  blockBytes k e t src b ++ if b < shortCount k t then [0] else []

theorem blockSlot_bytes (k e t : Nat) (src : List Byte) (b : Nat) :
    (blockSlot k e t src b).bytes = slotData k e t src b ++ rsenc (blockBytes k e t src b) e := by
  unfold blockSlot slotData
  split <;> simp

section
variable {k e t : Nat} {src : List Byte}

/-- With the padding byte, the ECC codewords stand at the same offset in every slot. -/
theorem length_slotData (hk : 1 ≤ k) (he : e < t / k) (hsrc : src.length = dataTotal k e t) {b : Nat} (hb : b < k) :
    (slotData k e t src b).length = t / k - e + 1 := by
  rw [slotData, List.length_append, length_blockBytes k e t b src hk he hb hsrc, blockData, shortLen]
  split <;> rfl

theorem slot_data {b j : Nat} (hk : 1 ≤ k) (he : e < t / k) (hsrc : src.length = dataTotal k e t) (hb : b < k)
    (hj : j < blockData k e t b) :
    (blockSlot k e t src b).bytes.getD j 0 = src.getD (blockStart k e t b + j) 0 := by
  have hlength : j < (blockBytes k e t src b).length := by rwa [length_blockBytes k e t b src hk he hb hsrc]
  rw [blockSlot_bytes, slotData, List.append_assoc, List.getD_append _ _ _ _ hlength, blockBytes,
    getD_take_drop _ _ _ hj]

theorem slot_ecc {b : Nat} (hk : 1 ≤ k) (he : e < t / k) (hsrc : src.length = dataTotal k e t) (hb : b < k)
    (j : Nat) :
    (blockSlot k e t src b).bytes.getD (t / k - e + 1 + j) 0 = (rsenc (blockBytes k e t src b) e).getD j 0 := by
  have hlength := length_slotData hk he hsrc hb
  rw [blockSlot_bytes, List.getD_append_right _ _ _ _ (by omega), hlength, Nat.add_sub_cancel_left]

/-! ### The work area (R172, R173) -/

/-- A work area holds the model's slots one after the other. -/
theorem workArea_iff {w : List Byte} :
    WorkArea k e t src w ↔ w.length = k * (t / k + 1) ∧
      ∀ b, b < k → (w.drop (b * (t / k + 1))).take (t / k + 1) = (blockSlot k e t src b).bytes := by
  refine and_congr_right fun _ => forall₂_congr fun b _ => ?_
  rw [blockSlot_bytes, slotData]
  simp only [decide_eq_true_eq]
  rfl

theorem workArea_workBytes (hk : 1 ≤ k) (h30 : e ≤ 30) (he : e < t / k) (hsrc : src.length = dataTotal k e t) :
    WorkArea k e t src (workBytes (eccSlots k e t src)) := by
  refine workArea_iff.mpr ⟨length_workBytes k e t src hk h30 he hsrc, fun b hb => ?_⟩
  have hlength : ∀ a ∈ List.range k, (blockSlot k e t src a).bytes.length = t / k + 1 := fun a ha =>
    length_blockSlot k e t a src hk h30 he (List.mem_range.mp ha) hsrc
  have hslot := take_drop_flatMap (fun a => (blockSlot k e t src a).bytes) _ _ hlength b (by simpa using hb)
  rw [workBytes, eccSlots, List.flatMap_map, hslot, List.getElem_range]

/-- The emission loop over a work area emits the model's output. -/
theorem wireOrder_eq_interleave {w : List Byte} (hw : WorkArea k e t src w) :
    wireOrder k e t w = interleave (shortLen k t) e (eccSlots k e t src) := by
  obtain ⟨-, hslots⟩ := workArea_iff.mp hw
  refine List.flatMap_congr fun i hi => ?_
  rw [eccSlots, emitAt_map]
  refine List.flatMap_congr fun b hb => ?_
  rw [← hslots b (List.mem_range.mp hb), getD_take_drop _ _ _ (List.mem_range.mp hi)]
  rfl

/-! ### The output, row by row (R174, R175) -/

/-- Byte i of every slot, in block order. -/
def slotRow (k e t : Nat) (src : List Byte) (i : Nat) : List Byte :=
  (List.range k).map fun b => (blockSlot k e t src b).bytes.getD i 0

/-- The last data codeword of every long block, in block order. -/
def longRow (k e t : Nat) (src : List Byte) : List Byte :=
  (List.range (t % k)).map fun m => (blockSlot k e t src (shortCount k t + m)).bytes.getD (t / k - e) 0

theorem emitAt_eq_slotRow {pad i : Nat} (hi : i ≠ pad) : emitAt pad i (eccSlots k e t src) = slotRow k e t src i := by
  rw [eccSlots, emitAt_map, slotRow, List.map_eq_flatMap]
  exact List.flatMap_congr fun b _ => if_neg fun h => hi h.2

/-- At the padding index the short blocks, which come first, emit nothing. -/
theorem emitAt_eq_longRow (hk : 1 ≤ k) :
    emitAt (t / k - e) (t / k - e) (eccSlots k e t src) = longRow k e t src := by
  have hblocks : List.range k = List.range (shortCount k t) ++ (List.range (t % k)).map (shortCount k t + ·) := by
    rw [← List.range_add, shortCount_add_mod t hk]
  rw [eccSlots, emitAt_map, hblocks, List.flatMap_append, List.flatMap_map, longRow, List.map_eq_flatMap]
  refine congrArg₂ (x' := []) (· ++ ·) ?_ ?_
  · exact List.flatMap_eq_nil_iff.mpr fun b hb => if_pos ⟨List.mem_range.mp hb, rfl⟩
  · exact List.flatMap_congr fun m _ => if_neg fun h => absurd h.1 (Nat.not_lt.mpr (Nat.le_add_right _ m))

/-- The rows of the data, the row of the long blocks and the rows of the ECC codewords. -/
theorem interleave_eq_rows (hk : 1 ≤ k) (he : e < t / k) :
    interleave (shortLen k t) e (eccSlots k e t src) =
      (List.range (t / k - e)).flatMap (slotRow k e t src) ++ longRow k e t src ++
        (List.range e).flatMap (fun j => slotRow k e t src (t / k - e + 1 + j)) := by
  have hcount : shortLen k t + 1 = t / k - e + 1 + e := by
    rw [shortLen]
    omega
  rw [interleave, hcount, List.range_add, List.range_succ, List.flatMap_append, List.flatMap_append,
    List.flatMap_singleton, List.flatMap_map]
  congr 1
  · congr 1
    · exact List.flatMap_congr fun i hi => emitAt_eq_slotRow (List.mem_range.mp hi).ne
    · exact emitAt_eq_longRow hk
  · exact List.flatMap_congr fun j _ => emitAt_eq_slotRow (by rw [shortLen]; omega)

theorem length_slotRow (i : Nat) : (slotRow k e t src i).length = k := by simp [slotRow]

/-- Byte b of row j, in a sequence of rows. -/
theorem getD_rows {f : Nat → Nat} {n b j : Nat} (hb : b < k) (hj : j < n) :
    ((List.range n).flatMap fun i => slotRow k e t src (f i)).getD (j * k + b) 0 =
      (blockSlot k e t src b).bytes.getD (f j) 0 := by
  rw [getD_flatMap_chunk (fun i _ => length_slotRow (f i)) (by simpa using hj) hb, List.getElem_range, slotRow,
    getD_map_range _ hb]

theorem length_dataRows (n : Nat) : ((List.range n).flatMap (slotRow k e t src)).length = n * k := by
  rw [length_flatMap_const _ _ k fun i _ => length_slotRow i, List.length_range]

theorem length_longRow : (longRow k e t src).length = t % k := by simp [longRow]

theorem interleave_data {b j : Nat} (hk : 1 ≤ k) (he : e < t / k) (hsrc : src.length = dataTotal k e t) (hb : b < k)
    (hj : j < t / k - e) :
    (interleave (shortLen k t) e (eccSlots k e t src)).getD (j * k + b) 0 =
      src.getD (blockStart k e t b + j) 0 := by
  have hbefore : j * k + b < ((List.range (t / k - e)).flatMap (slotRow k e t src)).length :=
    calc j * k + b < (j + 1) * k := by rw [Nat.succ_mul]; omega
      _ ≤ (t / k - e) * k := Nat.mul_le_mul_right k hj
      _ = _ := (length_dataRows _).symm
  rw [interleave_eq_rows hk he, List.append_assoc, List.getD_append _ _ _ _ hbefore]
  exact (getD_rows (f := id) hb hj).trans (slot_data hk he hsrc hb (hj.trans_le (le_blockData k e t b)))

theorem interleave_long {m : Nat} (hk : 1 ≤ k) (he : e < t / k) (hsrc : src.length = dataTotal k e t)
    (hm : m < t % k) :
    (interleave (shortLen k t) e (eccSlots k e t src)).getD ((t / k - e) * k + m) 0 =
      src.getD (blockStart k e t (shortCount k t + m) + (t / k - e)) 0 := by
  have hcount := shortCount_add_mod t hk
  have hdata : t / k - e < blockData k e t (shortCount k t + m) := by
    rw [blockData_of_long (Nat.le_add_right _ m)]
    exact Nat.lt_succ_self _
  rw [interleave_eq_rows hk he, List.append_assoc,
    List.getD_append_right _ _ _ _ (by rw [length_dataRows]; exact Nat.le_add_right _ _), length_dataRows,
    Nat.add_sub_cancel_left, List.getD_append _ _ _ _ (by rwa [length_longRow]), longRow, getD_map_range _ hm,
    slot_data hk he hsrc (by omega) hdata]

theorem interleave_ecc {b j : Nat} (hk : 1 ≤ k) (he : e < t / k) (hsrc : src.length = dataTotal k e t) (hb : b < k)
    (hj : j < e) :
    (interleave (shortLen k t) e (eccSlots k e t src)).getD (dataTotal k e t + (j * k + b)) 0 =
      (rsenc (blockBytes k e t src b) e).getD j 0 := by
  have hbefore : ((List.range (t / k - e)).flatMap (slotRow k e t src) ++ longRow k e t src).length =
      dataTotal k e t := by
    rw [List.length_append, length_dataRows, length_longRow, dataTotal_eq he]
  rw [interleave_eq_rows hk he, List.getD_append_right _ _ _ _ (by rw [hbefore]; exact Nat.le_add_right _ _), hbefore,
    Nat.add_sub_cancel_left, getD_rows hb hj, slot_ecc hk he hsrc hb]

end

/-- Settles O48: the output is the rows, and byte b of a row is that of block b's slot. -/
theorem eccOutputOrder : Obligations.EccOutputOrder := by
  intro k e t src w hk h30 he hsrc hw
  rw [wireOrder_eq_interleave hw]
  refine ⟨Regions.length_interleave_eccSlots k e t src hk, fun b j hb hj => interleave_data hk he hsrc hb hj,
    fun b hlong hb => ?long, fun b j hb hj => ?ecc⟩
  case long =>
    obtain ⟨m, rfl⟩ := Nat.exists_eq_add_of_le hlong
    have hm : m < t % k := Nat.lt_of_add_lt_add_left (hb.trans_eq (shortCount_add_mod t hk).symm)
    rw [Nat.add_sub_cancel_left]
    exact interleave_long hk he hsrc hm
  case ecc =>
    rw [Nat.add_assoc]
    exact interleave_ecc hk he hsrc hb hj

/-! ### The command (R173) -/

/-- The three checks of the block count, of E and of S, which share one error, when one fails. -/
theorem firstFailed_eccblk_badarg {k e : Nat} {s : State} (h : k = 0 ∨ 30 < e ∨ s.b.toNat / k ≤ e) :
    firstFailed (checksOf (.eccblk k e) s) = some .badarg := by
  by_cases hk : 1 ≤ k
  case neg => exact firstFailed_of_false (decide_eq_false hk)
  refine (firstFailed_of_true (decide_eq_true hk)).trans ?_
  by_cases h30 : e ≤ 30
  case neg => exact firstFailed_degree (Nat.not_le.mp h30) _
  refine (firstFailed_after_degree h30 _).trans (firstFailed_of_false (decide_eq_false ?_))
  change ¬ e < s.b.toNat / k
  omega

/-- When they hold, the check of the three regions is left. -/
theorem firstFailed_eccblk {k e : Nat} {s : State} (hk : 1 ≤ k) (h30 : e ≤ 30) (he : e < s.b.toNat / k) :
    firstFailed (checksOf (.eccblk k e) s) =
      firstFailed [(inBuf (eccSource s) (dataTotal k e (eccTotal s)) &&
        inBuf (eccWork s) (k * (shortLen k (eccTotal s) + 1)) && inBuf (eccOut s) (eccTotal s), .range)] :=
  (firstFailed_of_true (decide_eq_true hk)).trans
    ((firstFailed_after_degree h30 _).trans (firstFailed_of_true (decide_eq_true he)))

/-- The region check, as arithmetic. -/
theorem eccblkRegions_iff (k e : Nat) (s : State) :
    (inBuf (eccSource s) (dataTotal k e (eccTotal s)) && inBuf (eccWork s) (k * (shortLen k (eccTotal s) + 1)) &&
        inBuf (eccOut s) (eccTotal s)) = true ↔
      s.a.toNat + (s.b.toNat - k * e) ≤ 16384 ∧ s.c.toNat + k * (s.b.toNat / k + 1) ≤ 16384 ∧
        s.d.toNat + s.b.toNat ≤ 16384 := by
  rw [Bool.and_eq_true, Bool.and_eq_true, inBuf_eq_true, inBuf_eq_true, inBuf_eq_true, and_assoc]
  rfl

/-- Two writes of BUF, one after the other: the second stands whole, the first where the second is not (R80). -/
theorem memWrite_memWrite (s : State) {addr addr' n n' : Nat} {bytes bytes' : List Byte} (hn : bytes.length = n)
    (hn' : bytes'.length = n') :
    ∃ m, memWrite addr' bytes' (memWrite addr bytes s) = { s with buf := m } ∧
      memRead { s with buf := m } addr' n' = bytes' ∧
      (∀ i, i < n → addr + i < addr' ∨ addr' + n' ≤ addr + i →
        bufByte { s with buf := m } (addr + i) = bytes.getD i 0) ∧
      ∀ i, i < addr ∨ addr + n ≤ i → i < addr' ∨ addr' + n' ≤ i →
        bufByte { s with buf := m } i = bufByte s i := by
  subst hn hn'
  refine ⟨Memory.storeBytes (Memory.storeBytes s.buf addr bytes) addr' bytes', rfl,
    memRead_storeBytes s _ addr' bytes', fun i hi hout => ?_, fun i hfirst hsecond => ?_⟩
  · rw [bufByte_storeBytes_out s _ _ _ _ hout, bufByte_storeBytes_in s _ _ _ _ hi, List.getD_eq_getElem _ _ hi]
  · rw [bufByte_storeBytes_out s _ _ _ _ hsecond, bufByte_storeBytes_out s _ _ _ _ hfirst]

/-- Settles O47: the checks in order, then the work area and the output of the slots. -/
theorem eccblkRule : Obligations.EccblkRule := by
  rintro s k e t rfl
  refine ⟨fun _ hopc hreserved => runCommand_of_reserved .eccblk hopc hreserved s,
    fun hk he => runCommand_encode (i := .eccblk k e)
      (Bool.and_eq_true_iff.mpr ⟨decide_eq_true hk, decide_eq_true he⟩) s,
    fun hbad => exec_failed (i := .eccblk k e) nofun (firstFailed_eccblk_badarg hbad),
    fun hk h30 he hout => exec_failed (i := .eccblk k e) nofun ?range,
    fun hk h30 he hsource hwork hout => ?done⟩
  case range =>
    refine (firstFailed_eccblk hk h30 he).trans (firstFailed_of_false (Bool.eq_false_iff.mpr fun hregions => ?_))
    have hinside := (eccblkRegions_iff k e s).mp hregions
    omega
  case done =>
    have hchecks := (firstFailed_eccblk hk h30 he).trans
      (firstFailed_of_true ((eccblkRegions_iff k e s).mpr ⟨hsource, hwork, hout⟩))
    obtain ⟨hworkLen, houtLen⟩ := Regions.eccblk_lengths hchecks
    have harea := workArea_workBytes hk h30 he (memRead_length s s.a.toNat (s.b.toNat - k * e))
    obtain ⟨m, hwrites, houtput, hkept, hframe⟩ :=
      memWrite_memWrite s (addr := eccWork s) (addr' := eccOut s) hworkLen houtLen
    refine ⟨m, _, ?_, harea, houtput.trans (wireOrder_eq_interleave harea).symm, hkept, hframe⟩
    rw [exec_done (i := .eccblk k e) nofun hchecks, Regions.effectOf_eccblk, hwrites]
    rfl

end Sys2Proof.EccBlocks
end

section
/-! SUPPORT. A matrix of side n as a function of row and column, and sums over its lines and its modules (R192): what
the proofs on the four penalty rules read a matrix through. -/

namespace Sys2Proof.Modules
open Sys2Proof Sys2Proof.Machine Sys2Proof.Spec

/-! ### Sums over positions -/

theorem sum_map_range (f : Nat → Nat) (n : Nat) : ((List.range n).map f).sum = ∑ i ∈ Finset.range n, f i := rfl

theorem countP_range (p : Nat → Bool) (n : Nat) :
    (List.range n).countP p = ∑ i ∈ Finset.range n, if p i then 1 else 0 := by
  rw [← sum_map_range]
  induction List.range n with
  | nil => rfl
  | cons i l ih => rw [List.countP_cons, ih, List.map_cons, List.sum_cons, Nat.add_comm]

/-! ### A matrix as a function of row and column (R192) -/

/-- The matrix of side n with module `f r c` in row r and column c: `scoredMatrix` and `matrixColumns` unfold to it. -/
def matrixOf (n : Nat) (f : Nat → Nat → Bool) : List (List Bool) :=
  (List.range n).map fun r => (List.range n).map (f r)

theorem matrixOf_square (n : Nat) (f : Nat → Nat → Bool) : Square n (matrixOf n f) := by
  refine ⟨by rw [matrixOf, List.length_map, List.length_range], List.forall_mem_map.mpr fun r _ => ?_⟩
  rw [List.length_map, List.length_range]

theorem moduleAt_matrixOf (f : Nat → Nat → Bool) {n r c : Nat} (hr : r < n) (hc : c < n) :
    moduleAt (matrixOf n f) r c = f r c := by
  rw [moduleAt, matrixOf, EccBlocks.getD_map_range _ hr, EccBlocks.getD_map_range _ hc]

theorem matrixOf_congr {n : Nat} {f g : Nat → Nat → Bool} (h : ∀ r < n, ∀ c < n, f r c = g r c) :
    matrixOf n f = matrixOf n g :=
  List.map_congr_left fun r hr => List.map_congr_left fun c hc =>
    h r (List.mem_range.mp hr) c (List.mem_range.mp hc)

/-- A sequence is its elements in turn. -/
theorem map_getD_range {α : Type} (l : List α) (d : α) : (List.range l.length).map (l.getD · d) = l :=
  List.ext_getElem (by simp) fun i _ hi => by simp [List.getElem?_eq_getElem hi]

/-- A square matrix is the function of its modules. -/
theorem matrixOf_moduleAt {n : Nat} {m : List (List Bool)} (hm : Square n m) : matrixOf n (moduleAt m) = m := by
  obtain ⟨rfl, hcols⟩ := hm
  calc matrixOf m.length (moduleAt m) = (List.range m.length).map (m.getD · []) :=
        List.map_congr_left fun r hr => by
          have hr := List.mem_range.mp hr
          have hrow := map_getD_range m[r] false
          rw [hcols _ (List.getElem_mem hr)] at hrow
          rwa [← List.getD_eq_getElem m [] hr] at hrow
    _ = m := map_getD_range m []

/-! ### Sums over the lines and over the modules -/

/-- What a rule on lines scores over the 2n lines (R192). -/
theorem sum_matrixLines (score : List Bool → Nat) {n : Nat} {m : List (List Bool)} (hm : Square n m) :
    ((matrixLines n m).map score).sum =
      ∑ r ∈ Finset.range n, score ((List.range n).map fun c => moduleAt m r c) +
        ∑ c ∈ Finset.range n, score ((List.range n).map fun r => moduleAt m r c) := by
  have hrows : (m.map score).sum = ((matrixOf n (moduleAt m)).map score).sum := by rw [matrixOf_moduleAt hm]
  rw [matrixLines, List.map_append, List.sum_append, hrows, matrixOf, matrixColumns, List.map_map, List.map_map]
  rfl

theorem darkCount_eq_sum {n : Nat} {m : List (List Bool)} (hm : Square n m) :
    darkCount m = ∑ r ∈ Finset.range n, ∑ c ∈ Finset.range n, if moduleAt m r c then 1 else 0 := by
  have hcount (r : Nat) : ((List.range n).map (moduleAt m r)).count true =
      ∑ c ∈ Finset.range n, if moduleAt m r c then 1 else 0 := by
    rw [← countP_range, List.count, List.countP_map]
    exact List.countP_congr fun c _ => by simp
  calc darkCount m = darkCount (matrixOf n (moduleAt m)) := by rw [matrixOf_moduleAt hm]
    _ = _ := by
      rw [darkCount, matrixOf, List.map_map, sum_map_range]
      exact Finset.sum_congr rfl fun r _ => hcount r

theorem penalty2_eq_sum (n : Nat) (m : List (List Bool)) :
    penalty2 n m =
      3 * ∑ r ∈ Finset.range (n - 1), ∑ c ∈ Finset.range (n - 1), if uniformBlock m r c then 1 else 0 := by
  rw [penalty2, sum_map_range]
  simp only [countP_range]

end Sys2Proof.Modules
end

section
/-! SUPPORT. The proofs of the statements on the four penalty rules (44_penalty section 2), each read position by
position. -/

namespace Sys2Proof.PenaltyRules
open Sys2Proof Sys2Proof.Machine Sys2Proof.Spec Sys2Proof.Modules

/-! ### Rule 1: maximal runs (R193) -/

theorem lineOfRuns_cons (r : Bool × Nat) (rs : List (Bool × Nat)) :
    lineOfRuns (r :: rs) = List.replicate r.2 r.1 ++ lineOfRuns rs := rfl

theorem maximalRuns_pos {r : Bool × Nat} {rs : List (Bool × Nat)} (h : MaximalRuns (r :: rs)) : 0 < r.2 := by
  cases rs with
  | nil => exact h
  | cons q rs => exact h.1

theorem maximalRuns_tail {r : Bool × Nat} {rs : List (Bool × Nat)} (h : MaximalRuns (r :: rs)) : MaximalRuns rs := by
  cases rs with
  | nil => trivial
  | cons q rs =>
    obtain ⟨-, -, hrest⟩ := h
    exact hrest

theorem maximalRuns_lengthen {x : Bool} {k : Nat} {rs : List (Bool × Nat)} (h : MaximalRuns ((x, k) :: rs)) :
    MaximalRuns ((x, k + 1) :: rs) := by
  cases rs with
  | nil => exact Nat.succ_pos k
  | cons q rs => exact ⟨Nat.succ_pos k, h.2⟩

/-- A module in front of a line lengthens the first run or is a run of its own. -/
theorem exists_maximalRuns (l : List Bool) : ∃ rs, MaximalRuns rs ∧ lineOfRuns rs = l := by
  induction l with
  | nil => exact ⟨[], trivial, rfl⟩
  | cons x l ih =>
    obtain ⟨rs, hrs, rfl⟩ := ih
    match rs, hrs with
    | [], _ => exact ⟨[(x, 1)], Nat.one_pos, rfl⟩
    | (c, k) :: rs, hrs =>
      by_cases hx : x = c
      · subst hx
        exact ⟨(x, k + 1) :: rs, maximalRuns_lengthen hrs, rfl⟩
      · exact ⟨(x, 1) :: (c, k) :: rs, ⟨Nat.one_pos, hx, hrs⟩, rfl⟩

theorem lineRuns_replicate {k : Nat} (hk : 0 < k) (c : Bool) (rest : List Bool) :
    lineRuns (List.replicate k c ++ rest) = runsFrom c k rest := by
  obtain ⟨k, rfl⟩ := Nat.exists_eq_add_of_le' hk
  rw [List.replicate_succ, List.cons_append, lineRuns, runsFrom_replicate, Nat.add_comm]

/-- The first module of another colour ends the run. -/
theorem runsFrom_eq_add {c : Bool} {k : Nat} {rs : List (Bool × Nat)} (h : MaximalRuns ((c, k) :: rs)) :
    runsFrom c k (lineOfRuns rs) = runPoints k + lineRuns (lineOfRuns rs) := by
  cases rs with
  | nil => rfl
  | cons q rs =>
    obtain ⟨-, hcolour, hrest⟩ := h
    obtain ⟨j, hj⟩ := Nat.exists_eq_add_of_le' (maximalRuns_pos hrest)
    rw [lineOfRuns_cons, hj, List.replicate_succ, List.cons_append, runsFrom, if_neg hcolour.symm, lineRuns]

theorem lineRuns_lineOfRuns {rs : List (Bool × Nat)} (h : MaximalRuns rs) :
    lineRuns (lineOfRuns rs) = (rs.map fun r => runPoints r.2).sum := by
  induction rs with
  | nil => rfl
  | cons r rs ih =>
    rw [lineOfRuns_cons, lineRuns_replicate (maximalRuns_pos h), runsFrom_eq_add h, ih (maximalRuns_tail h),
      List.map_cons, List.sum_cons]

/-- Settles O51: the model reads a line run by run. -/
theorem runScoreSumsMaximalRuns : Obligations.RunScoreSumsMaximalRuns :=
  ⟨exists_maximalRuns, fun _ h => lineRuns_lineOfRuns h, fun _ _ hm => sum_matrixLines lineRuns hm⟩

/-! ### Rule 2: uniform blocks (R194) -/

theorem uniformBlock_iff (m : List (List Bool)) (r c : Nat) :
    uniformBlock m r c = true ↔
      moduleAt m r c = moduleAt m r (c + 1) ∧ moduleAt m r c = moduleAt m (r + 1) c ∧
        moduleAt m r c = moduleAt m (r + 1) (c + 1) := by
  simp only [uniformBlock, Bool.and_eq_true, beq_iff_eq, and_assoc]

/-- Settles O52: the positions counted row by row. -/
theorem blockScoreCountsUniformBlocks : Obligations.BlockScoreCountsUniformBlocks := by
  intro n m
  simp only [penalty2_eq_sum, uniformBlock_iff, Finset.card_filter, Finset.sum_product]

/-! ### Rule 3: finder-like patterns (R195) -/

/-- A nonempty pattern stands at position i exactly when its places lie inside the line and hold its modules. -/
theorem take_drop_eq_iff {l p : List Bool} {i : Nat} (d : Bool) (hp : 0 < p.length) :
    (l.drop i).take p.length = p ↔
      i + p.length ≤ l.length ∧ ∀ j < p.length, l.getD (i + j) d = p.getD j d := by
  constructor
  · intro h
    have hlength := congrArg List.length h
    rw [List.length_take, List.length_drop] at hlength
    refine ⟨by omega, fun j hj => ?_⟩
    rw [← EccBlocks.getD_take_drop l d i hj, h]
  · rintro ⟨hinside, hmodules⟩
    refine List.ext_getElem (by rw [List.length_take, List.length_drop]; omega) fun j _ hj => ?_
    rw [← List.getD_eq_getElem _ d, EccBlocks.getD_take_drop l d i hj, hmodules j hj, List.getD_eq_getElem _ d hj]

theorem finderPattern_iff (l : List Bool) (i : Nat) :
    (l.drop i).take 7 = finderPattern ↔
      i + 7 ≤ l.length ∧ l.getD i false = true ∧ l.getD (i + 1) false = false ∧ l.getD (i + 2) false = true ∧
        l.getD (i + 3) false = true ∧ l.getD (i + 4) false = true ∧ l.getD (i + 5) false = false ∧
        l.getD (i + 6) false = true := by
  refine (take_drop_eq_iff (p := finderPattern) false (by decide)).trans (and_congr_right fun _ => ?_)
  simp [finderPattern, Nat.forall_lt_succ_left, Nat.le_one_iff_eq_zero_or_eq_one]

theorem fourLight_iff {l : List Bool} {i : Nat} (h : i + 4 ≤ l.length) :
    (l.drop i).take 4 = fourLight ↔
      l.getD i true = false ∧ l.getD (i + 1) true = false ∧ l.getD (i + 2) true = false ∧
        l.getD (i + 3) true = false := by
  refine (take_drop_eq_iff (p := fourLight) true (by decide)).trans ((and_iff_right h).trans ?_)
  simp [fourLight, Nat.forall_lt_succ_left, Nat.le_one_iff_eq_zero_or_eq_one]

theorem lightBefore_iff {l : List Bool} {i : Nat} (h : i ≤ l.length) :
    (4 ≤ i ∧ (l.drop (i - 4)).take 4 = fourLight) ↔
      4 ≤ i ∧ l.getD (i - 4) true = false ∧ l.getD (i - 3) true = false ∧ l.getD (i - 2) true = false ∧
        l.getD (i - 1) true = false := by
  refine and_congr_right fun hi => ?_
  obtain ⟨i, rfl⟩ := Nat.exists_eq_add_of_le' hi
  exact fourLight_iff h

theorem lightAfter_iff (l : List Bool) (i : Nat) :
    (i + 11 ≤ l.length ∧ (l.drop (i + 7)).take 4 = fourLight) ↔
      i + 11 ≤ l.length ∧ l.getD (i + 7) true = false ∧ l.getD (i + 8) true = false ∧
        l.getD (i + 9) true = false ∧ l.getD (i + 10) true = false :=
  and_congr_right fun h => fourLight_iff h

/-- No occurrence starts in the last six places. -/
theorem finderAt_of_outside {l : List Bool} {i : Nat} (h : l.length < i + 7) : finderAt l i = 0 :=
  if_neg fun hpattern => by
    obtain ⟨hinside, -⟩ := (finderPattern_iff l i).mp hpattern
    omega

theorem lineFinders_eq_sum (l : List Bool) : lineFinders l = ((List.range l.length).map (finderAt l)).sum := by
  rw [lineFinders, sum_map_range, sum_map_range]
  refine Finset.sum_subset (Finset.range_mono (Nat.sub_le _ _)) fun i _ hi => finderAt_of_outside ?_
  rw [Finset.mem_range] at hi
  omega

/-- Settles O53: both sides of an occurrence, place by place. -/
theorem finderScoreByPosition : Obligations.FinderScoreByPosition := by
  refine ⟨fun _ _ hm => sum_matrixLines lineFinders hm, fun l => ?_⟩
  rw [lineFinders_eq_sum]
  refine congrArg List.sum (List.map_congr_left fun i hi => ?_)
  refine ite_congr (propext (finderPattern_iff l i)) (fun _ => ?_) fun _ => rfl
  exact congrArg₂ (· + ·) (if_congr (lightBefore_iff (List.mem_range.mp hi).le) rfl rfl)
    (if_congr (lightAfter_iff l i) rfl rfl)

/-! ### Rule 4: the dark ratio (R196) -/

/-- The deviation of the ratio from 50 %, over the denominator T. -/
theorem ratio_deviation {n : Nat} (hn : 0 < n) (dark : Nat) :
    |100 * (dark : ℚ) / ((n : ℚ) * n) - 50| =
      5 * (((20 * dark : Int) - 10 * (n * n : Nat)).natAbs : ℚ) / ((n : ℚ) * n) := by
  have hT : 0 < (n : ℚ) * n := by positivity
  have hdeviation : 100 * (dark : ℚ) / ((n : ℚ) * n) - 50 =
      5 * (20 * (dark : ℚ) - 10 * ((n : ℚ) * n)) / ((n : ℚ) * n) := by
    field_simp
    ring
  rw [hdeviation, abs_div, abs_mul, abs_of_pos hT, abs_of_pos (by norm_num : (0 : ℚ) < 5), Nat.cast_natAbs]
  push_cast
  rfl

/-- The points count whole buckets of 5 %. -/
theorem le_ratioPoints_iff {n : Nat} (hn : 0 < n) (dark k : Nat) :
    10 * k ≤ ratioPoints n dark ↔ (5 * k : ℚ) ≤ |100 * (dark : ℚ) / ((n : ℚ) * n) - 50| := by
  have hT : 0 < (n : ℚ) * n := by positivity
  rw [ratio_deviation hn, ratioPoints, Nat.mul_le_mul_left_iff (by decide), Nat.le_div_iff_mul_le (Nat.mul_pos hn hn),
    le_div_iff₀ hT, mul_assoc, mul_le_mul_iff_right₀ (by norm_num)]
  exact_mod_cast Iff.rfl

/-- An all-light or all-dark matrix is half of T away from half of T. -/
theorem ratioPoints_of_extreme {n dark : Nat} (hn : 0 < n) (h : dark = 0 ∨ dark = n * n) :
    ratioPoints n dark = 100 := by
  have hdistance : ((20 * dark : Int) - 10 * (n * n : Nat)).natAbs = 10 * (n * n) := by omega
  rw [ratioPoints, hdistance, Nat.mul_div_cancel _ (Nat.mul_pos hn hn)]

/-- Settles O54: points and ratio over the denominator T. -/
theorem ratioScoreIsTheExactBucket : Obligations.RatioScoreIsTheExactBucket :=
  ⟨fun _ dark k hn => ⟨Nat.mul_mod_right 10 _, le_ratioPoints_iff hn dark k, PenaltyBounds.ratioPoints_le,
    ratioPoints_of_extreme hn (.inl rfl), ratioPoints_of_extreme hn (.inr rfl)⟩,
    fun _ _ hm => by rw [penalty4, darkCount_eq_sum hm]⟩

end Sys2Proof.PenaltyRules
end

section
/-! SUPPORT. The proofs of the statements on the penalties of a whole matrix and on the command PSCORE (44_penalty
sections 2 and 3): bounds, symmetries, and the check of the side before the scores. -/

namespace Sys2Proof.PenaltyCommand
open Sys2Proof Sys2Proof.Machine Sys2Proof.Spec Sys2Proof.Modules Sys2Proof.PenaltyRules Sys2Proof.CommandWords

/-! ### Bounds (R197) -/

/-- The four bounds at side 177 leave the total below 2^23. -/
theorem penalties_sum_lt {n : Nat} {m : List (List Bool)} (hn : n ≤ 177) (hm : Square n m) :
    penalty1 n m + penalty2 n m + penalty3 n m + penalty4 n m < 2 ^ 23 := by
  have h1 : penalty1 n m ≤ 2 * 177 * (177 - 2) := (PenaltyBounds.penalty1_le hm).trans (by gcongr)
  have h2 : penalty2 n m ≤ 3 * (177 - 1) ^ 2 := (PenaltyBounds.penalty2_le n m).trans (by gcongr)
  have h3 : penalty3 n m ≤ 2 * 177 * ((177 - 6) * 80) := (PenaltyBounds.penalty3_le hm).trans (by gcongr)
  have h4 := PenaltyBounds.penalty4_le hm
  omega

/-- Settles O55: the bounds rule by rule, and their total at side 177. -/
theorem penaltyBounds : Obligations.PenaltyBounds := fun _ _ _ hn hm =>
  ⟨PenaltyBounds.penalty1_le hm, PenaltyBounds.penalty2_le _ _,
    (PenaltyBounds.penalty3_le hm).trans_eq (Nat.mul_assoc _ _ _).symm, PenaltyBounds.penalty4_le hm,
    penalties_sum_lt hn hm⟩

/-! ### Transposing (R199) -/

section
variable {n : Nat} {m : List (List Bool)}

theorem matrixColumns_square (n : Nat) (m : List (List Bool)) : Square n (matrixColumns n m) :=
  matrixOf_square n _

theorem moduleAt_matrixColumns {r c : Nat} (hr : r < n) (hc : c < n) :
    moduleAt (matrixColumns n m) r c = moduleAt m c r :=
  moduleAt_matrixOf _ hr hc

theorem matrixColumns_matrixColumns (hm : Square n m) : matrixColumns n (matrixColumns n m) = m :=
  (matrixOf_congr fun _ hr _ hc => moduleAt_matrixColumns hc hr).trans (matrixOf_moduleAt hm)

/-- The transpose has the same lines, columns first. -/
theorem sum_matrixLines_matrixColumns (score : List Bool → Nat) (hm : Square n m) :
    ((matrixLines n (matrixColumns n m)).map score).sum = ((matrixLines n m).map score).sum := by
  rw [matrixLines, matrixColumns_matrixColumns hm, matrixLines, List.map_append, List.map_append, List.sum_append,
    List.sum_append, Nat.add_comm]

theorem uniformBlock_matrixColumns {r c : Nat} (hr : r + 1 < n) (hc : c + 1 < n) :
    uniformBlock (matrixColumns n m) r c = uniformBlock m c r := by
  have hr' := Nat.lt_of_succ_lt hr
  have hc' := Nat.lt_of_succ_lt hc
  rw [Bool.eq_iff_iff, uniformBlock_iff, uniformBlock_iff, moduleAt_matrixColumns hr' hc',
    moduleAt_matrixColumns hr' hc, moduleAt_matrixColumns hr hc', moduleAt_matrixColumns hr hc, and_left_comm]

theorem penalty2_matrixColumns (n : Nat) (m : List (List Bool)) : penalty2 n (matrixColumns n m) = penalty2 n m := by
  rw [penalty2_eq_sum, penalty2_eq_sum, Finset.sum_comm]
  refine congrArg (3 * ·) (Finset.sum_congr rfl fun r hr => Finset.sum_congr rfl fun c hc => ?_)
  rw [Finset.mem_range] at hr hc
  rw [uniformBlock_matrixColumns (by omega) (by omega)]

theorem darkCount_matrixColumns (hm : Square n m) : darkCount (matrixColumns n m) = darkCount m := by
  rw [darkCount_eq_sum hm, darkCount_eq_sum (matrixColumns_square n m), Finset.sum_comm]
  refine Finset.sum_congr rfl fun r hr => Finset.sum_congr rfl fun c hc => ?_
  rw [moduleAt_matrixColumns (Finset.mem_range.mp hc) (Finset.mem_range.mp hr)]

/-! ### Inverting (R199) -/

theorem map_not_matrixOf (n : Nat) (f : Nat → Nat → Bool) :
    (matrixOf n f).map (List.map not) = matrixOf n fun r c => !f r c := by
  rw [matrixOf, List.map_map]
  exact List.map_congr_left fun r _ => List.map_map

theorem moduleAt_map_not (hm : Square n m) {r c : Nat} (hr : r < n) (hc : c < n) :
    moduleAt (m.map (List.map not)) r c = !moduleAt m r c := by
  have hinverted := moduleAt_matrixOf (fun r c => !moduleAt m r c) hr hc
  rwa [← map_not_matrixOf, matrixOf_moduleAt hm] at hinverted

theorem lineRuns_map_not (l : List Bool) : lineRuns (l.map not) = lineRuns l := by
  cases l with
  | nil => rfl
  | cons x l => exact runsFrom_map_not x 1 l

/-- The columns are inverted with the rows. -/
theorem matrixLines_map_not (hm : Square n m) :
    matrixLines n (m.map (List.map not)) = (matrixLines n m).map (List.map not) := by
  have hcolumns : matrixColumns n (m.map (List.map not)) = (matrixColumns n m).map (List.map not) :=
    (matrixOf_congr fun _ hr _ hc => moduleAt_map_not hm hc hr).trans (map_not_matrixOf n _).symm
  rw [matrixLines, matrixLines, List.map_append, hcolumns]

theorem penalty1_map_not (hm : Square n m) : penalty1 n (m.map (List.map not)) = penalty1 n m := by
  rw [penalty1, matrixLines_map_not hm, List.map_map]
  exact congrArg List.sum (List.map_congr_left fun l _ => lineRuns_map_not l)

theorem uniformBlock_map_not (hm : Square n m) {r c : Nat} (hr : r + 1 < n) (hc : c + 1 < n) :
    uniformBlock (m.map (List.map not)) r c = uniformBlock m r c := by
  have hr' := Nat.lt_of_succ_lt hr
  have hc' := Nat.lt_of_succ_lt hc
  rw [Bool.eq_iff_iff, uniformBlock_iff, uniformBlock_iff, moduleAt_map_not hm hr' hc', moduleAt_map_not hm hr' hc,
    moduleAt_map_not hm hr hc', moduleAt_map_not hm hr hc, Bool.not_inj_iff, Bool.not_inj_iff, Bool.not_inj_iff]

theorem penalty2_map_not (hm : Square n m) : penalty2 n (m.map (List.map not)) = penalty2 n m := by
  rw [penalty2_eq_sum, penalty2_eq_sum]
  refine congrArg (3 * ·) (Finset.sum_congr rfl fun r hr => Finset.sum_congr rfl fun c hc => ?_)
  rw [Finset.mem_range] at hr hc
  rw [uniformBlock_map_not hm (by omega) (by omega)]

/-- Every module is dark in one of the two matrices. -/
theorem darkCount_map_not (hm : Square n m) : darkCount (m.map (List.map not)) + darkCount m = n * n := by
  obtain ⟨hrows, hcols⟩ := hm
  have hrow : ∀ row ∈ m, (row.map not).count true + row.count true = n := fun row hrow => by
    have hinverted : (row.map not).count true = row.count false :=
      List.count_map_of_injective row not Bool.not_injective false
    rw [hinverted, List.count_false_add_count_true, hcols row hrow]
  rw [darkCount, darkCount, List.map_map, ← List.sum_map_add]
  refine (congrArg List.sum (List.map_congr_left hrow)).trans ?_
  rw [List.map_const', List.sum_replicate, hrows, smul_eq_mul]

/-- The two deviations from 50 % differ in sign only. -/
theorem ratioPoints_of_sum {dark light : Nat} (h : dark + light = n * n) :
    ratioPoints n dark = ratioPoints n light := by
  have hdistance : ((20 * dark : Int) - 10 * (n * n : Nat)).natAbs =
      ((20 * light : Int) - 10 * (n * n : Nat)).natAbs := by omega
  rw [ratioPoints, ratioPoints, hdistance]

end

/-- Settles O56: the transpose has the same lines, blocks and modules; inverting keeps runs and blocks, and exchanges
dark and light. -/
theorem penaltySymmetries : Obligations.PenaltySymmetries := fun n m _ hm =>
  ⟨⟨sum_matrixLines_matrixColumns lineRuns hm, penalty2_matrixColumns n m,
      sum_matrixLines_matrixColumns lineFinders hm, congrArg (ratioPoints n) (darkCount_matrixColumns hm)⟩,
    penalty1_map_not hm, penalty2_map_not hm, ratioPoints_of_sum (darkCount_map_not hm)⟩

/-! ### The command (R198) -/

/-- PSCORE's check of the side, as arithmetic. -/
theorem sideAccepted_iff (s : State) :
    (decide (Config.nMin ≤ matrixSide s) && decide (matrixSide s ≤ Config.nMax) &&
        decide (matrixSide s % 4 = 1)) = true ↔
      21 ≤ s.msize.toNat ∧ s.msize.toNat ≤ 177 ∧ s.msize.toNat % 4 = 1 := by
  rw [Bool.and_eq_true, Bool.and_eq_true, decide_eq_true_iff, decide_eq_true_iff, decide_eq_true_iff, and_assoc]
  rfl

theorem exec_pscore_badarg (m : Nat) {s : State}
    (h : s.msize.toNat < 21 ∨ 177 < s.msize.toNat ∨ s.msize.toNat % 4 ≠ 1) :
    exec (.pscore m) s = .next (failed .badarg s) :=
  exec_failed (i := .pscore m) nofun <| firstFailed_of_false <| Bool.eq_false_iff.mpr fun hside => by
    have haccepted := (sideAccepted_iff s).mp hside
    omega

theorem exec_pscore_done (m : Nat) {s : State} (hmin : 21 ≤ s.msize.toNat) (hmax : s.msize.toNat ≤ 177)
    (hmod : s.msize.toNat % 4 = 1) : exec (.pscore m) s = .next (done (pscoreEffect m s)) :=
  exec_done (i := .pscore m) nofun (firstFailed_of_true ((sideAccepted_iff s).mpr ⟨hmin, hmax, hmod⟩))

theorem enabled_le (enabled : Bool) (p : Nat) : (if enabled then p else 0) ≤ p := by
  cases enabled
  · exact Nat.zero_le p
  · exact le_rfl

/-- Settles O50: the check of the side, then the scores of the matrix read from MAT. -/
theorem pscoreRule : Obligations.PscoreRule := by
  rintro s m n rfl
  refine ⟨fun _ hopc hreserved => runCommand_of_reserved .pscore hopc hreserved s,
    fun hm => runCommand_encode (i := .pscore m) (decide_eq_true hm) s, exec_pscore_badarg m,
    fun hmin hmax hmod => ⟨_, _, _, _, exec_pscore_done m hmin hmax hmod, ?_, rfl, rfl, rfl, rfl⟩,
    scoredMatrix_square _ s, fun r c hr hc => moduleAt_matrixOf _ hr hc⟩
  have hsum := penalties_sum_lt hmax (scoredMatrix_square _ s)
  refine lt_of_le_of_lt ?_ (hsum.trans (by decide))
  gcongr <;> exact enabled_le _ _

end Sys2Proof.PenaltyCommand
end

section
/-! SUPPORT. The proofs of the statements on the commands NOP and SWRST (45_control): the common end alone, and the
reset values in every register. -/

namespace Sys2Proof.ControlCommands
open Sys2Proof Sys2Proof.Machine Sys2Proof.Spec Sys2Proof.CommandWords

/-! ### NOP (R210) -/

/-- Settles O57: NOP makes no check and has no effect before the common end. -/
theorem nopRule : Obligations.NopRule := fun s =>
  ⟨fun _ hopc hreserved => runCommand_of_reserved .nop hopc hreserved s,
    runCommand_encode (i := .nop) rfl s, exec_done (i := .nop) nofun rfl⟩

/-! ### SWRST (R211, R252) -/

/-- The registers' reset is the reset state under the old RAMs and the model's own fields. -/
theorem resetRegisters_eq_reset (s : State) : resetRegisters s = { State.reset with
    buf := s.buf, mat := s.mat, port := s.port, resp := s.resp, era := s.era, aborts := s.aborts } := rfl

/-- No register's host view depends on the RAMs or on the model's own fields. -/
theorem hostReadReg_resetRegisters (r : Reg) (s : State) :
    hostReadReg r (resetRegisters s) = hostReadReg r State.reset := by
  cases r <;> rfl

/-- With STICKY at 0 there is no interrupt (R30). -/
theorem irq_resetRegisters (s : State) : irq (resetRegisters s) = false := rfl

/-- Every word but SWRST's leaves one more command counted, whether it fails or not (R27). -/
theorem runCommand_counts {w : Word} (hw : decode w ≠ .ok .swrst) (s : State) :
    ∃ t, runCommand w s = .next t ∧ t.cmdcnt = s.cmdcnt + 1 := by
  obtain ⟨t, ht⟩ := runCommand_next w s
  obtain ⟨hcount, -⟩ := Registers.commandsAreCounted w s t ht
  exact ⟨t, ht, hcount hw⟩

/-- Settles O58: SWRST runs to the registers' reset, and O21 counts every other word. -/
theorem swrstRule : Obligations.SwrstRule := by
  refine fun s => ⟨fun _ hopc hreserved => runCommand_of_reserved .swrst hopc hreserved s,
    runCommand_encode (i := .swrst) rfl s, ?_, fun t ht => ?_, fun _ hw => runCommand_counts hw s⟩
  · rw [exec_swrst, resetRegisters_eq_reset]
  · obtain rfl : resetRegisters s = t := by simpa [exec_swrst] using ht
    exact ⟨fun r => hostReadReg_resetRegisters r s, irq_resetRegisters s,
      bufByte_congr (resetRegisters_buf s) (resetRegisters_era s),
      matByte_congr (resetRegisters_mat s) (resetRegisters_era s)⟩

end Sys2Proof.ControlCommands
end

section
/-! SUPPORT. The proofs of the statements on failures and interrupts (60_exceptions): how a failing command ends, which
errors a command can raise, when irq rises, and that every step ends in a next state. -/

namespace Sys2Proof.Exceptions
open Sys2Proof Sys2Proof.Machine Sys2Proof.Spec

/-! ### The interrupt line (R30) -/

theorem irq_eq_true_iff (s : State) : irq s = true ↔ s.sticky = true ∧ s.ie = true := Bool.and_eq_true_iff

theorem irq_raiseError (e : ErrCode) (s : State) : irq (raiseError e s) = s.ie := Bool.true_and s.ie

theorem irq_finish (s : State) : irq (finish s) = irq s := rfl

/-- No effect of a command but SWRST moves the interrupt line. -/
theorem irq_effectOf {i : Instr} (hi : i ≠ .swrst) (s : State) : irq (effectOf i s) = irq s := by
  obtain ⟨-, hsticky, hie, -⟩ := effectOf_keeps hi s
  rw [irq, irq, hsticky, hie]

/-! ### A failing command (R221) -/

/-- Settles O20: of the three ends of a command, only the failing one leaves an error in ERRCODE. -/
theorem failingCommandChangesNothingElse : Obligations.FailingCommandChangesNothingElse := by
  intro w s t h herr
  rcases Registers.runCommand_cases h with ⟨-, rfl⟩ | ⟨-, e, -, rfl⟩ | ⟨i, -, -, rfl⟩
  case inl => exact absurd rfl herr
  case inr.inl => exact ⟨rfl, fun hie => (irq_raiseError e s).trans hie⟩
  case inr.inr => exact absurd rfl herr

/-! ### Which command raises which error (R220) -/

/-- The errors of a command's checks are those of its row; ECCBLK has three checks for BADARG. -/
theorem checkErrors_subset (i : Instr) (s : State) : (checksOf i s).map Prod.snd ⊆ errorsOf i := by
  cases i with
  | eccblk k e =>
    have hrow : [ErrCode.badarg, .badarg, .badarg, .range] ⊆ [.badarg, .range] := by decide
    exact hrow
  | _ => exact List.Subset.refl _

/-- Settles O24: a command that fails has the error of one of its checks. -/
theorem commandsRaiseOnlyTheirErrors : Obligations.CommandsRaiseOnlyTheirErrors := by
  intro i s t h
  rcases exec_cases h with ⟨-, rfl⟩ | ⟨-, e, he, rfl⟩ | ⟨-, -, rfl⟩
  case inl => exact .inl rfl
  case inr.inl => exact .inr (checkErrors_subset i s (List.mem_map_of_mem he))
  case inr.inr => exact .inl rfl

/-! ### When irq rises (R226) -/

/-- An access that reaches a register is a 32-bit access at the register's offset (R20, R67). -/
theorem access_of_target_reg {w : Width} {off : Offset} {r : Reg} (h : target w off.toNat = some (.reg r)) :
    w = .w32 ∧ off = regOffset r := by
  unfold target at h
  split_ifs at h with hlow hword
  · obtain ⟨hw, haligned⟩ := hword
    simp only [Option.map_eq_some_iff, Target.reg.injEq, exists_eq_right] at h
    obtain ⟨hlt, rfl⟩ := List.getElem?_eq_some_iff.mp h
    have hnodup : regMap.Nodup := by decide
    refine ⟨hw, BitVec.eq_of_toNat_eq ?_⟩
    rw [regOffset, hnodup.idxOf_getElem, BitVec.toNat_ofNat]
    omega
  all_goals cases h

/-- A command that raises irq fails with IE set: a success leaves the line, and SWRST drops it. -/
theorem runCommand_raises_irq {w : Word} {s t : State} (h : runCommand w s = .next t) (hlow : irq s = false)
    (hhigh : irq t = true) : t.errcode ≠ .ok ∧ s.ie = true := by
  rcases Registers.runCommand_cases h with ⟨-, rfl⟩ | ⟨-, e, he, rfl⟩ | ⟨i, -, hi, rfl⟩
  case inl => exact absurd ((ControlCommands.irq_resetRegisters s).symm.trans hhigh) Bool.false_ne_true
  case inr.inl => exact ⟨he, (irq_raiseError e s).symm.trans hhigh⟩
  case inr.inr =>
    rw [irq_finish, irq_effectOf hi, hlow] at hhigh
    exact absurd hhigh Bool.false_ne_true

/-- A register write that raises irq sets IE under STICKY: a write of STATUS only clears, and no other register
drives the line. -/
theorem hostWriteReg_raises_irq {r : Reg} {v : Word} {s : State} (hlow : irq s = false)
    (hhigh : irq (hostWriteReg r v s) = true) : r = .ctrl ∧ s.sticky = true ∧ v.getLsbD 0 = true := by
  cases r with
  | ctrl => exact ⟨rfl, (irq_eq_true_iff _).mp hhigh⟩
  | status =>
    rw [hostWriteReg, HostAccess.writeStatus_eq, irq_eq_true_iff, Bool.and_eq_true] at hhigh
    obtain ⟨⟨hsticky, -⟩, hie⟩ := hhigh
    exact absurd (hlow.symm.trans ((irq_eq_true_iff s).mpr ⟨hsticky, hie⟩)) Bool.false_ne_true
  | _ => exact absurd (hlow.symm.trans hhigh) Bool.false_ne_true

/-- A host write that raises irq is a failing command or an enabling write of CTRL. -/
theorem serveWrite_raises_irq {w : Width} {off : Offset} {v : Word} {s t : State}
    (h : serveWrite w off v s = .next t) (hlow : irq s = false) (hhigh : irq t = true) :
    (w = .w32 ∧ off = 0x000C#16 ∧ t.errcode ≠ .ok ∧ s.ie = true) ∨
    (w = .w32 ∧ off = 0x0008#16 ∧ s.sticky = true ∧ v.getLsbD 0 = true) := by
  have hsteady : irq t ≠ irq s := by rw [hlow, hhigh]; decide
  have hlowAccepted : irq { s with resp := .ack } = false := hlow
  rcases HostAccess.serveWrite_cases h with ⟨-, rfl⟩ | ⟨ht, hrun⟩ | ⟨r, ht, rfl⟩ | ⟨i, -, rfl⟩ | ⟨j, -, rfl⟩
  case inl => exact absurd rfl hsteady
  case inr.inl =>
    have hfail := runCommand_raises_irq hrun hlowAccepted hhigh
    obtain ⟨hw, hoff⟩ := access_of_target_reg ht
    exact .inl ⟨hw, hoff, hfail⟩
  case inr.inr.inl =>
    obtain ⟨rfl, henable⟩ := hostWriteReg_raises_irq hlowAccepted hhigh
    obtain ⟨hw, hoff⟩ := access_of_target_reg ht
    exact .inr ⟨hw, hoff, henable⟩
  case inr.inr.inr.inl => exact absurd rfl hsteady
  case inr.inr.inr.inr => exact absurd rfl hsteady

/-- Settles O15: an idle step and a read leave the line, a reset drops it, so the event is a write. -/
theorem interruptRisesOnlyOnFailureOrEnable : Obligations.InterruptRisesOnlyOnFailureOrEnable := by
  intro s t hstep hlow hhigh
  have hsteady : irq t ≠ irq s := by rw [hlow, hhigh]; decide
  cases hport : s.port with
  | nil =>
    rw [step_of_port_nil hport] at hstep
    injection hstep with hstep
    exact absurd (congrArg irq hstep.symm) hsteady
  | cons ev rest =>
    rw [step_of_port_cons hport] at hstep
    cases ev with
    | read w off =>
      injection hstep with hstep
      rw [← hstep, HostAccess.serveRead_frame] at hsteady
      exact absurd rfl hsteady
    | write w off v =>
      rcases serveWrite_raises_irq hstep hlow hhigh with ⟨rfl, rfl, hfail⟩ | ⟨rfl, rfl, henable⟩
      · exact .inl ⟨v, rest, rfl, hfail⟩
      · exact .inr ⟨v, rest, rfl, henable⟩
    | reset | abortedCmd =>
      injection hstep with hstep
      rw [← hstep] at hhigh
      exact absurd hhigh Bool.false_ne_true

/-! ### Every step ends (R225, R236) -/

theorem serve_next (ev : HostEvent) (s : State) : ∃ t, serve ev s = .next t := by
  cases ev with
  | write w off v => exact HostAccess.serveWrite_next w off v s
  | _ => exact ⟨_, rfl⟩

/-- Settles O8: an idle step keeps the state, and every event is served. -/
theorem everyStepIsSafe : Obligations.EveryStepIsSafe := by
  intro s
  cases hport : s.port with
  | nil => exact ⟨s, step_of_port_nil hport⟩
  | cons ev rest =>
    rw [step_of_port_cons hport]
    exact serve_next ev _

end Sys2Proof.Exceptions
end

section
/-! SUPPORT. The proofs of the statements on the hardware reset (70_reset_and_hazards): what every register reads after
it, what an abandoned command leaves of the RAMs, and that the reset state meets the invariant. -/

namespace Sys2Proof.HardwareReset
open Sys2Proof Sys2Proof.Machine Sys2Proof.Spec

/-! ### The registers after a reset (R20, R250) -/

/-- The value of every register after reset (R20). -/
theorem hostReadReg_reset (r : Reg) :
    hostReadReg r State.reset = if r = .id then 0x51524746#32 else 0#32 := by
  cases r <;> rfl

/-- The registers' reset gives every register its value, whatever the RAMs hold. -/
theorem hostReadReg_resetRegisters_eq (r : Reg) (s : State) :
    hostReadReg r (resetRegisters s) = if r = .id then 0x51524746#32 else 0#32 :=
  (ControlCommands.hostReadReg_resetRegisters r s).trans (hostReadReg_reset r)

/-- A reset between transactions is the registers' reset on unwritten RAMs of the next era. -/
theorem hardwareReset_eq (s : State) :
    hardwareReset s = resetRegisters { s with buf := [], mat := [], era := s.era + 1, resp := .idle } := rfl

/-- A reset during a command is the registers' reset on a BUF whose output regions hold free values. -/
theorem abandonCommand_eq (w : Word) (s : State) :
    abandonCommand w s = resetRegisters { s with
      buf := scramble s.aborts (wordRegions w s) s.buf, aborts := s.aborts + 1, resp := .idle } := rfl

theorem hostReadReg_hardwareReset (r : Reg) (s : State) :
    hostReadReg r (hardwareReset s) = if r = .id then 0x51524746#32 else 0#32 := by
  rw [hardwareReset_eq, hostReadReg_resetRegisters_eq]

theorem irq_hardwareReset (s : State) : irq (hardwareReset s) = false := by
  rw [hardwareReset_eq, ControlCommands.irq_resetRegisters]

theorem hostReadReg_abandonCommand (r : Reg) (w : Word) (s : State) :
    hostReadReg r (abandonCommand w s) = if r = .id then 0x51524746#32 else 0#32 := by
  rw [abandonCommand_eq, hostReadReg_resetRegisters_eq]

/-- Settles O18: the reset event of the port is the registers' reset, and leaves the later events pending. -/
theorem hardwareResetValues : Obligations.HardwareResetValues := by
  refine ⟨hostReadReg_reset, rfl, fun s rest hport => ?_⟩
  have hstep : step s = .next (hardwareReset { s with port := rest }) := step_of_port_cons hport
  exact ⟨_, hstep, fun r => hostReadReg_hardwareReset r _, irq_hardwareReset _, rfl⟩

/-! ### The RAMs after an abandoned command (R251) -/

/-- Filling regions leaves every byte outside all of them. -/
theorem bufByte_scramble_out (s : State) (k : Nat) (rs : List (Nat × Nat)) (m : Memory) (a : Nat)
    (h : ∀ p ∈ rs, a < p.1 ∨ p.1 + p.2 ≤ a) :
    bufByte { s with buf := scramble k rs m } a = bufByte { s with buf := m } a := by
  induction rs generalizing m with
  | nil => rfl
  | cons p rs ih =>
    obtain ⟨hp, hrs⟩ := List.forall_mem_cons.mp h
    rw [scramble, ih _ hrs]
    exact bufByte_storeBytes_out s m _ _ a (by rwa [List.length_map, List.length_range])

/-- The regions of a word are those of the command it decodes to (R94). -/
theorem mem_wordRegions {w : Word} {s : State} {p : Nat × Nat} (h : p ∈ wordRegions w s) :
    ∃ i, decode w = .ok i ∧ p ∈ outputRegions i s := by
  unfold wordRegions at h
  split at h
  case h_1 i hdecode => exact ⟨i, hdecode, h⟩
  case h_2 => exact absurd h List.not_mem_nil

/-- Where a command writes does not depend on the events pending. -/
theorem outputRegions_port (i : Instr) (s : State) (rest : List HostEvent) :
    outputRegions i { s with port := rest } = outputRegions i s := by
  cases i <;> rfl

/-- An abandoned command leaves MAT. -/
theorem matByte_abandonCommand (w : Word) (s : State) (j : Nat) :
    matByte (abandonCommand w s) j = matByte s j := matByte_congr rfl rfl j

/-- An abandoned command leaves every BUF byte outside the regions of its word. -/
theorem bufByte_abandonCommand_out {w : Word} {s : State} {a : Nat}
    (h : ∀ p ∈ wordRegions w s, a < p.1 ∨ p.1 + p.2 ≤ a) : bufByte (abandonCommand w s) a = bufByte s a := by
  calc bufByte (abandonCommand w s) a
      = bufByte { s with buf := scramble s.aborts (wordRegions w s) s.buf } a := bufByte_congr rfl rfl a
    _ = bufByte s a := bufByte_scramble_out s s.aborts (wordRegions w s) s.buf a h

/-- Settles O19: the event is the reset of the registers and the filling of the word's regions. -/
theorem abandonedCommandKeepsOtherBytes : Obligations.AbandonedCommandKeepsOtherBytes := by
  intro s rest w hport
  have hstep : step s = .next (abandonCommand w { s with port := rest }) := step_of_port_cons hport
  refine ⟨_, hstep, fun r => hostReadReg_abandonCommand r w _, matByte_abandonCommand w _, fun a hout => ?_⟩
  refine bufByte_abandonCommand_out fun p hp => ?_
  obtain ⟨i, hdecode, hp⟩ := mem_wordRegions hp
  rw [outputRegions_port] at hp
  exact hout i hdecode p hp

/-! ### The invariant at reset -/

/-- Settles O59: State.reset is its own registers' reset, and its RAMs are unwritten. -/
theorem resetSatisfiesInvariant : Obligations.ResetSatisfiesInvariant := by
  obtain ⟨hbuf, hmat⟩ := wf_reset
  exact Invariant.inv_resetRegisters hbuf hmat

end Sys2Proof.HardwareReset
end
